-- ==== Sys2Proof/Word.lean ====
section
/-! DEFINITION. The value types of the bus block: bytes, words, pin levels, and the event alphabet of the wire trace (R9, R41). -/

namespace Sys2Proof

/-- A byte, 0..255 (R9). -/
abbrev Byte := BitVec 8

/-- A 32-bit operand: address, count, frequency, buffer reference (R101, R102). -/
abbrev Word32 := BitVec 32

/-- An electrical level: `true` is 1, `false` is 0 (R33). -/
abbrev Level := Bool

/-- The direction of a pin (R33). -/
inductive Dir where
  | inp
  | out
deriving DecidableEq, Repr

/-- The event alphabet of `TRACE` (R41). Buses and handles are named by index, pins by identifier. -/
inductive Event where
  | dir (p : Nat) (d : Dir)
  | cs (h : Nat) (v : Level)
  | sck (b : Nat) (v : Level)
  | mosi (b : Nat) (v : Level)
  | smp (b : Nat) (v : Level)
  | xch (b : Nat) (sent received : Byte)
deriving DecidableEq, Repr

end Sys2Proof
end

