-- ==== Sys2Proof/Config.lean ====
section
/-! DEFINITION. The static configuration `CFG` of R8 as plain data, the test configuration `CFG-T` of
95_test_vectors.md, and the values the spec leaves free (R8 `SWSCALE`, R75, R80, R291) as opaque constants. -/

namespace Sys2Proof

/-- The four clock modes (R91). -/
inductive Mode where
  | mode0
  | mode1
  | mode2
  | mode3
deriving DecidableEq, Repr

/-- The two bit orders (R92). -/
inductive Order where
  | msb
  | lsb
deriving DecidableEq, Repr

/-- The backend of a bus with its parameters (R2, R8): `sw` names the clock, output-data and input-data
pins, `hw` has the system clock `SYSCLK[b]` in Hz and the supported divisors `DIVSET[b]` (R141). -/
inductive Backend where
  | sw (sck mosi miso : Nat)
  | hw (sysclk : Nat) (divset : List Nat)
deriving DecidableEq, Repr

/-- The constants of a DeviceHandle (R29): `BUSOF`, `CSPIN`, `MODE`, `ORDER`, `FREQ`, `CS_IDLE` (R8). -/
structure DevCfg where
  bus : Nat
  csPin : Nat
  mode : Mode
  order : Order
  freq : Word32
  csIdle : Level
deriving DecidableEq, Repr

/-- The constants of an AddressedMemoryDevice: `HANDLEOF` and the environment's `MEM_ADDR_BITS` (R8). -/
structure MemCfg where
  dev : Nat
  addrBits : Nat
deriving DecidableEq, Repr

/-- The constants of a CircularStream: `MEMOF`, `BASE`, `SIZE` (R8, R32). -/
structure StrCfg where
  mem : Nat
  base : Word32
  size : Nat
deriving DecidableEq, Repr

/-- `ZC_HEADER` (R8, R205). -/
inductive ZcHeader where
  | skip
  | send
deriving DecidableEq, Repr

/-- The configuration `CFG` (R8). Counts `NBUS`, `NDEV`, `NMEM`, `NSTR` are the lengths of the lists. -/
structure Config where
  buses : List Backend
  devs : List DevCfg
  mems : List MemCfg
  strs : List StrCfg
  ncaller : Nat
  fill : Byte
  zcHeader : ZcHeader
  empty : Int
deriving DecidableEq, Repr

namespace Config

/-- `BACKEND[b]` with its parameters; a bus that does not exist reads as a `hw` bus with no divisor. -/
def backend (cfg : Config) (b : Nat) : Backend := cfg.buses.getD b (.hw 0 [])

/-- The constants of handle `h`; a handle that does not exist reads as a fixed record. -/
def dev (cfg : Config) (h : Nat) : DevCfg := cfg.devs.getD h ⟨0, 0, .mode0, .msb, 0, true⟩

/-- The constants of memory device `m`; one that does not exist reads as a fixed record. -/
def memDev (cfg : Config) (m : Nat) : MemCfg := cfg.mems.getD m ⟨0, 1⟩

/-- The constants of stream `s`; one that does not exist reads as a fixed record. -/
def stream (cfg : Config) (s : Nat) : StrCfg := cfg.strs.getD s ⟨0, 0, 0⟩

/-- The bus a handle borrows, `BUSOF[h]`. -/
def busOf (cfg : Config) (h : Nat) : Nat := (cfg.dev h).bus

/-- The handle of memory device `m`, `HANDLEOF[m]`. -/
def handleOf (cfg : Config) (m : Nat) : Nat := (cfg.memDev m).dev

/-- The pins of one bus (R34): none of a `hw` bus (R33). -/
def backendPins : Backend → List Nat
  | .sw sck mosi miso => [sck, mosi, miso]
  | .hw _ _ => []

/-- Every pin identifier the block uses (R64, R111). -/
def pinIds (cfg : Config) : List Nat :=
  cfg.buses.flatMap backendPins ++ cfg.devs.map DevCfg.csPin

/-- `CFG-T`, the configuration of the spec's test vectors (95_test_vectors.md section 0): the reset
configuration of this model. DESIGN CHOICE (log 1): the spec leaves every one of these values open. -/
def reference : Config where
  buses := [.sw 0 1 2, .hw 16000000 [2, 4, 8, 16, 32, 64, 128]]
  devs := [⟨0, 3, .mode0, .msb, 4000000, true⟩, ⟨0, 4, .mode3, .lsb, 1000000, true⟩,
    ⟨1, 5, .mode0, .msb, 3000000, true⟩]
  mems := [⟨0, 17⟩]
  strs := [⟨0, 0x100, 8⟩, ⟨0, 0x200, 4⟩]
  ncaller := 2
  fill := 0
  zcHeader := .skip
  empty := -1

end Config

/-! The free values. None has a body: nothing in Lean can evaluate them. -/

/-- `SWSCALE`, the software backend's clock scale as a function of the frequency (R8, R131, D10; log 16). -/
opaque Config.swScale : Word32 → Nat

/-- `ENV.miso` of an unconstrained line: the level bus `b`'s input line shows given every event so far
(R75, R79, R291, U18; log 5). -/
opaque Config.envMiso : Nat → List Event → Level

/-- The byte a chip on handle `h` presents where REFMEM's `chip_tx` is any byte (R80, R81, U19; log 6);
the second argument counts the bytes the chip has loaded. -/
opaque Config.chipTx : Nat → Nat → Byte

/-- The initial content of the chip on handle `h` at an address (R80 "initial contents unspecified",
U13; log 6). -/
opaque Config.chipInit : Nat → Nat → Byte

/-- `COUNT - 1` at `COUNT = 0` of stream `x`, which the spec gives no value (R226 "never decremented at 0"; R234 and
R287 let two callers of one stream reach it); the second argument is the trace so far. DESIGN CHOICE: a free value
(log 30). -/
opaque Config.countBelowZero : Nat → List Event → Nat

end Sys2Proof
end

