-- ==== Sys2Proof/Syntax.lean ====
section
/-! DEFINITION. The operations of the block (R100) and the wire words (R96) as one inductive, the words a
caller's port delivers (R101), and the pseudo-operations of R108. -/

namespace Sys2Proof

/-- A buffer reference (R102). An operand of type `Option BufRef` is `none` where the word is 0 (absent). -/
abbrev BufRef := Word32

/-- One constructor per row of spec/opcode_table.json. `b`, `h`, `m`, `s` are unit indices. The four wire
words carry the handle in whose transaction they are sent, which the wire tells by the chip-select and not
by a bit of the frame (R94, R98; log 10). -/
inductive Instr where
  | bacq (b : Nat) (mode : Mode) (order : Order) (freq : Word32)
  | brel (b : Nat)
  | bxfer (b : Nat) (value : Byte)
  | bxblk (b : Nat) (dest src : Option BufRef) (count : Word32)
  | dacq (h : Nat)
  | drel (h : Nat)
  | dxfer (h : Nat) (value : Byte)
  | dxblk (h : Nat) (dest src : Option BufRef) (count : Word32)
  | mread (m : Nat) (dest : Option BufRef) (addr count : Word32)
  | mwrite (m : Nat) (addr : Word32) (src : Option BufRef) (count : Word32)
  | sput (s : Nat) (value : Byte)
  | savail (s : Nat)
  | speek (s : Nat)
  | sget (s : Nat)
  | sflush (s : Nat)
  | read (h : Nat) (addr : BitVec 24)
  | write (h : Nat) (addr : BitVec 24)
  | rdmr (h : Nat) (tail : BitVec 24)
  | wrmr (h : Nat) (tail : BitVec 24)
deriving DecidableEq, Repr

/-- What a caller's port delivers, in order: a 16-bit operation word, a 32-bit operand word (R101), or a
32-bit wire header word meant for the chip on handle `h` (R94, R97; log 10). -/
inductive PortWord where
  | opw (w : BitVec 16)
  | opnd (w : Word32)
  | frame (h : Nat) (w : Word32)
deriving DecidableEq, Repr

namespace Instr

/-- `BWRITE b, src, n` (R108). -/
def bwrite (b : Nat) (src : BufRef) (n : Word32) : Instr := .bxblk b none (some src) n

/-- `BREAD b, dest, n` (R108). -/
def bread (b : Nat) (dest : BufRef) (n : Word32) : Instr := .bxblk b (some dest) none n

/-- `DWRITE h, src, n` (R108). -/
def dwrite (h : Nat) (src : BufRef) (n : Word32) : Instr := .dxblk h none (some src) n

/-- `DREAD h, dest, n` (R108). -/
def dread (h : Nat) (dest : BufRef) (n : Word32) : Instr := .dxblk h (some dest) none n

/-- `SCOPED h { body }` expands to `DACQ h; body; DREL h` (R108). -/
def scopedAcquire (h : Nat) (body : List Instr) : List Instr := .dacq h :: (body ++ [.drel h])

end Instr

end Sys2Proof
end

