-- ==== Sys2Proof/WellFormed.lean ====
section
/-! DEFINITION. Well-formedness of a configuration (R111, refusal X3) and of an operation (R102, R104,
refusal X2), as decidable checks. -/

namespace Sys2Proof

/-- `BACKEND[b]`'s part of R111: a `hw` bus has `SYSCLK[b] > 0` and a non-empty set of positive divisors (R141). -/
def Backend.wf : Backend → Bool
  | .sw _ _ _ => true
  | .hw sysclk divset => decide (0 < sysclk) && !divset.isEmpty && divset.all (fun d => decide (0 < d))

/-- R111, with the domains of R8: counts at least 1 where R8 says so, every index in range, all pins
pairwise distinct, no handle wrapped twice, `MEM_ADDR_BITS` in 1..24, `EMPTY` outside 0..255. -/
def Config.wf (cfg : Config) : Bool :=
  !cfg.buses.isEmpty && decide (0 < cfg.ncaller) &&
  cfg.buses.all Backend.wf &&
  cfg.devs.all (fun d => decide (d.bus < cfg.buses.length)) &&
  cfg.mems.all (fun m => decide (m.dev < cfg.devs.length) && decide (1 ≤ m.addrBits) && decide (m.addrBits ≤ 24)) &&
  cfg.strs.all (fun s => decide (s.mem < cfg.mems.length)) &&
  decide cfg.pinIds.Nodup &&
  decide (cfg.mems.map MemCfg.dev).Nodup &&
  (decide (cfg.empty < 0) || decide (255 < cfg.empty))

/-- A unit index that the 8 bits of `UNIT` can hold and the configuration has (R101, R102). -/
def unitOk (u n : Nat) : Bool := decide (u < n) && decide (u < 256)

/-- A buffer operand is absent or a non-zero reference (R102). -/
def refOk (r : Option BufRef) : Bool := r != some 0

namespace Instr

/-- The unit index is in range for the family (R102, R104; X2). -/
def unitInRange (cfg : Config) : Instr → Bool
  | .bacq b _ _ _ | .brel b | .bxfer b _ | .bxblk b _ _ _ => unitOk b cfg.buses.length
  | .dacq h | .drel h | .dxfer h _ | .dxblk h _ _ _ => unitOk h cfg.devs.length
  | .mread m _ _ _ | .mwrite m _ _ _ => unitOk m cfg.mems.length
  | .sput s _ | .savail s | .speek s | .sget s | .sflush s => unitOk s cfg.strs.length
  | .read h _ | .write h _ | .rdmr h _ | .wrmr h _ => unitOk h cfg.devs.length

/-- The buffer operands are absent or non-zero (R102). -/
def refsOk : Instr → Bool
  | .bxblk _ d r _ | .dxblk _ d r _ => refOk d && refOk r
  | .mread _ d _ _ => refOk d
  | .mwrite _ _ r _ => refOk r
  | .bacq _ _ _ _ | .brel _ | .bxfer _ _ | .dacq _ | .drel _ | .dxfer _ _ => true
  | .sput _ _ | .savail _ | .speek _ | .sget _ | .sflush _ => true
  | .read _ _ | .write _ _ | .rdmr _ _ | .wrmr _ _ => true

/-- An operation of the block under `cfg` (R102, R104). -/
def wf (cfg : Config) (i : Instr) : Bool := i.unitInRange cfg && i.refsOk

end Instr

end Sys2Proof
end

