-- ==== Sys2Proof/Decode.lean ====
section
/-! DEFINITION. The decoder of operation records and wire words, total on any sequence of port words
(R101, R104, R105), and after it the encoder written from the same tables (R94, R101). -/

namespace Sys2Proof

/-- Why a record is refused (R104, R248). `malformed` is the model's own: operand words are missing, or an
operand word stands where an operation word is expected (log 18). -/
inductive DecodeError where
  | reservedOp
  | reservedBits
  | unitRange
  | malformed
deriving DecidableEq, Repr

/-- The verdict of the decoder on a port: nothing there, an operation and the words after it, or refused. -/
inductive Decoded where
  | empty
  | ok (i : Instr) (rest : List PortWord)
  | refused (e : DecodeError)
deriving DecidableEq, Repr

/-! ### Fields -/

/-- `OP = OPW[15:8]` (R101). -/
def opOf (w : BitVec 16) : Nat := (w.extractLsb' 8 8).toNat

/-- `UNIT = OPW[7:0]` (R101). -/
def unitOf (w : BitVec 16) : Nat := (w.extractLsb' 0 8).toNat

/-- The operation word `OP << 8 | UNIT` (R101). -/
def opWord (op unit : Nat) : BitVec 16 := BitVec.ofNat 8 op ++ BitVec.ofNat 8 unit

/-- `MODE = 2 * CPOL + CPHA` as two bits (R91). -/
def Mode.bits : Mode → BitVec 2
  | .mode0 => 0
  | .mode1 => 1
  | .mode2 => 2
  | .mode3 => 3

/-- `MODE[1]`, the clock polarity, which is the idle level of the clock line (R91, D2, D3). -/
def Mode.cpol : Mode → Level
  | .mode0 | .mode1 => false
  | .mode2 | .mode3 => true

/-- `MODE[0]`, the clock phase: `false` is data-first, `true` is clock-first (R91). -/
def Mode.cpha : Mode → Bool
  | .mode0 | .mode2 => false
  | .mode1 | .mode3 => true

/-- The mode a two-bit number names (R91); all four values are legal. -/
def modeOfBits (x : BitVec 2) : Mode :=
  if x = 0 then .mode0 else if x = 1 then .mode1 else if x = 2 then .mode2 else .mode3

/-- `MSB` = 1, `LSB` = 0 (R92, D4). -/
def Order.bit : Order → Bool
  | .msb => true
  | .lsb => false

/-- The order a bit names (R92). -/
def orderOfBit (x : Bool) : Order := if x then .msb else .lsb

/-- `CFGW`: `[1:0]` MODE, `[2]` ORDER, `[31:3]` zero (R101). -/
def cfgWord (mode : Mode) (order : Order) : Word32 :=
  BitVec.ofNat 32 (mode.bits.toNat + if order.bit then 4 else 0)

/-- A buffer reference operand: 0 is absent (R102). -/
def refOfWord (w : Word32) : Option BufRef := if w = 0 then none else some w

/-- The operand word of a buffer operand (R102). -/
def wordOfRef (r : Option BufRef) : Word32 := r.getD 0

/-! ### Operand words -/

/-- An operation with no operand word. -/
def noOperand (i : Instr) (ws : List PortWord) : Decoded := .ok i ws

/-- One byte operand in an operand word whose bits `[31:8]` are 0 (R101). -/
def byteOperand (f : Byte → Instr) : List PortWord → Decoded
  | .opnd w :: rest =>
    if w.extractLsb' 8 24 = 0 then .ok (f (w.extractLsb' 0 8)) rest else .refused .reservedBits
  | _ => .refused .malformed

/-- `CFGW` and `FREQ` (R101). -/
def cfgOperands (f : Mode → Order → Word32 → Instr) : List PortWord → Decoded
  | .opnd c :: .opnd freq :: rest =>
    if c.extractLsb' 3 29 = 0 then
      .ok (f (modeOfBits (c.extractLsb' 0 2)) (orderOfBit (c.getLsbD 2)) freq) rest
    else .refused .reservedBits
  | _ => .refused .malformed

/-- Three operand words (R101). -/
def threeOperands (f : Word32 → Word32 → Word32 → Instr) : List PortWord → Decoded
  | .opnd x :: .opnd y :: .opnd z :: rest => .ok (f x y z) rest
  | _ => .refused .malformed

/-- The operation an `OP` code names, with its unit and the words after the operation word (R101). -/
def decodeOp (op unit : Nat) (ws : List PortWord) : Decoded :=
  match op with
  | 0x10 => cfgOperands (.bacq unit) ws
  | 0x11 => noOperand (.brel unit) ws
  | 0x12 => byteOperand (.bxfer unit) ws
  | 0x13 => threeOperands (fun d r n => .bxblk unit (refOfWord d) (refOfWord r) n) ws
  | 0x20 => noOperand (.dacq unit) ws
  | 0x21 => noOperand (.drel unit) ws
  | 0x22 => byteOperand (.dxfer unit) ws
  | 0x23 => threeOperands (fun d r n => .dxblk unit (refOfWord d) (refOfWord r) n) ws
  | 0x30 => threeOperands (fun d a n => .mread unit (refOfWord d) a n) ws
  | 0x31 => threeOperands (fun a r n => .mwrite unit a (refOfWord r) n) ws
  | 0x40 => byteOperand (.sput unit) ws
  | 0x41 => noOperand (.savail unit) ws
  | 0x42 => noOperand (.speek unit) ws
  | 0x43 => noOperand (.sget unit) ws
  | 0x44 => noOperand (.sflush unit) ws
  | _ => .refused .reservedOp

/-- A byte operand word: `[7:0]` the byte, `[31:8]` zero (R101). -/
def byteWord (v : Byte) : Word32 := v.setWidth 32

/-- The record of `DXFER h, v` (R101). -/
def dxferRecord (h : Nat) (v : Byte) : List PortWord := [.opw (opWord 0x22 h), .opnd (byteWord v)]

/-- A header word `OPC[31:24] ++ A[23:0]` that a caller sends by hand (R94, R97). One whose opcode byte is in the table
of R96 is that wire word. Any other is not decoded further: it is what a caller does to put it on the wire, its four
bytes sent with `DXFER`, "like any other byte" (R97). DESIGN CHOICE, log 10. -/
def decodeFrame (h : Nat) (w : Word32) (rest : List PortWord) : Decoded :=
  let a := w.extractLsb' 0 24
  match (w.extractLsb' 24 8).toNat with
  | 0x03 => .ok (.read h a) rest
  | 0x02 => .ok (.write h a) rest
  | 0x05 => .ok (.rdmr h a) rest
  | 0x01 => .ok (.wrmr h a) rest
  | _ => .ok (.dxfer h (w.extractLsb' 24 8)) (dxferRecord h (w.extractLsb' 16 8) ++
      dxferRecord h (w.extractLsb' 8 8) ++ dxferRecord h (w.extractLsb' 0 8) ++ rest)

/-- `UNIT` out of range is refused (R104; X2). The spec gives no order among the reasons of R104 and R248: this check
comes last, after missing operand words and non-zero reserved bits. DESIGN CHOICE, log 29. -/
def checkUnit (cfg : Config) : Decoded → Decoded
  | .ok i rest => if i.unitInRange cfg then .ok i rest else .refused .unitRange
  | .empty => .empty
  | .refused e => .refused e

/-- The decoder: total on any sequence of words (R105). Where several reasons to refuse a record apply, it names
a reserved `OP` first, then missing operand words, then non-zero reserved bits, then the unit: DESIGN CHOICE, log 29. -/
def decode (cfg : Config) : List PortWord → Decoded
  | [] => .empty
  | .opw w :: rest => checkUnit cfg (decodeOp (opOf w) (unitOf w) rest)
  | .frame h w :: rest => checkUnit cfg (decodeFrame h w rest)
  | .opnd _ :: _ => .refused .malformed

/-- The reason of the first record that the decoder refuses, looking at up to `n` records. -/
def recordsError (cfg : Config) : Nat → List PortWord → Option DecodeError
  | 0, _ => none
  | n + 1, ws =>
    match decode cfg ws with
    | .empty => none
    | .refused e => some e
    | .ok _ rest => recordsError cfg n rest

/-- The reason for which a whole program is refused before anything runs, if it is (R248). No word makes more than seven
records. -/
def programError (cfg : Config) (ws : List PortWord) : Option DecodeError := recordsError cfg (7 * ws.length) ws

/-! ### The encoder -/

/-- A frame header word: `OPC[31:24] ++ A[23:0]` (R94). -/
def headerWord (opc : Byte) (a : BitVec 24) : Word32 := opc ++ a

/-- The words of an operation (R94, R101). -/
def encode : Instr → List PortWord
  | .bacq b mode order freq => [.opw (opWord 0x10 b), .opnd (cfgWord mode order), .opnd freq]
  | .brel b => [.opw (opWord 0x11 b)]
  | .bxfer b v => [.opw (opWord 0x12 b), .opnd (byteWord v)]
  | .bxblk b d r n => [.opw (opWord 0x13 b), .opnd (wordOfRef d), .opnd (wordOfRef r), .opnd n]
  | .dacq h => [.opw (opWord 0x20 h)]
  | .drel h => [.opw (opWord 0x21 h)]
  | .dxfer h v => [.opw (opWord 0x22 h), .opnd (byteWord v)]
  | .dxblk h d r n => [.opw (opWord 0x23 h), .opnd (wordOfRef d), .opnd (wordOfRef r), .opnd n]
  | .mread m d a n => [.opw (opWord 0x30 m), .opnd (wordOfRef d), .opnd a, .opnd n]
  | .mwrite m a r n => [.opw (opWord 0x31 m), .opnd a, .opnd (wordOfRef r), .opnd n]
  | .sput s v => [.opw (opWord 0x40 s), .opnd (byteWord v)]
  | .savail s => [.opw (opWord 0x41 s)]
  | .speek s => [.opw (opWord 0x42 s)]
  | .sget s => [.opw (opWord 0x43 s)]
  | .sflush s => [.opw (opWord 0x44 s)]
  | .read h a => [.frame h (headerWord 0x03 a)]
  | .write h a => [.frame h (headerWord 0x02 a)]
  | .rdmr h a => [.frame h (headerWord 0x05 a)]
  | .wrmr h a => [.frame h (headerWord 0x01 a)]

/-! ### The host's numbering of the opcode table -/

/-- How many operand words follow an operation word with this `OP` (R101); none for a reserved one. -/
def operandCount : Nat → Nat
  | 0x10 => 2
  | 0x12 | 0x22 | 0x40 => 1
  | 0x13 | 0x23 | 0x30 | 0x31 => 3
  | _ => 0

/-- `n` operand words taken from a number, the first from its lowest 32 bits. -/
def operandWords : Nat → Nat → List PortWord
  | 0, _ => []
  | n + 1, w => .opnd (BitVec.ofNat 32 w) :: operandWords n (w / 2 ^ 32)

/-- The port words of an instruction given as the opcode table numbers it: 32 bits are a wire word (sent
to handle 0, the table having no bits for it; log 10), anything else a 16-bit operation word with its
operand words in the bits above. -/
def layoutWord (nbits w : Nat) : List PortWord :=
  if nbits = 32 then [.frame 0 (BitVec.ofNat 32 w)]
  else
    let op := BitVec.ofNat 16 w
    .opw op :: operandWords (operandCount (opOf op)) (w / 2 ^ 16)

/-- What the decoder reads from an instruction whose bits, as the opcode table numbers them, are `w`,
under the reset configuration. -/
def decodeTableWord (nbits w : Nat) : Option Instr :=
  match decode Config.reference (layoutWord nbits w) with
  | .ok i _ => some i
  | .empty => none
  | .refused _ => none

end Sys2Proof
end

