-- ==== Sys2Proof/Machine/State.lean ====
section
/-! DEFINITION. The state of the block (10_state.md), of its callers (R42) and of the environment that
answers it (R75), all plain data; the reasons a step can stop; the state right after reset (R50, R271). -/

namespace Sys2Proof.Machine

/-! ### Buses, pins, streams -/

/-- `BUS[b]` (R21 to R26). `owner` is the ghost of R26. -/
structure Bus where
  held : Bool
  owner : Option Nat
  mode : Mode
  order : Order
  scale : Nat
deriving DecidableEq, Repr

/-- A bus at reset (R50). `mode`, `order` and `scale` are unspecified there: DESIGN CHOICE, unsafe (log 2). -/
def Bus.free : Bus := ⟨false, none, .mode0, .lsb, 0⟩

/-- The direction and level of a pin (R33). The level of an input pin is not state of the block and nothing
reads it. -/
structure Pin where
  dir : Dir
  lvl : Level
deriving DecidableEq, Repr

/-- What an unlisted pin reads as: an input. -/
def Pin.unused : Pin := ⟨.inp, false⟩

/-- `STR[s]` (R32). -/
structure Stream where
  put : Nat
  get : Nat
  count : Nat
deriving DecidableEq, Repr

/-- A stream at reset (R50). -/
def Stream.empty : Stream := ⟨0, 0, 0⟩

/-- The registers of a byte transfer in progress: `OUT`, `IN`, `BITCNT` of a `sw` bus (R27), or the shift
register and complete flag of a `hw` bus (R28, R146). They hold no value between transfers: `idle` (log 14). -/
inductive Path where
  | idle
  | sw (b : Nat) (out inn : Byte) (bitcnt : Nat)
  | hw (b : Nat) (shift : Byte) (complete : Bool)
deriving DecidableEq, Repr

/-! ### Callers -/

/-- `CALLER[c]` (R42). A waiting caller keeps the operation it is inside and the address evaluated before
the wait (R256; log 8). -/
inductive Status where
  | idle
  | waiting (b : Nat) (op : Instr) (addr : Word32)
  | running
deriving DecidableEq, Repr

/-- What an operation returned to its caller (R103). -/
inductive Result where
  | none
  | byte (v : Byte)
  | accepted
  | rejected
  | count (n : Nat)
  | empty
deriving DecidableEq, Repr

/-- One caller: its status, the words its port still has to deliver (R101; log 9), and what its last
operation returned (log 19). -/
structure Caller where
  status : Status
  port : List PortWord
  result : Result
deriving DecidableEq, Repr

/-- A caller at reset (R50): idle, with no operation to issue. -/
def Caller.idle : Caller := ⟨.idle, [], .none⟩

/-- The model faults `F1` to `F4` (R246). They are recorded in `FAULT`; none of them stops the machine. -/
inductive FaultCode where
  | xferNotHolder
  | relNotHolder
  | selectMismatch
  | bufferShort
deriving DecidableEq, Repr

/-- An element of `FAULT`: the reason with the caller and the operation that raised it (R43, R246). -/
structure FaultRecord where
  code : FaultCode
  caller : Nat
  op : Instr
deriving DecidableEq, Repr

/-! ### The environment -/

/-- Bytes by address: addresses strictly rising, one cell for each address that has been written. An
unlisted address has no value here (log 6). -/
abbrev Memory := List Host.Cell

/-- The canonical form of a memory. -/
def Memory.wf (m : Memory) : Bool := decide ((m.map Prod.fst).Pairwise (· < ·))

/-- The phase of REFMEM's frame machine (R80). -/
inductive Phase where
  | idle
  | op
  | a2
  | a1
  | a0
  | data
deriving DecidableEq, Repr

/-- `REFMEM(W)` (R80): `bits` is `W`, `op` is `o`, `addr` is `a` (while the address bytes arrive, the part
taken so far), `mem` is `M`. -/
structure RefMem where
  bits : Nat
  phase : Phase
  op : Byte
  addr : Nat
  mem : Memory
deriving DecidableEq, Repr

/-- The byte-level behaviour behind a reference slave (R78): the reference memory, or a chip that sends a
given list of bytes and keeps what it receives (95_test_vectors.md B6). -/
inductive Chip where
  | mem (m : RefMem)
  | script (tx rx : List Byte)
deriving DecidableEq, Repr

/-- `REFSLAVE` on handle `h` (R77): `tx` is `T`, `rx` is `R`. `din` is the level of the output data line as
the slave has last heard it, `draws` counts the bytes it has loaded (log 6). -/
structure Slave where
  h : Nat
  mode : Mode
  order : Order
  sel : Bool
  tx : Byte
  rx : Byte
  k : Nat
  q : Level
  din : Level
  draws : Nat
  chip : Chip
deriving DecidableEq, Repr

/-- Who answers the input line of a bus: an unconstrained environment (R75), a wire from the output line
(R76), or the attached reference slaves (R77). -/
inductive Line where
  | free
  | loop
  | slaves
deriving DecidableEq, Repr

/-! ### The state -/

/-- The state. `cfg`, `bufs`, `lines`, `slaves`, `sched` and the ports come from outside the block (R51)
and are kept here as plain data (logs 1, 4, 7, 9, 12). -/
structure State where
  cfg : Config
  buses : List Bus
  pins : List (Nat × Pin)
  strs : List Stream
  path : Path
  trace : List Event
  faults : List FaultRecord
  callers : List Caller
  bufs : List (Nat × List Byte)
  lines : List Line
  slaves : List Slave
  sched : List Nat
  cur : Nat
deriving DecidableEq, Repr

/-- Where the machine stops with a fault. -/
inductive Fault where
  /-- Raised by `step` on a value of `State` whose tables do not have the lengths of its configuration: it
  is no state of the machine. Safe (log 20). -/
  | illShapedState
deriving DecidableEq, Repr

/-- Where the machine gives no meaning. -/
inductive Refusal where
  /-- Raised by `exec` for an instruction without a meaning; no arm does. Safe. -/
  | notModelled (mnemonic : String)
  /-- `X1` of R248: raised by `boot` and by `step`, before anything runs, when a port holds a record with a reserved
  operation code or non-zero reserved bits. Safe (log 20). -/
  | reservedEncoding
  /-- `X2` of R248: raised by `boot` and by `step`, before anything runs, when a port holds a record with a unit index out
  of range, and by every meaning that is given one. Safe (log 20). -/
  | unitOutOfRange
  /-- `X3` of R248: raised by `boot` under an ill-formed configuration (R111), and by `step` on a value with one. Safe
  (log 20). -/
  | illFormedConfig
  /-- Raised by `boot` and by `step`, before anything runs, when a record lacks operand words or starts with one. Safe
  (log 18). -/
  | malformedRecord
deriving DecidableEq, Repr

/-! ### Reset -/

/-- The pins one bus sets up, with their reset pins (R50, R271). The levels of the two outputs are
unspecified: DESIGN CHOICE 0, unsafe (log 3). -/
def bootBusPins : Backend → List (Nat × Pin)
  | .sw sck mosi miso => [(sck, ⟨.out, false⟩), (mosi, ⟨.out, false⟩), (miso, Pin.unused)]
  | .hw _ _ => []

/-- The events of one bus's pin set-up (R271). -/
def bootBusEvents : Backend → List Event
  | .sw sck mosi miso => [.dir sck .out, .dir mosi .out, .dir miso .inp]
  | .hw _ _ => []

/-- The events of the handles' pin set-up from handle `h` on (R271). -/
def bootDevEvents : Nat → List DevCfg → List Event
  | _, [] => []
  | h, d :: ds => .dir d.csPin .out :: .cs h d.csIdle :: bootDevEvents (h + 1) ds

/-- `TRACE` after reset (R271). -/
def bootTrace (cfg : Config) : List Event :=
  cfg.buses.flatMap bootBusEvents ++ bootDevEvents 0 cfg.devs

/-- Insertion of a pin into a list sorted by identifier. -/
def bootInsert (x : Nat × Pin) : List (Nat × Pin) → List (Nat × Pin)
  | [] => [x]
  | y :: ys => if x.1 < y.1 then x :: y :: ys else if x.1 = y.1 then x :: ys else y :: bootInsert x ys

/-- The pins after reset (R50, R271), sorted by identifier. -/
def bootPins (cfg : Config) : List (Nat × Pin) :=
  (cfg.buses.flatMap bootBusPins ++ cfg.devs.map (fun d : DevCfg => (d.csPin, (⟨.out, d.csIdle⟩ : Pin)))).foldl
    (fun ps x => bootInsert x ps) []

namespace State

/-- The reset sequence under a configuration that `boot` has accepted (R111): the state it leaves (R50, R271, R272), with an unconstrained line on
every bus and no chip attached (log 27). -/
def resetWith (cfg : Config) : State where
  cfg := cfg
  buses := cfg.buses.map (fun _ => Bus.free)
  pins := bootPins cfg
  strs := cfg.strs.map (fun _ => Stream.empty)
  path := .idle
  trace := bootTrace cfg
  faults := []
  callers := List.replicate cfg.ncaller Caller.idle
  bufs := []
  lines := cfg.buses.map (fun _ => Line.free)
  slaves := []
  sched := []
  cur := 0

/-- The machine right after reset, under `CFG-T` (log 1). -/
def reset : State := resetWith Config.reference

end State

end Sys2Proof.Machine
end

