-- ==== Sys2Proof/Machine/Access.lean ====
section
/-! DEFINITION. The tables of the state and the accessors through which every state element is read and
written: positional tables (buses, streams, callers, lines) and maps sorted by key (pins, buffers, chip memory). -/

namespace Sys2Proof.Machine

/-! ### Tables -/

/-- The entry at an index of a positional table; beyond its end, the default. -/
def entry {α : Type} (d : α) (l : List α) (i : Nat) : α := l.getD i d

/-- A positional table with the entry at an index replaced. -/
def setEntry {α : Type} (d : α) : List α → Nat → α → List α
  | [], 0, x => [x]
  | [], i + 1, x => d :: setEntry d [] i x
  | _ :: ys, 0, x => x :: ys
  | y :: ys, i + 1, x => y :: setEntry d ys i x

/-- The value at a key of a sorted map. -/
def mapGet {α : Type} : List (Nat × α) → Nat → Option α
  | [], _ => none
  | (k, v) :: rest, a => if k = a then some v else mapGet rest a

/-- A sorted map with the value at a key set. -/
def mapPut {α : Type} : List (Nat × α) → Nat → α → List (Nat × α)
  | [], a, x => [(a, x)]
  | (k, v) :: rest, a, x =>
    if a < k then (a, x) :: (k, v) :: rest
    else if a = k then (a, x) :: rest
    else (k, v) :: mapPut rest a x

/-- One byte of a memory; `none` where nothing has been written (R80; log 6). -/
def Memory.read (m : Memory) (a : Nat) : Option Byte := mapGet m a

/-- `MemWrite(a, 1, v)` (R11, R80). -/
def Memory.write (m : Memory) (a : Nat) (v : Byte) : Memory := mapPut m a v

namespace State

/-! ### Accessors -/

/-- `BUS[b]`. -/
def bus (s : State) (b : Nat) : Bus := entry Bus.free s.buses b

/-- `BUS[b] <- x`. -/
def setBus (s : State) (b : Nat) (x : Bus) : State := { s with buses := setEntry Bus.free s.buses b x }

/-- `STR[x]`. -/
def str (s : State) (x : Nat) : Stream := entry Stream.empty s.strs x

/-- `STR[x] <- v`. -/
def setStr (s : State) (x : Nat) (v : Stream) : State := { s with strs := setEntry Stream.empty s.strs x v }

/-- The record of caller `c`. -/
def caller (s : State) (c : Nat) : Caller := entry Caller.idle s.callers c

/-- The record of caller `c` replaced. -/
def setCaller (s : State) (c : Nat) (x : Caller) : State :=
  { s with callers := setEntry Caller.idle s.callers c x }

/-- Who answers the input line of bus `b`. -/
def line (s : State) (b : Nat) : Line := entry Line.free s.lines b

/-- The pin `p`. -/
def pin (s : State) (p : Nat) : Pin := (mapGet s.pins p).getD Pin.unused

/-- The pin `p` replaced. -/
def setPin (s : State) (p : Nat) (x : Pin) : State := { s with pins := mapPut s.pins p x }

/-- `LVL[p]` (R33). -/
def lvl (s : State) (p : Nat) : Level := (s.pin p).lvl

/-- `LVL[p] <- v` (R33). -/
def setLvl (s : State) (p : Nat) (v : Level) : State := s.setPin p { s.pin p with lvl := v }

/-- `DEV[h].CS`, which is `LVL[CSPIN[h]]` (R30, R33). -/
def cs (s : State) (h : Nat) : Level := s.lvl (s.cfg.dev h).csPin

/-- The bytes of a caller buffer; a reference that names no buffer is an empty one (R63; log 12). -/
def buf (s : State) (r : BufRef) : List Byte := (mapGet s.bufs r.toNat).getD []

/-- A caller buffer replaced. -/
def setBuf (s : State) (r : BufRef) (bytes : List Byte) : State :=
  { s with bufs := mapPut s.bufs r.toNat bytes }

/-- The registers of the byte transfer in progress (R27, R28). -/
def setPath (s : State) (p : Path) : State := { s with path := p }

/-- The attached chips replaced. -/
def setSlaves (s : State) (xs : List Slave) : State := { s with slaves := xs }

/-- An event appended to `TRACE` (R40). -/
def log (s : State) (e : Event) : State := { s with trace := s.trace ++ [e] }

end State

end Sys2Proof.Machine
end

