-- ==== Sys2Proof/Machine/Chip.lean ====
section
/-! DEFINITION. The reference slave and the reference memory chip of the environment: how they react to the
events of the wire (R77, R78, R80, R81). They are mandated by the spec as the environment its properties
R76, R82, R211 name, and are no part of the block. -/

namespace Sys2Proof.Machine

/-- The opcode byte `READ` (R96, R201). -/
def opRead : Byte := 0x03

/-- The opcode byte `WRITE` (R96, R201). -/
def opWrite : Byte := 0x02

/-- The reserved opcode byte `RDMR` (R96). -/
def opRdmr : Byte := 0x05

/-- The reserved opcode byte `WRMR` (R96). -/
def opWrmr : Byte := 0x01

/-! ### REFMEM -/

namespace RefMem

/-- `trunc_W` (R80). -/
def trunc (m : RefMem) (a : Nat) : Nat := a % 2 ^ m.bits

/-- `MemRead(a, 1)` of the chip on handle `h` (R80): a cell nothing has written holds the free initial
content (log 6). -/
def peek (m : RefMem) (h a : Nat) : Byte := (m.mem.read (m.trunc a)).getD (Config.chipInit h (m.trunc a))

/-- `chip_step` (R80, R81): one byte received in the present phase. An opcode other than READ and WRITE also runs through
the address phases of R80 before its bytes are ignored (R81): DEDUCED, log 31. -/
def step (m : RefMem) (x : Byte) : RefMem :=
  match m.phase with
  | .idle => m
  | .op => { m with phase := .a2, op := x }
  | .a2 => { m with phase := .a1, addr := x.toNat }
  | .a1 => { m with phase := .a0, addr := m.addr * 256 + x.toNat }
  | .a0 => { m with phase := .data, addr := m.trunc (m.addr * 256 + x.toNat) }
  | .data =>
    if m.op = opRead then { m with addr := m.trunc (m.addr + 1) }
    else if m.op = opWrite then
      { m with mem := m.mem.write (m.trunc m.addr) x, addr := m.trunc (m.addr + 1) }
    else m

end RefMem

/-! ### The byte-level behaviour of a chip -/

namespace Chip

/-- On select (R80). -/
def select : Chip → Chip
  | .mem m => .mem { m with phase := .op }
  | .script tx rx => .script tx rx

/-- On deselect (R80): bytes already written stay written. -/
def deselect : Chip → Chip
  | .mem m => .mem { m with phase := .idle }
  | .script tx rx => .script tx rx

/-- `chip_tx`: the byte the chip presents next (R78, R80). Outside READ data it is any byte: a free value
of the chip's handle and of how many bytes it has loaded (log 6). -/
def tx (h draws : Nat) : Chip → Byte
  | .mem m => if m.phase = .data ∧ m.op = opRead then m.peek h m.addr else Config.chipTx h draws
  | .script tx _ => tx.headD (Config.chipTx h draws)

/-- What loading that byte leaves: a scripted chip has used it up. -/
def afterTx : Chip → Chip
  | .mem m => .mem m
  | .script tx rx => .script tx.tail rx

/-- `chip_step` on a received byte (R78). -/
def step (x : Byte) : Chip → Chip
  | .mem m => .mem (m.step x)
  | .script tx rx => .script tx (rx ++ [x])

end Chip

/-! ### REFSLAVE -/

/-- The bit position moved at bit time `k`: `7 - k` under MSB, `k` under LSB (R77, R165). -/
def bitPos (order : Order) (k : Nat) : Nat :=
  match order with
  | .msb => 7 - k
  | .lsb => k

/-- `v[p] <- x`. -/
def setBit (v : Byte) (p : Nat) (x : Level) : Byte :=
  if x then v ||| (1#8 <<< p) else v &&& ~~~(1#8 <<< p)

namespace Slave

/-- The bit position at the slave's bit counter. -/
def pos (x : Slave) : Nat := bitPos x.order x.k

/-- `T <- tx_next()`. -/
def load (x : Slave) : Slave :=
  { x with tx := x.chip.tx x.h x.draws, chip := x.chip.afterTx, draws := x.draws + 1 }

/-- `q <- T[pos(k)]`. -/
def shiftOut (x : Slave) : Slave := { x with q := x.tx.getLsbD x.pos }

/-- `R[pos(k)] <- MOSI[b]`. -/
def sampleIn (x : Slave) : Slave := { x with rx := setBit x.rx x.pos x.din }

/-- On select (R77). -/
def select (x : Slave) : Slave :=
  let y := { x with sel := true, k := 0, chip := x.chip.select }.load
  if x.mode.cpha then y else y.shiftOut

/-- On deselect (R77). -/
def deselect (x : Slave) : Slave := { x with sel := false, chip := x.chip.deselect }

/-- On the leading edge (R77). -/
def leading (x : Slave) : Slave := if x.mode.cpha then x.shiftOut else x.sampleIn

/-- `k <- k + 1; if k = 8: rx_done(R); T <- tx_next(); k <- 0` (R77). -/
def advance (x : Slave) : Slave :=
  if x.k + 1 = 8 then { x with k := 0, chip := x.chip.step x.rx }.load else { x with k := x.k + 1 }

/-- On the trailing edge (R77). -/
def trailing (x : Slave) : Slave := if x.mode.cpha then x.sampleIn.advance else x.advance.shiftOut

/-- How a slave reacts to one event of the wire (R77). -/
def react (cfg : Config) (e : Event) (x : Slave) : Slave :=
  match e with
  | .cs h v =>
    if h = x.h then (if v = (cfg.dev h).csIdle then x.deselect else x.select) else x
  | .mosi b v => if b = cfg.busOf x.h then { x with din := v } else x
  | .sck b v =>
    if b = cfg.busOf x.h ∧ x.sel = true then (if v = x.mode.cpol then x.trailing else x.leading) else x
  | .dir _ _ => x
  | .smp _ _ => x
  | .xch _ _ _ => x

end Slave

/-- Every attached chip hears an event. -/
def hear (cfg : Config) (e : Event) (xs : List Slave) : List Slave := xs.map (Slave.react cfg e)

/-- Every attached chip hears events in order. -/
def hearAll (cfg : Config) (es : List Event) (xs : List Slave) : List Slave :=
  es.foldl (fun ys e => hear cfg e ys) xs

/-- The level the selected chip of bus `b` drives on the input line; `none` where no chip, or more than one,
is selected on it: the line has then no one driver (R77, R291; log 21). -/
def driven (cfg : Config) (b : Nat) (xs : List Slave) : Option Level :=
  match xs.filter (fun x => x.sel && decide (cfg.busOf x.h = b)) with
  | [x] => some x.q
  | _ => none

/-- The level of the most recent `MOSI(b, v)` event (R76). -/
def lastMosi (b : Nat) (tr : List Event) : Option Level :=
  tr.foldl (fun acc e => match e with
    | .mosi b' v => if b' = b then some v else acc
    | _ => acc) none

/-- A reference slave on handle `h`, deselected, in the handle's own mode and order (R77). -/
def Slave.attached (cfg : Config) (h : Nat) (chip : Chip) : Slave where
  h := h
  mode := (cfg.dev h).mode
  order := (cfg.dev h).order
  sel := false
  tx := 0
  rx := 0
  k := 0
  q := false
  din := false
  draws := 0
  chip := chip

/-- `REFMEM(MEM_ADDR_BITS[m])` behind memory device `m`, nothing written yet (R80). -/
def Slave.refMem (cfg : Config) (m : Nat) : Slave :=
  Slave.attached cfg (cfg.handleOf m) (.mem ⟨(cfg.memDev m).addrBits, .idle, 0, 0, []⟩)

end Sys2Proof.Machine
end

