-- ==== Sys2Proof/Machine/Operands.lean ====
section
/-! DEFINITION. Operand forms and the operand arithmetic of the block (R235): frame headers, stream
addresses, divisor selection, clock scale, buffers as sources and destinations. -/

namespace Sys2Proof.Machine

/-- `Header(opc, A) = [opc, A[23:16], A[15:8], A[7:0]]` (R202). -/
def header (opc : Byte) (a : Word32) : List Byte :=
  [opc, a.extractLsb' 16 8, a.extractLsb' 8 8, a.extractLsb' 0 8]

/-- The four bytes of a wire word, first byte most significant (R94). -/
def wireBytes (opc : Byte) (a : BitVec 24) : List Byte := header opc (a.setWidth 32)

/-- `StreamAddr(s, i) = trunc_32(BASE[s] + i)` (R225, R62). -/
def streamAddr (cfg : Config) (x i : Nat) : Word32 := (cfg.stream x).base + BitVec.ofNat 32 i

/-- `(i + 1) mod SIZE[s]` (R226). -/
def nextIndex (cfg : Config) (x i : Nat) : Nat := (i + 1) % (cfg.stream x).size

/-- `SelectDivisor(C, S, F)` (R142, R143): the least divisor `d` with `C <= F * d`, or the largest of the set
where none qualifies. -/
def selectDivisor (c : Nat) (s : List Nat) (f : Nat) : Nat :=
  match (s.filter (fun d => decide (c ≤ f * d))).min? with
  | some d => d
  | none => s.max?.getD 0

/-- `ScaleOf(b, freq)` (R131). -/
def scaleOf (cfg : Config) (b : Nat) (freq : Word32) : Nat :=
  match cfg.backend b with
  | .sw _ _ _ => Config.swScale freq
  | .hw sysclk divset => selectDivisor sysclk divset freq.toNat

namespace State

/-- A present buffer is shorter than the count (R245 P7; F4). -/
def short (s : State) (r : Option BufRef) (n : Word32) : Bool :=
  match r with
  | none => false
  | some r => decide ((s.buf r).length < n.toNat)

/-- The bytes a block transfer sends (R125): the first `n` of the source buffer, `FILL` where it is absent,
none for a no-op (`n = 0` or both buffers absent). `BufRead(src, i)` precedes `BufWrite(dest, i, _)` for every
`i`, so reading them at the start is the same, with `dest = src` too (R63; log 13). -/
def blockOut (s : State) (dest src : Option BufRef) (n : Word32) : List Byte :=
  match src, dest with
  | some r, _ => (s.buf r).take n.toNat
  | none, some _ => List.replicate n.toNat s.cfg.fill
  | none, none => []

/-- `BufWrite(dest, i, r_i)` for `i = 0 ..` in order (R125); nothing where `dest` is absent or there is no byte. -/
def store (s : State) (dest : Option BufRef) (bytes : List Byte) : State :=
  match dest with
  | none => s
  | some d => if bytes.isEmpty then s else s.setBuf d (bytes ++ (s.buf d).drop bytes.length)

end State

/-- What an operation returned, as the number the record encoding gives it (R103). -/
def Result.code (cfg : Config) : Result → Option Int
  | .none => Option.none
  | .byte v => some v.toNat
  | .accepted => some 1
  | .rejected => some 0
  | .count n => some n
  | .empty => some cfg.empty

end Sys2Proof.Machine
end

