-- ==== Sys2Proof/Machine/Flags.lean ====
section
/-! DEFINITION. The status of buses, handles and streams that operations test: the one flag `HELD` (R21,
R45), the holder, selection (R30), and the usage preconditions of R245 as fault verdicts in the order of R246. -/

namespace Sys2Proof.Machine.State

/-- Caller `c` holds bus `b`: `BUS[b].OWNER = c` (R26). -/
def holds (s : State) (c b : Nat) : Bool := decide ((s.bus b).owner = some c)

/-- Handle `h` is selected: `DEV[h].CS != CS_IDLE[h]` (R30). -/
def selected (s : State) (h : Nat) : Bool := s.cs h != (s.cfg.dev h).csIdle

/-- Some handle of bus `b` is selected (R245 P2). -/
def anySelected (s : State) (b : Nat) : Bool :=
  (List.range s.cfg.devs.length).any (fun h => decide (s.cfg.busOf h = b) && s.selected h)

/-- `P1` and `P7`: what `BXFER` and `BXBLK` require on bus `b` (R245, R246). -/
def xferFault (s : State) (b : Nat) : Option FaultCode :=
  if s.holds s.cur b then none else some .xferNotHolder

/-- `P2`: what a `BREL` issued directly requires (R245, R246). -/
def relFault (s : State) (b : Nat) : Option FaultCode :=
  if !s.holds s.cur b then some .relNotHolder
  else if s.anySelected b then some .selectMismatch
  else none

/-- `P4`: what `DXFER` and `DXBLK` require (R245, R246). -/
def devFault (s : State) (h : Nat) : Option FaultCode :=
  if !s.holds s.cur (s.cfg.busOf h) then some .xferNotHolder
  else if !s.selected h then some .selectMismatch
  else none

/-- `P5`: what `DREL` requires (R245, R246). -/
def drelFault (s : State) (h : Nat) : Option FaultCode :=
  if !s.holds s.cur (s.cfg.busOf h) then some .relNotHolder
  else if !s.selected h then some .selectMismatch
  else none

/-- A fault verdict followed, where there is none, by `F4` for the buffers of a block operation (R246: the
ownership reason first, then `F3`, then `F4`). -/
def orShort (s : State) (f : Option FaultCode) (dest src : Option BufRef) (n : Word32) : Option FaultCode :=
  match f with
  | some c => some c
  | none => if s.short dest n || s.short src n then some .bufferShort else none

/-- A stream is full: `COUNT = SIZE` (R221, R243). -/
def full (s : State) (x : Nat) : Bool := decide ((s.str x).count = (s.cfg.stream x).size)

/-- A stream is empty: `COUNT = 0` (R223, R242). -/
def emptyStr (s : State) (x : Nat) : Bool := decide ((s.str x).count = 0)

end Sys2Proof.Machine.State
end

