-- ==== Sys2Proof/Machine/Ops.lean ====
section
/-! DEFINITION. The operations every meaning is built from: the pin primitives (R12, R33), the byte
exchange of both backends (R146, R161 to R166), opening and closing a session (R121, R123, R126) and a
transaction (R181, R182), recording a model fault (R246), and how an operation ends, waits and goes on (R256). -/

namespace Sys2Proof.Machine

namespace State

/-! ### Pin primitives and events -/

/-- An event of the wire: appended to `TRACE` (R40) and heard by every attached chip (R77). -/
def emit (s : State) (e : Event) : State := (s.setSlaves (hear s.cfg e s.slaves)).log e

/-- `PinOutput(p)` (R12, R33). -/
def pinOutput (s : State) (p : Nat) : State := (s.setPin p { s.pin p with dir := .out }).emit (.dir p .out)

/-- `PinInput(p)` (R12, R33). -/
def pinInput (s : State) (p : Nat) : State := (s.setPin p { s.pin p with dir := .inp }).emit (.dir p .inp)

/-- `PinWrite` on the clock pin `p` of bus `b`: event `SCK(b, v)` (R41, R126). -/
def driveSck (s : State) (b p : Nat) (v : Level) : State := (s.setLvl p v).emit (.sck b v)

/-- `PinWrite` on the output-data pin `p` of bus `b`: event `MOSI(b, v)` (R41). -/
def driveMosi (s : State) (b p : Nat) (v : Level) : State := (s.setLvl p v).emit (.mosi b v)

/-- `PinToggle` on the clock pin `p` of bus `b` (R33, R169). -/
def toggleSck (s : State) (b p : Nat) : State := s.driveSck b p (!s.lvl p)

/-- `PinWrite` on a chip-select pin: event `CS(h, v)`; only the reset sequence does this (R271). -/
def driveCs (s : State) (h : Nat) (v : Level) : State := (s.setLvl (s.cfg.dev h).csPin v).emit (.cs h v)

/-- `PinToggle(CSPIN[h])` (R181, R182, R185). -/
def toggleCs (s : State) (h : Nat) : State := s.driveCs h (!s.cs h)

/-- `ENV.miso(TRACE)` on bus `b` (R75, R76, R77). -/
def miso (s : State) (b : Nat) : Level :=
  match s.line b with
  | .free => Config.envMiso b s.trace
  | .loop => (lastMosi b s.trace).getD (Config.envMiso b s.trace)
  | .slaves => (driven s.cfg b s.slaves).getD (Config.envMiso b s.trace)

/-! ### The software backend -/

/-- `BitStep0` (R162): data, leading edge, sample, trailing edge. -/
def bitStep0 (s : State) (b sck mosi : Nat) (bit : Level) : Level × State :=
  let s1 := (s.driveMosi b mosi bit).toggleSck b sck
  let x := s1.miso b
  (x, (s1.emit (.smp b x)).toggleSck b sck)

/-- `BitStep1` (R163): leading edge, data, trailing edge, sample. -/
def bitStep1 (s : State) (b sck mosi : Nat) (bit : Level) : Level × State :=
  let s1 := ((s.toggleSck b sck).driveMosi b mosi bit).toggleSck b sck
  let x := s1.miso b
  (x, s1.emit (.smp b x))

end State

/-- The bit to send next: `OUT[7]` under MSB, `OUT[0]` under LSB (R166). -/
def outBit (order : Order) (out : Byte) : Level :=
  match order with
  | .msb => out.getLsbD 7
  | .lsb => out.getLsbD 0

/-- `OUT <- trunc_8(OUT * 2)` under MSB, `OUT <- OUT / 2` under LSB (R166). -/
def shiftOutReg (order : Order) (out : Byte) : Byte :=
  match order with
  | .msb => out <<< 1
  | .lsb => out >>> 1

/-- `IN <- trunc_8(IN * 2) + s` under MSB, `IN <- IN / 2 + s * 128` under LSB (R166). -/
def shiftInReg (order : Order) (inn : Byte) (x : Level) : Byte :=
  match order with
  | .msb => (inn <<< 1) ||| (if x then 0x01 else 0x00)
  | .lsb => (inn >>> 1) ||| (if x then 0x80 else 0x00)

namespace State

/-- One bit time of a `sw` bus (R161, R166): one bit step, then both registers shift and `BITCNT` counts. -/
def swBitTime (s : State) (b sck mosi : Nat) : State :=
  match s.path with
  | .sw _ out inn k =>
    let order := (s.bus b).order
    let r := if (s.bus b).mode.cpha then s.bitStep1 b sck mosi (outBit order out)
      else s.bitStep0 b sck mosi (outBit order out)
    r.2.setPath (.sw b (shiftOutReg order out) (shiftInReg order inn r.1) (k + 1))
  | .idle => s
  | .hw _ _ _ => s

/-- `n` bit times in order. -/
def swBitTimes (b sck mosi : Nat) : Nat → State → State
  | 0, s => s
  | n + 1, s => swBitTimes b sck mosi n (s.swBitTime b sck mosi)

/-- `IN` of the transfer in progress. -/
def received (s : State) : Byte :=
  match s.path with
  | .sw _ _ inn _ => inn
  | .hw _ shift _ => shift
  | .idle => 0

/-- `SwExchange(b, value)` (R161): eight bit times. -/
def swExchange (s : State) (b sck mosi : Nat) (v : Byte) : Byte × State :=
  let s1 := swBitTimes b sck mosi 8 (s.setPath (.sw b v 0 0))
  (s1.received, s1.setPath .idle)

end State

/-! ### The hardware backend -/

namespace State

/-- One bit time of a `hw` bus as the environment sees it (R147): the events of R164 with the clock idling at
`CPOL`, and the level the environment answers at the sampling point. -/
def hwBitTime (s : State) (b : Nat) (mode : Mode) (bit : Level) : Level × State :=
  let idle := mode.cpol
  if mode.cpha then
    let s1 := ((s.emit (.sck b (!idle))).emit (.mosi b bit)).emit (.sck b idle)
    let x := s1.miso b
    (x, s1.emit (.smp b x))
  else
    let s1 := (s.emit (.mosi b bit)).emit (.sck b (!idle))
    let x := s1.miso b
    (x, (s1.emit (.smp b x)).emit (.sck b idle))

end State

/-- `n` bit times of a `hw` bus from what is left to send and what has been received: the byte received and the
state as the environment then sees it (R147, R166). -/
def hwBitTimes (b : Nat) (mode : Mode) (order : Order) : Nat → Byte → Byte → State → Byte × State
  | 0, _, inn, s => (inn, s)
  | n + 1, out, inn, s =>
    let r := s.hwBitTime b mode (outBit order out)
    hwBitTimes b mode order n (shiftOutReg order out) (shiftInReg order inn r.1) r.2

namespace State

/-- `ENV.exchange(TRACE, t)` on bus `b` (R79, D18): the byte the environment answers, bit by bit, to the events of a
`sw` bus in the same mode and order, and the state after those events. -/
def hwWire (s : State) (b : Nat) (t : Byte) : Byte × State :=
  hwBitTimes b (s.bus b).mode (s.bus b).order 8 t 0 s

/-- `HwExchange(b, t)` (R146): load the shift register, wait for the complete flag, take the byte, event
`XCH(b, t, r)`, which stands in `TRACE` for the 32 events (R147). -/
def hwExchange (s : State) (b : Nat) (t : Byte) : Byte × State :=
  let s1 := s.setPath (.hw b t false)
  let w := s.hwWire b t
  let s2 := (s1.setSlaves w.2.slaves).setPath (.hw b w.1 true)
  (s2.received, (s2.log (.xch b t s2.received)).setPath .idle)

/-- `Exchange(b, value)` (R124). -/
def exchange (s : State) (b : Nat) (v : Byte) : Byte × State :=
  match s.cfg.backend b with
  | .sw sck mosi _ => s.swExchange b sck mosi v
  | .hw _ _ => s.hwExchange b v

/-- One exchange per byte, in order, with the replies (R125, R68). -/
def exchangeAll (b : Nat) : List Byte → State → List Byte × State
  | [], s => ([], s)
  | t :: ts, s =>
    let r := s.exchange b t
    let rest := exchangeAll b ts r.2
    (r.1 :: rest.1, rest.2)

/-- `BXBLK` after its checks (R125): the bytes out, the replies into the destination. -/
def transferBlock (s : State) (b : Nat) (dest src : Option BufRef) (n : Word32) : State :=
  let r := exchangeAll b (s.blockOut dest src n) s
  r.2.store dest r.1

/-! ### Faults, waiting, ending -/

/-- `raise Fault(reason)` by the current caller in operation `op` (R246, R43): `FAULT` is a set. -/
def raise (s : State) (code : FaultCode) (op : Instr) : State :=
  let f : FaultRecord := ⟨code, s.cur, op⟩
  if f ∈ s.faults then s else { s with faults := s.faults ++ [f] }

/-- The status of the current caller (R42). -/
def setStatus (s : State) (st : Status) : State :=
  s.setCaller s.cur { s.caller s.cur with status := st }

/-- `return r`: the operation ends, its caller is idle again (R13, R42). -/
def finish (s : State) (r : Result) : State :=
  s.setCaller s.cur { s.caller s.cur with status := .idle, result := r }

/-- The operation ends with a model fault and no other effect, without a result (R246). -/
def failWith (s : State) (code : FaultCode) (op : Instr) : State := (s.raise code op).finish .none

/-- The current caller waits for bus `b` inside `op` (R122): its first failed check. -/
def wait (s : State) (b : Nat) (op : Instr) (addr : Word32) : State :=
  s.setCaller s.cur { s.caller s.cur with status := .waiting b op addr, result := .none }

/-- The wait of `BACQ` on bus `b` inside `op` (R122, R256): hold while the bus is held, else the grant piece. -/
def acquire (s : State) (b : Nat) (op : Instr) (addr : Word32) (grant : State → State) : State :=
  if (s.bus b).held then s.wait b op addr else grant s

/-! ### Sessions and transactions -/

/-- `BackendConfig(b)` (R126, R145). -/
def backendConfig (s : State) (b : Nat) : State :=
  match s.cfg.backend b with
  | .sw sck _ _ => s.driveSck b sck (s.bus b).mode.cpol
  | .hw _ _ => s

/-- The grant of `BACQ` (R121): all its writes, then `BackendConfig`. -/
def openBus (s : State) (b : Nat) (mode : Mode) (order : Order) (freq : Word32) : State :=
  ((s.setBus b ⟨true, some s.cur, mode, order, scaleOf s.cfg b freq⟩).backendConfig b).setStatus .running

/-- The effect of `BREL` (R123): `HELD` and `OWNER` cleared, the session registers kept (R25). -/
def closeBus (s : State) (b : Nat) : State := s.setBus b { s.bus b with held := false, owner := none }

/-- The grant of `DACQ` (R181): the bus with the handle's constants, then the select. -/
def openDev (s : State) (h : Nat) : State :=
  let d := s.cfg.dev h
  (s.openBus d.bus d.mode d.order d.freq).toggleCs h

/-- The effect of `DREL` (R182): the select, then the bus. -/
def closeDev (s : State) (h : Nat) : State := (s.toggleCs h).closeBus (s.cfg.busOf h)

/-- The grant piece of an operation that begins with `DACQ h`: `F3` if the select is not idle (R181, R246),
else the transaction is opened and the operation goes on. -/
def grantDev (s : State) (h : Nat) (op : Instr) (body : State → State) : State :=
  if s.selected h then s.failWith .selectMismatch op else body (s.openDev h)

/-- One frame inside an open transaction of handle `h`, then `DREL` (R203, R204): the header, whose replies
are discarded, and the payload with its replies. -/
def frame (s : State) (h : Nat) (hdr payload : List Byte) : List Byte × State :=
  let b := s.cfg.busOf h
  let s1 := (exchangeAll b hdr s).2
  let r := exchangeAll b payload s1
  (r.1, r.2.closeDev h)

end State

end Sys2Proof.Machine
end

