-- ==== Sys2Proof/Machine/BusFamily.lean ====
section
/-! DEFINITION. The BusController operations BACQ, BREL, BXFER, BXBLK (40_bus_controller.md). -/

namespace Sys2Proof.Machine

open State

/-- A unit index out of range has no meaning (R104; X2). -/
def inRange (u n : Nat) (s : State) : Host.Outcome State Fault Refusal :=
  if u < n then .next s else .refused .unitOutOfRange

/-- The grant piece of `BACQ` (R121). -/
def grantBacq (b : Nat) (mode : Mode) (order : Order) (freq : Word32) (s : State) : State :=
  (s.openBus b mode order freq).finish .none

/-- `BACQ b, mode, order, freq` (R121, R122). -/
def execBacq (b : Nat) (mode : Mode) (order : Order) (freq : Word32) (s : State) :
    Host.Outcome State Fault Refusal :=
  inRange b s.cfg.buses.length
    (s.acquire b (.bacq b mode order freq) 0 (grantBacq b mode order freq))

/-- `BREL b` (R123, R245 P2). -/
def execBrel (b : Nat) (s : State) : Host.Outcome State Fault Refusal :=
  inRange b s.cfg.buses.length <|
    match s.relFault b with
    | some c => s.failWith c (.brel b)
    | none => (s.closeBus b).finish .none

/-- `BXFER b, value -> received` (R124). -/
def execBxfer (b : Nat) (value : Byte) (s : State) : Host.Outcome State Fault Refusal :=
  inRange b s.cfg.buses.length <|
    match s.xferFault b with
    | some c => s.failWith c (.bxfer b value)
    | none => (s.exchange b value).2.finish (.byte (s.exchange b value).1)

/-- `BXBLK b, dest, src, count` (R125). -/
def execBxblk (b : Nat) (dest src : Option BufRef) (count : Word32) (s : State) :
    Host.Outcome State Fault Refusal :=
  inRange b s.cfg.buses.length <|
    match s.orShort (s.xferFault b) dest src count with
    | some c => s.failWith c (.bxblk b dest src count)
    | none => (s.transferBlock b dest src count).finish .none

end Sys2Proof.Machine
end

