-- ==== Sys2Proof/Machine/DevFamily.lean ====
section
/-! DEFINITION. The DeviceHandle operations DACQ, DREL, DXFER, DXBLK (43_device_handle.md). -/

namespace Sys2Proof.Machine

open State

/-- The grant piece of `DACQ` (R181). -/
def grantDacq (h : Nat) (s : State) : State :=
  s.grantDev h (.dacq h) (fun t => t.finish .none)

/-- `DACQ h` (R181). -/
def execDacq (h : Nat) (s : State) : Host.Outcome State Fault Refusal :=
  inRange h s.cfg.devs.length
    (s.acquire (s.cfg.busOf h) (.dacq h) 0 (grantDacq h))

/-- `DREL h` (R182). -/
def execDrel (h : Nat) (s : State) : Host.Outcome State Fault Refusal :=
  inRange h s.cfg.devs.length <|
    match s.drelFault h with
    | some c => s.failWith c (.drel h)
    | none => (s.closeDev h).finish .none

/-- `DXFER h, value -> received` (R183). -/
def execDxfer (h : Nat) (value : Byte) (s : State) : Host.Outcome State Fault Refusal :=
  inRange h s.cfg.devs.length <|
    match s.devFault h with
    | some c => s.failWith c (.dxfer h value)
    | none =>
      (s.exchange (s.cfg.busOf h) value).2.finish (.byte (s.exchange (s.cfg.busOf h) value).1)

/-- `DXBLK h, dest, src, count` (R184). -/
def execDxblk (h : Nat) (dest src : Option BufRef) (count : Word32) (s : State) :
    Host.Outcome State Fault Refusal :=
  inRange h s.cfg.devs.length <|
    match s.orShort (s.devFault h) dest src count with
    | some c => s.failWith c (.dxblk h dest src count)
    | none => (s.transferBlock (s.cfg.busOf h) dest src count).finish .none

end Sys2Proof.Machine
end

