-- ==== Sys2Proof/Machine/MemFamily.lean ====
section
/-! DEFINITION. The AddressedMemoryDevice operations MREAD, MWRITE and their frame (44_addressed_memory.md). -/

namespace Sys2Proof.Machine

open State

/-- The short circuit of R205: nothing to transfer and `ZC_HEADER = skip`. -/
def shortCircuit (cfg : Config) (data : Option BufRef) (count : Word32) : Bool :=
  (decide (count = 0) || data.isNone) && decide (cfg.zcHeader = .skip)

/-- The grant piece of `MREAD` (R203, R205): the frame, then the replies into `dest`. With `dest` absent or
`count = 0` the payload is empty and the frame is the header alone. -/
def grantMread (m : Nat) (dest : Option BufRef) (addr count : Word32) (s : State) : State :=
  let h := s.cfg.handleOf m
  s.grantDev h (.mread m dest addr count) fun t =>
    let r := t.frame h (header opRead addr) (t.blockOut dest none count)
    (r.2.store dest r.1).finish .none

/-- `MREAD m, dest, address, count` (R203, R205); `F4` is checked on entry (R246). -/
def execMread (m : Nat) (dest : Option BufRef) (addr count : Word32) (s : State) :
    Host.Outcome State Fault Refusal :=
  let op := Instr.mread m dest addr count
  inRange m s.cfg.mems.length <|
    if s.short dest count then s.failWith .bufferShort op
    else if shortCircuit s.cfg dest count then s.finish .none
    else s.acquire (s.cfg.busOf (s.cfg.handleOf m)) op addr (grantMread m dest addr count)

/-- The grant piece of `MWRITE` (R204, R205). -/
def grantMwrite (m : Nat) (addr : Word32) (src : Option BufRef) (count : Word32) (s : State) : State :=
  let h := s.cfg.handleOf m
  s.grantDev h (.mwrite m addr src count) fun t =>
    (t.frame h (header opWrite addr) (t.blockOut none src count)).2.finish .none

/-- `MWRITE m, address, src, count` (R204, R205); `F4` is checked on entry (R246). -/
def execMwrite (m : Nat) (addr : Word32) (src : Option BufRef) (count : Word32) (s : State) :
    Host.Outcome State Fault Refusal :=
  let op := Instr.mwrite m addr src count
  inRange m s.cfg.mems.length <|
    if s.short src count then s.failWith .bufferShort op
    else if shortCircuit s.cfg src count then s.finish .none
    else s.acquire (s.cfg.busOf (s.cfg.handleOf m)) op addr (grantMwrite m addr src count)

end Sys2Proof.Machine
end

