-- ==== Sys2Proof/Machine/StrFamily.lean ====
section
/-! DEFINITION. The CircularStream operations SPUT, SAVAIL, SPEEK, SGET, SFLUSH (45_circular_stream.md).
The address operand is evaluated before the wait (R256) and kept with it. -/

namespace Sys2Proof.Machine

open State

/-- The handle behind stream `x`. -/
def streamHandle (cfg : Config) (x : Nat) : Nat := cfg.handleOf (cfg.stream x).mem

/-- `COUNT <- COUNT + 1; PUT <- (PUT + 1) mod SIZE` (R221, R226). -/
def afterPut (s : State) (x : Nat) : State :=
  s.setStr x { s.str x with count := (s.str x).count + 1, put := nextIndex s.cfg x (s.str x).put }

/-- `COUNT - 1` (R224). At `COUNT = 0`, which only a second user of the stream can bring about after the check of
this one (R226, R234, R287), the spec states no result: a free value. DESIGN CHOICE (log 30). -/
def countDown (s : State) (x : Nat) : Nat :=
  match (s.str x).count with
  | 0 => Config.countBelowZero x s.trace
  | n + 1 => n

/-- `COUNT <- COUNT - 1; GET <- (GET + 1) mod SIZE` (R224, R226). -/
def afterGet (s : State) (x : Nat) : State :=
  s.setStr x { s.str x with count := countDown s x, get := nextIndex s.cfg x (s.str x).get }

/-- The grant piece of `SPUT` (R221): the write frame of one byte, then the indices. -/
def grantSput (x : Nat) (value : Byte) (addr : Word32) (s : State) : State :=
  let h := streamHandle s.cfg x
  s.grantDev h (.sput x value) fun t =>
    (afterPut (t.frame h (header opWrite addr) [value]).2 x).finish .accepted

/-- `SPUT s, byte` (R221): rejected when full, without touching the wire. -/
def execSput (x : Nat) (value : Byte) (s : State) : Host.Outcome State Fault Refusal :=
  let addr := streamAddr s.cfg x (s.str x).put
  inRange x s.cfg.strs.length <|
    if s.full x then s.finish .rejected
    else s.acquire (s.cfg.busOf (streamHandle s.cfg x)) (.sput x value) addr (grantSput x value addr)

/-- `SAVAIL s` (R222). -/
def execSavail (x : Nat) (s : State) : Host.Outcome State Fault Refusal :=
  inRange x s.cfg.strs.length (s.finish (.count (s.str x).count))

/-- The grant piece of `SPEEK` (R223): the read frame of one byte. -/
def grantSpeek (x : Nat) (addr : Word32) (s : State) : State :=
  let h := streamHandle s.cfg x
  s.grantDev h (.speek x) fun t =>
    let r := t.frame h (header opRead addr) [t.cfg.fill]
    r.2.finish (.byte (r.1.headD 0))

/-- `SPEEK s` (R223): `EMPTY` when the stream is empty, without touching the wire. -/
def execSpeek (x : Nat) (s : State) : Host.Outcome State Fault Refusal :=
  let addr := streamAddr s.cfg x (s.str x).get
  inRange x s.cfg.strs.length <|
    if s.emptyStr x then s.finish .empty
    else s.acquire (s.cfg.busOf (streamHandle s.cfg x)) (.speek x) addr (grantSpeek x addr)

/-- The grant piece of `SGET` (R224): the read of `SPEEK`, then the indices. -/
def grantSget (x : Nat) (addr : Word32) (s : State) : State :=
  let h := streamHandle s.cfg x
  s.grantDev h (.sget x) fun t =>
    let r := t.frame h (header opRead addr) [t.cfg.fill]
    (afterGet r.2 x).finish (.byte (r.1.headD 0))

/-- `SGET s` (R224): `EMPTY` when the stream is empty, without touching the wire. -/
def execSget (x : Nat) (s : State) : Host.Outcome State Fault Refusal :=
  let addr := streamAddr s.cfg x (s.str x).get
  inRange x s.cfg.strs.length <|
    if s.emptyStr x then s.finish .empty
    else s.acquire (s.cfg.busOf (streamHandle s.cfg x)) (.sget x) addr (grantSget x addr)

/-- `SFLUSH s` (R227): the indices only. -/
def execSflush (x : Nat) (s : State) : Host.Outcome State Fault Refusal :=
  inRange x s.cfg.strs.length ((s.setStr x Stream.empty).finish .none)

end Sys2Proof.Machine
end

