-- ==== Sys2Proof/Machine/WireFamily.lean ====
section
/-! DEFINITION. The wire words READ, WRITE, RDMR, WRMR (R94, R96, R97) as a caller sends them by hand: the
four bytes of the header inside its open transaction on handle `h`, the block transmitting them "like any other
byte" (R97) and the chip reacting as 20_memory.md says (R80, R81). DESIGN CHOICE, log 10. -/

namespace Sys2Proof.Machine

open State

/-- The four bytes of a wire word sent on handle `h`: `DXBLK h, absent, bytes, 4` with the bytes given (R184,
R203), replies discarded. -/
def sendHeader (h : Nat) (opc : Byte) (a : BitVec 24) (op : Instr) (s : State) :
    Host.Outcome State Fault Refusal :=
  inRange h s.cfg.devs.length <|
    match s.devFault h with
    | some c => s.failWith c op
    | none => (exchangeAll (s.cfg.busOf h) (wireBytes opc a) s).2.finish .none

/-- `READ` (R96): the header of a read frame. -/
def execRead (h : Nat) (addr : BitVec 24) (s : State) : Host.Outcome State Fault Refusal :=
  sendHeader h opRead addr (.read h addr) s

/-- `WRITE` (R96): the header of a write frame. -/
def execWrite (h : Nat) (addr : BitVec 24) (s : State) : Host.Outcome State Fault Refusal :=
  sendHeader h opWrite addr (.write h addr) s

/-- `RDMR` (R96, R97): transmitted like any other bytes; the reference chip ignores the frame (R81). -/
def execRdmr (h : Nat) (tail : BitVec 24) (s : State) : Host.Outcome State Fault Refusal :=
  sendHeader h opRdmr tail (.rdmr h tail) s

/-- `WRMR` (R96, R97): transmitted like any other bytes; the reference chip ignores the frame (R81). -/
def execWrmr (h : Nat) (tail : BitVec 24) (s : State) : Host.Outcome State Fault Refusal :=
  sendHeader h opWrmr tail (.wrmr h tail) s

end Sys2Proof.Machine
end

