-- ==== Sys2Proof/Machine/Dispatch.lean ====
section
/-! DEFINITION. What each operation does when the current caller issues it: one arm per constructor. -/

namespace Sys2Proof.Machine

def exec (i : Instr) (s : State) : Host.Outcome State Fault Refusal :=
  match i with
  | .bacq b mode order freq => Sys2Proof.Machine.execBacq b mode order freq s
  | .brel b => Sys2Proof.Machine.execBrel b s
  | .bxfer b value => Sys2Proof.Machine.execBxfer b value s
  | .bxblk b dest src count => Sys2Proof.Machine.execBxblk b dest src count s
  | .dacq h => Sys2Proof.Machine.execDacq h s
  | .drel h => Sys2Proof.Machine.execDrel h s
  | .dxfer h value => Sys2Proof.Machine.execDxfer h value s
  | .dxblk h dest src count => Sys2Proof.Machine.execDxblk h dest src count s
  | .mread m dest addr count => Sys2Proof.Machine.execMread m dest addr count s
  | .mwrite m addr src count => Sys2Proof.Machine.execMwrite m addr src count s
  | .sput x value => Sys2Proof.Machine.execSput x value s
  | .savail x => Sys2Proof.Machine.execSavail x s
  | .speek x => Sys2Proof.Machine.execSpeek x s
  | .sget x => Sys2Proof.Machine.execSget x s
  | .sflush x => Sys2Proof.Machine.execSflush x s
  | .read h addr => Sys2Proof.Machine.execRead h addr s
  | .write h addr => Sys2Proof.Machine.execWrite h addr s
  | .rdmr h tail => Sys2Proof.Machine.execRdmr h tail s
  | .wrmr h tail => Sys2Proof.Machine.execWrmr h tail s

end Sys2Proof.Machine
end

