-- ==== Sys2Proof/Machine/Schedule.lean ====
section
/-! DEFINITION. What one step of the machine needs around `exec`: the shape of a state, the fetch of a
caller's next operation, the pieces of a waiting caller (R122, R256), and the refusal of programs before anything runs (R248). -/

namespace Sys2Proof.Machine

open State

/-- The tables of the state have the lengths of its configuration (R20, R42). -/
def State.shapeOk (s : State) : Bool :=
  decide (s.buses.length = s.cfg.buses.length) && decide (s.strs.length = s.cfg.strs.length) &&
  decide (s.callers.length = s.cfg.ncaller) && decide (s.lines.length = s.cfg.buses.length)

/-- The refusal of a record the decoder refuses (R248). -/
def refusalOf : DecodeError → Refusal
  | .reservedOp => .reservedEncoding
  | .reservedBits => .reservedEncoding
  | .unitRange => .unitOutOfRange
  | .malformed => .malformedRecord

/-- The scheduler's choice `c` is taken: it leaves the schedule and `c` is the current caller. -/
def State.turn (s : State) (c : Nat) (rest : List Nat) : State := { s with sched := rest, cur := c }

/-- The current caller issues an operation: its port goes on with the words after it, and it runs (R42). -/
def State.issue (s : State) (port : List PortWord) : State :=
  s.setCaller s.cur { s.caller s.cur with status := .running, port := port, result := .none }

/-- The grant piece of a waiting operation, with the address evaluated before the wait (R256). The
operations that never wait (R256) have none. -/
def grantPiece (op : Instr) (addr : Word32) (s : State) : State :=
  match op with
  | .bacq b mode order freq => grantBacq b mode order freq s
  | .dacq h => grantDacq h s
  | .mread m dest _ count => grantMread m dest addr count s
  | .mwrite m _ src count => grantMwrite m addr src count s
  | .sput x value => grantSput x value addr s
  | .speek x => grantSpeek x addr s
  | .sget x => grantSget x addr s
  | .brel _ | .bxfer _ _ | .bxblk _ _ _ _ | .drel _ | .dxfer _ _ | .dxblk _ _ _ _ => s
  | .savail _ | .sflush _ | .read _ _ | .write _ _ | .rdmr _ _ | .wrmr _ _ => s

/-- A waiting caller's next piece (R122): a hold step, which changes nothing, while the bus is held, and
the grant piece once it is free. -/
def resume (b : Nat) (op : Instr) (addr : Word32) (s : State) : State :=
  if (s.bus b).held then s else grantPiece op addr s

/-- The current caller's next piece when it is not waiting: the next operation of its port, if there is one. No refused
record is left by then (`runAccepted`). -/
def fetchAndRun (s : State) : Host.Outcome State Fault Refusal :=
  match decode s.cfg (s.caller s.cur).port with
  | .empty => .next s
  | .refused e => .refused (refusalOf e)
  | .ok i rest => exec i (s.issue rest)

/-- The current caller takes its next piece (R256). -/
def runPiece (s : State) : Host.Outcome State Fault Refusal :=
  match (s.caller s.cur).status with
  | .waiting b op addr => .next (resume b op addr s)
  | .idle => fetchAndRun s
  | .running => fetchAndRun s

/-- The next piece of the caller the schedule names; with no choice left, or a choice that names no caller,
nobody moves (log 7). -/
def runScheduled (s : State) : Host.Outcome State Fault Refusal :=
  match s.sched with
  | [] => .next s
  | c :: rest =>
    if c < s.cfg.ncaller then runPiece (s.turn c rest) else .next { s with sched := rest }

/-- The reason for which the programs of the callers are refused, if they are (R248): the first refused record of the first
caller that has one. Which one is named is DESIGN CHOICE (log 29). -/
def State.programError (s : State) : Option DecodeError :=
  s.callers.findSome? (fun c => Sys2Proof.programError s.cfg c.port)

/-- A refused program has no run (R248): while any port holds a record the decoder refuses, however far back, nothing
runs. -/
def runAccepted (s : State) : Host.Outcome State Fault Refusal :=
  match s.programError with
  | some e => .refused (refusalOf e)
  | none => runScheduled s

/-- The state right after reset with the callers' programs in their ports (R51, R101). -/
def State.loaded (cfg : Config) (programs : List (List PortWord)) : State :=
  { State.resetWith cfg with
    callers := (List.range cfg.ncaller).map (fun c => { Caller.idle with port := programs.getD c [] }) }

/-- Reset with the programs the callers are going to run: an ill-formed configuration is refused before reset (R111, X3),
then a program with a refused record (R248, X1, X2), before anything runs. -/
def boot (cfg : Config) (programs : List (List PortWord)) : Host.Outcome State Fault Refusal :=
  if !cfg.wf then .refused .illFormedConfig
  else
    match (State.loaded cfg programs).programError with
    | some e => .refused (refusalOf e)
    | none => .next (State.loaded cfg programs)

/-- Words arrive from outside at the end of the callers' ports, `words c` for caller `c`: a caller's program need not end
(R255, R101). DESIGN CHOICE, log 9. -/
def State.arrive (s : State) (words : Nat → List PortWord) : State :=
  { s with callers := s.callers.mapIdx fun c x => { x with port := x.port ++ words c } }

/-- A port that delivers the given words first, for a caller that is not waiting. -/
def State.placeWords (s : State) (c : Nat) (ws : List PortWord) : State :=
  s.setCaller c { s.caller c with status := .idle, port := ws ++ (s.caller c).port }

end Sys2Proof.Machine
end

