-- ==== Sys2Proof/Machine/Step.lean ====
section
/-! DEFINITION. One step of the machine: an ill-formed configuration is refused (R111, X3), a value that is
no state faults, refused programs do not run (R248), otherwise the scheduled caller takes its next piece (R256). -/

namespace Sys2Proof.Machine

/-- One step. -/
def step (s : State) : Host.Outcome State Fault Refusal :=
  if !s.cfg.wf then .refused .illFormedConfig
  else if !s.shapeOk then .fault .illShapedState
  else runAccepted s

/-- `s` with an instruction, numbered as the opcode table numbers it, at the front of the port of caller 0,
and caller 0 next in the schedule (log 9). -/
def State.withFetchWord (s : State) (nbits w : Nat) : State :=
  { s.placeWords 0 (layoutWord nbits w) with sched := 0 :: s.sched }

end Sys2Proof.Machine
end

