-- ==== Sys2Proof/Safety.lean ====
section
/-! DEFINITION. The terms in which claims are stated: the invariants of R32, R33, R52, the roles of R254, stuck
callers (R247), the clean end of a run (R264), runs and weak fairness (R258), the bus an event belongs to (R129), the event pattern of a byte
(R164), and the literal byte-wise loop of R125. -/

namespace Sys2Proof.Machine

/-! ### Roles, stuck callers, clean end -/

/-- The role of a caller with respect to a bus (R254). -/
inductive Role where
  | free
  | waiter
  | holder
deriving DecidableEq, Repr

/-- Caller `c` is inside the wait of `BACQ` on bus `b` (R42). -/
def State.waitsOn (s : State) (c b : Nat) : Bool :=
  match (s.caller c).status with
  | .waiting b' _ _ => decide (b' = b)
  | .idle => false
  | .running => false

/-- The role of caller `c` with respect to bus `b` (R254): a holder that waits for its own bus is stuck and
counts as a waiter here. -/
def State.role (s : State) (c b : Nat) : Role :=
  if s.waitsOn c b then .waiter else if s.holds c b then .holder else .free

/-- `S1` (R247): caller `c` waits for a bus it holds itself. -/
def State.selfBlocked (s : State) (c b : Nat) : Prop :=
  s.waitsOn c b = true ∧ (s.bus b).held = true ∧ (s.bus b).owner = some c

/-- A run has ended cleanly (R264): every caller idle with nothing left to issue, every bus free, every
select idle, no fault. -/
def State.cleanEnd (s : State) : Bool :=
  (List.range s.cfg.ncaller).all (fun c => decide ((s.caller c).status = .idle) && (s.caller c).port.isEmpty) &&
  (List.range s.cfg.buses.length).all (fun b => !(s.bus b).held) &&
  (List.range s.cfg.devs.length).all (fun h => !s.selected h) &&
  s.faults.isEmpty

/-! ### Frames -/

/-- `t` differs from `s` at most in the wire: pins, transfer registers, trace, attached chips. -/
structure WireOnly (s t : State) : Prop where
  cfg : t.cfg = s.cfg
  buses : t.buses = s.buses
  strs : t.strs = s.strs
  faults : t.faults = s.faults
  callers : t.callers = s.callers
  bufs : t.bufs = s.bufs
  lines : t.lines = s.lines
  sched : t.sched = s.sched
  cur : t.cur = s.cur

/-- The bus an event belongs to (R129): a chip-select event belongs to the bus of its handle. -/
def eventBus (cfg : Config) : Event → Option Nat
  | .dir _ _ => none
  | .cs h _ => some (cfg.busOf h)
  | .sck b _ => some b
  | .mosi b _ => some b
  | .smp b _ => some b
  | .xch b _ _ => some b

/-- One byte of the array `M` of the `j`-th attached chip, as far as it has been written (R80); `none` for a
chip without an array. -/
def State.chipByte (s : State) (j a : Nat) : Option Byte :=
  match s.slaves[j]? with
  | some x => match x.chip with
    | .mem m => m.mem.read a
    | .script _ _ => none
  | none => none

/-- No handle of bus `b` is selected, and no attached chip on it believes it is (R52 (2)). -/
def State.quiet (s : State) (b : Nat) : Bool :=
  !s.anySelected b && s.slaves.all (fun x => !(x.sel && decide (s.cfg.busOf x.h = b)))

/-! ### Invariants -/

/-- The bus an operation waits for, if it is one that can wait (R256). -/
def waitBus (cfg : Config) : Instr → Option Nat
  | .bacq b _ _ _ => some b
  | .dacq h => some (cfg.busOf h)
  | .mread m _ _ _ => some (cfg.busOf (cfg.handleOf m))
  | .mwrite m _ _ _ => some (cfg.busOf (cfg.handleOf m))
  | .sput x _ => some (cfg.busOf (streamHandle cfg x))
  | .speek x => some (cfg.busOf (streamHandle cfg x))
  | .sget x => some (cfg.busOf (streamHandle cfg x))
  | .brel _ | .bxfer _ _ | .bxblk _ _ _ _ | .drel _ | .dxfer _ _ | .dxblk _ _ _ _ => none
  | .savail _ | .sflush _ | .read _ _ | .write _ _ | .rdmr _ _ | .wrmr _ _ => none

/-- A waiting caller is inside an operation of the block that waits for the bus it says. -/
def State.waitOk (s : State) (c : Nat) : Bool :=
  match (s.caller c).status with
  | .waiting b op _ => op.wf s.cfg && decide (waitBus s.cfg op = some b)
  | .idle => true
  | .running => true

/-- The value is a state of a machine: well-formed configuration, tables of its lengths, waits that make sense. -/
structure Base (s : State) : Prop where
  cfgWf : s.cfg.wf = true
  shape : s.shapeOk = true
  waits : ∀ c, c < s.cfg.ncaller → s.waitOk c = true

/-- R52 (1) and (2). -/
structure BusInv (s : State) : Prop where
  owner : ∀ b, b < s.cfg.buses.length → ((s.bus b).owner = none ↔ (s.bus b).held = false)
  selHeld : ∀ h, h < s.cfg.devs.length → s.selected h = true → (s.bus (s.cfg.busOf h)).held = true
  oneSel : ∀ h, h < s.cfg.devs.length → ∀ g, g < s.cfg.devs.length →
    s.cfg.busOf h = s.cfg.busOf g → s.selected h = true → s.selected g = true → h = g

/-- The clock line of bus `b` is at the idle level of the last session (R52 (3), R168). -/
def State.clockIdle (s : State) (b : Nat) : Bool :=
  match s.cfg.backend b with
  | .sw sck _ _ => decide (s.lvl sck = (s.bus b).mode.cpol)
  | .hw _ _ => true

/-- The directions of the pins of bus `b` (R33, R34). -/
def State.busDirs (s : State) (b : Nat) : Bool :=
  match s.cfg.backend b with
  | .sw sck mosi miso => decide ((s.pin sck).dir = .out) && decide ((s.pin mosi).dir = .out) &&
      decide ((s.pin miso).dir = .inp)
  | .hw _ _ => true

/-- R52 (3) with the directions of R33. -/
structure PinInv (s : State) : Prop where
  clock : ∀ b, b < s.cfg.buses.length → s.clockIdle b = true
  busDirs : ∀ b, b < s.cfg.buses.length → s.busDirs b = true
  csDirs : ∀ h, h < s.cfg.devs.length → (s.pin (s.cfg.dev h).csPin).dir = .out

/-- The array of a chip is in canonical form. -/
def Slave.memOk (x : Slave) : Bool :=
  match x.chip with
  | .mem m => m.mem.wf
  | .script _ _ => true

/-- The plain data is in canonical form and no byte transfer is in progress (R27, log 6). -/
structure CanonInv (s : State) : Prop where
  pins : (s.pins.map Prod.fst).Pairwise (· < ·)
  bufs : (s.bufs.map Prod.fst).Pairwise (· < ·)
  mems : ∀ x ∈ s.slaves, x.memOk = true
  path : s.path = .idle

/-- The invariant every step keeps. -/
structure Inv (s : State) : Prop where
  base : Base s
  bus : BusInv s
  pin : PinInv s
  canon : CanonInv s

/-- R32 for stream `x`: `COUNT <= SIZE`, indices in `[0, SIZE)` (0 where `SIZE = 0`, R233), and
`(PUT - GET) mod SIZE = COUNT mod SIZE` (C5). -/
structure StrInv (s : State) (x : Nat) : Prop where
  count : (s.str x).count ≤ (s.cfg.stream x).size
  put : (s.str x).put < (s.cfg.stream x).size ∨ ((s.cfg.stream x).size = 0 ∧ (s.str x).put = 0)
  get : (s.str x).get < (s.cfg.stream x).size ∨ ((s.cfg.stream x).size = 0 ∧ (s.str x).get = 0)
  diff : ((s.str x).put - (s.str x).get : Int) % ((s.cfg.stream x).size : Int) =
    ((s.str x).count : Int) % ((s.cfg.stream x).size : Int)

/-! ### The bytes of a block, literally -/

/-- `BufRead(src, i)` (R11, R63). -/
def State.bufRead (s : State) (src : BufRef) (i : Nat) : Byte := (s.buf src).getD i 0

/-- `BufWrite(dest, i, v)` (R11, R63). -/
def State.bufWrite (s : State) (dest : BufRef) (i : Nat) (v : Byte) : State :=
  s.setBuf dest ((s.buf dest).set i v)

/-- The byte sent at index `i` of a block transfer: `BufRead(src, i)`, or `FILL` where `src` is absent (R125). -/
def State.sourceByte (s : State) (src : Option BufRef) (i : Nat) : Byte :=
  match src with
  | some r => s.bufRead r i
  | none => s.cfg.fill

/-- The body of R125's loop at index `i`. -/
def blockBody (b : Nat) (dest src : Option BufRef) (i : Nat) (s : State) : State :=
  let r := s.exchange b (s.sourceByte src i)
  match dest with
  | some d => r.2.bufWrite d i r.1
  | none => r.2

/-- R125's loop `for i in 0 .. n-1`, from index `i` on with `n` rounds left. -/
def blockLoop (b : Nat) (dest src : Option BufRef) : Nat → Nat → State → State
  | 0, _, s => s
  | n + 1, i, s => blockLoop b dest src n (i + 1) (blockBody b dest src i s)

/-! ### The event pattern of a byte -/

/-- The events of one bit time up to the sampling point (R162, R163), with the clock idling at `CPOL`. -/
def samplePrefix (b : Nat) (mode : Mode) (bit : Level) : List Event :=
  if mode.cpha then [.sck b (!mode.cpol), .mosi b bit, .sck b mode.cpol]
  else [.mosi b bit, .sck b (!mode.cpol)]

/-- The four events of one bit time (R164), with the bit sent and the sample taken. -/
def bitEvents (b : Nat) (mode : Mode) (bit x : Level) : List Event :=
  if mode.cpha then [.sck b (!mode.cpol), .mosi b bit, .sck b mode.cpol, .smp b x]
  else [.mosi b bit, .sck b (!mode.cpol), .smp b x, .sck b mode.cpol]

/-- The bit sent at bit time `k`: `value[7-k]` under MSB, `value[k]` under LSB (R165). -/
def sentBit (order : Order) (v : Byte) (k : Nat) : Level := v.getLsbD (bitPos order k)

/-- The events of the first `n` bit times of a byte (R164), given the samples in time order. -/
def bitsEvents (b : Nat) (mode : Mode) (order : Order) (v : Byte) (samples : Nat → Level) (n : Nat) :
    List Event :=
  (List.range n).flatMap (fun k => bitEvents b mode (sentBit order v k) (samples k))

/-- The 32 events of one byte (R164), given the eight samples in time order. -/
def byteEvents (b : Nat) (mode : Mode) (order : Order) (v : Byte) (samples : Nat → Level) : List Event :=
  bitsEvents b mode order v samples 8

/-- The byte the eight samples make (R166): sample `k` at position `7-k` under MSB, `k` under LSB. -/
def assembled (order : Order) (samples : Nat → Level) : Nat :=
  ((List.range 8).map (fun k => (if samples k then 1 else 0) * 2 ^ bitPos order k)).sum

/-- The state as the environment sees it after some more events: they stand in the trace and the chips
have heard them. -/
def State.after (s : State) (es : List Event) : State :=
  { s with trace := s.trace ++ es, slaves := hearAll s.cfg es s.slaves }

/-- The answer of the environment at the sampling point of bit time `k` of a byte, the samples before it
being as given (R75: `ENV.miso` of every event so far). -/
def State.sampleAt (s : State) (b : Nat) (mode : Mode) (order : Order) (v : Byte) (samples : Nat → Level)
    (k : Nat) : Level :=
  (s.after (bitsEvents b mode order v samples k ++ samplePrefix b mode (sentBit order v k))).miso b

/-! ### A slave at the boundary of two bytes -/

/-- A slave that is selected and has no bit of a byte behind it; in phase 0 it presents the first bit of its
byte (R77). -/
def Slave.atByte (x : Slave) : Bool :=
  x.sel && decide (x.k = 0) && (x.mode.cpha || decide (x.q = x.tx.getLsbD (bitPos x.order 0)))

/-- What one byte received as `v` makes of a slave at byte level (R78): `rx_done(v)`, then `T <- tx_next()`. -/
def Slave.byteStep (x : Slave) (v : Byte) : Slave :=
  { x with rx := v, chip := x.chip.step v, k := 0 }.load

/-- The slave after a whole byte `v` in its own mode and order: what R78 says, with the level it then drives on
the input line and the last bit it heard. -/
def Slave.afterByte (x : Slave) (v : Byte) : Slave :=
  let y := x.byteStep v
  { y with
    q := if x.mode.cpha then x.tx.getLsbD (bitPos x.order 7) else y.tx.getLsbD (bitPos x.order 0)
    din := sentBit x.order v 7 }

/-- A chip that does not count as selected on bus `b`. -/
def Slave.silent (cfg : Config) (b : Nat) (x : Slave) : Bool := !(x.sel && decide (cfg.busOf x.h = b))

/-- Bus `b` is answered by the chips, of which `x`, in the session's mode and order and at the boundary of two
bytes, is the only one selected on it; on a `sw` bus the clock is idle. -/
structure Selected (s : State) (b : Nat) (pre : List Slave) (x : Slave) (post : List Slave) : Prop where
  line : s.line b = .slaves
  slaves : s.slaves = pre ++ x :: post
  pre : ∀ y ∈ pre, y.silent s.cfg b = true
  post : ∀ y ∈ post, y.silent s.cfg b = true
  bus : s.cfg.busOf x.h = b
  atByte : x.atByte = true
  mode : x.mode = (s.bus b).mode
  order : x.order = (s.bus b).order
  clock : ∀ sck mosi miso, s.cfg.backend b = .sw sck mosi miso →
    sck ≠ mosi ∧ s.lvl sck = (s.bus b).mode.cpol

/-- A reference memory chip `r`, alone attached to handle `h` in the handle's mode and order, with no chip of the
bus selected (R77, R80). -/
structure ChipAt (s : State) (h : Nat) (pre : List Slave) (x : Slave) (post : List Slave) (r : RefMem) : Prop where
  line : s.line (s.cfg.busOf h) = .slaves
  slaves : s.slaves = pre ++ x :: post
  pre : ∀ y ∈ pre, y.h ≠ h ∧ y.silent s.cfg (s.cfg.busOf h) = true
  post : ∀ y ∈ post, y.h ≠ h ∧ y.silent s.cfg (s.cfg.busOf h) = true
  handle : x.h = h
  mode : x.mode = (s.cfg.dev h).mode
  order : x.order = (s.cfg.dev h).order
  sel : x.sel = false
  chip : x.chip = .mem r

/-- Such a chip is attached somewhere in the list of chips. -/
def HasChip (s : State) (h : Nat) (r : RefMem) : Prop := ∃ pre x post, ChipAt s h pre x post r

/-! ### What an operation does and what it leaves alone -/

/-- The current caller's operation has returned `r`; other callers, configuration, faults, the environment's wiring
and the schedule are as before. -/
structure Answered (s t : State) (r : Result) : Prop where
  caller : t.caller s.cur = ⟨.idle, (s.caller s.cur).port, r⟩
  others : ∀ c, c ≠ s.cur → t.caller c = s.caller c
  cfg : t.cfg = s.cfg
  faults : t.faults = s.faults
  lines : t.lines = s.lines
  sched : t.sched = s.sched
  cur : t.cur = s.cur

/-- Nothing has happened on any wire: pins, transfer registers, trace and chips are as before. -/
structure SameWire (s t : State) : Prop where
  pins : t.pins = s.pins
  path : t.path = s.path
  trace : t.trace = s.trace
  slaves : t.slaves = s.slaves

/-- The events of one byte exchange, `v` sent and `r` received (R146, R164, R166). -/
def exchangeEvents (be : Backend) (b : Nat) (mode : Mode) (order : Order) (v r : Byte) (es : List Event) : Prop :=
  match be with
  | .sw _ _ _ => ∃ f, es = byteEvents b mode order v f ∧ r.toNat = assembled order f
  | .hw _ _ => es = [.xch b v r]

/-- The events of several byte exchanges in order (R68). -/
def Exchanges (be : Backend) (b : Nat) (mode : Mode) (order : Order) : List Byte → List Byte → List Event → Prop
  | [], [], es => es = []
  | v :: vs, r :: rs, es => ∃ e1 e2, es = e1 ++ e2 ∧ exchangeEvents be b mode order v r e1 ∧
      Exchanges be b mode order vs rs e2
  | [], _ :: _, _ => False
  | _ :: _, [], _ => False

/-- What the attached chips hear of several bytes, on either backend (R147); no chip hears a sample. -/
def bytesHeard (b : Nat) (mode : Mode) (order : Order) (vs : List Byte) : List Event :=
  vs.flatMap (fun v => byteEvents b mode order v (fun _ => false))

/-- `vs` has gone out on bus `b` in the session's mode and order and `rs` has come back (R124, R125): the events, what
the chips heard; the output data line is the only pin that has changed. -/
structure SentBytes (s t : State) (b : Nat) (vs rs : List Byte) : Prop where
  trace : ∃ es, t.trace = s.trace ++ es ∧
    Exchanges (s.cfg.backend b) b (s.bus b).mode (s.bus b).order vs rs es
  slaves : t.slaves = hearAll s.cfg (bytesHeard b (s.bus b).mode (s.bus b).order vs) s.slaves
  pins : ∀ p, (∀ sck mosi miso, s.cfg.backend b = .sw sck mosi miso → p ≠ mosi) → t.pin p = s.pin p
  path : t.path = .idle

/-- The events with which a transaction on handle `h` begins (R187): the clock to its idle level on a `sw` bus,
then the select. -/
def openEvents (cfg : Config) (h : Nat) : List Event :=
  (match cfg.backend (cfg.busOf h) with
    | .sw _ _ _ => [.sck (cfg.busOf h) (cfg.dev h).mode.cpol]
    | .hw _ _ => []) ++ [.cs h (!(cfg.dev h).csIdle)]

/-- A whole transaction of handle `h` that sent `vs` and received `rs` (R187, R208): its events, what the chips
heard, the pins at its end (only the bus's clock and output data line have changed), the bus free again with the
handle's settings left in its session registers. -/
structure Framed (s t : State) (h : Nat) (vs rs : List Byte) : Prop where
  trace : ∃ es, t.trace = s.trace ++ openEvents s.cfg h ++ es ++ [.cs h (s.cfg.dev h).csIdle] ∧
    Exchanges (s.cfg.backend (s.cfg.busOf h)) (s.cfg.busOf h) (s.cfg.dev h).mode (s.cfg.dev h).order vs rs es
  slaves : t.slaves = hearAll s.cfg (openEvents s.cfg h ++
    bytesHeard (s.cfg.busOf h) (s.cfg.dev h).mode (s.cfg.dev h).order vs ++ [.cs h (s.cfg.dev h).csIdle]) s.slaves
  pins : ∀ p, (∀ sck mosi miso, s.cfg.backend (s.cfg.busOf h) = .sw sck mosi miso → p ≠ sck ∧ p ≠ mosi) →
    t.pin p = s.pin p
  clock : ∀ sck mosi miso, s.cfg.backend (s.cfg.busOf h) = .sw sck mosi miso →
    t.lvl sck = (s.cfg.dev h).mode.cpol
  bus : t.bus (s.cfg.busOf h) = ⟨false, none, (s.cfg.dev h).mode, (s.cfg.dev h).order,
    scaleOf s.cfg (s.cfg.busOf h) (s.cfg.dev h).freq⟩
  otherBuses : ∀ b, b ≠ s.cfg.busOf h → t.bus b = s.bus b

/-! ### Refused programs -/

/-- The decoder, reading a caller's program record by record, meets one that it refuses, for this reason (R248). -/
inductive RefusedIn (cfg : Config) : List PortWord → DecodeError → Prop where
  | here {ws e} : decode cfg ws = .refused e → RefusedIn cfg ws e
  | later {ws i rest e} : decode cfg ws = .ok i rest → RefusedIn cfg rest e → RefusedIn cfg ws e

/-- The unit index of an operation is below the count of its kind (R102). -/
def unitBelow (cfg : Config) : Instr → Bool
  | .bacq b _ _ _ | .brel b | .bxfer b _ | .bxblk b _ _ _ => decide (b < cfg.buses.length)
  | .dacq h | .drel h | .dxfer h _ | .dxblk h _ _ _ => decide (h < cfg.devs.length)
  | .mread m _ _ _ | .mwrite m _ _ _ => decide (m < cfg.mems.length)
  | .sput x _ | .savail x | .speek x | .sget x | .sflush x => decide (x < cfg.strs.length)
  | .read h _ | .write h _ | .rdmr h _ | .wrmr h _ => decide (h < cfg.devs.length)

/-! ### Runs and fairness -/

/-- The next piece of caller `c` does something (R258): it waits for a bus that is free, or it is not waiting and has an
operation to issue. A caller that waits for a held bus has only hold steps (R122). -/
def State.enabled (s : State) (c : Nat) : Bool :=
  match (s.caller c).status with
  | .waiting b _ _ => !(s.bus b).held
  | .idle => !(s.caller c).port.isEmpty
  | .running => !(s.caller c).port.isEmpty

/-- A run without end (R256): at its `n`-th step the scheduler chooses the caller `choice n`, and after it the words
`words n c` arrive at the port of caller `c`, so that a caller can issue operations for ever (R255). No program of a run
is refused, the words that arrive included: the step would not answer a next state. -/
def Run (states : Nat → State) (choice : Nat → Nat) (words : Nat → Nat → List PortWord) : Prop :=
  ∀ n, ∃ t, step { states n with sched := [choice n] } = .next t ∧ states (n + 1) = t.arrive (words n)

/-- Weak fairness of the scheduler (R258), and nothing stronger: a piece that stays enabled is taken at last. -/
def WeaklyFair (states : Nat → State) (choice : Nat → Nat) : Prop :=
  ∀ n c, c < (states n).cfg.ncaller → (∀ m, n ≤ m → (states m).enabled c = true) → ∃ m, n ≤ m ∧ choice m = c

/-! ### Preconditions of R245 and the way to the wait -/

/-- Operation `i`, issued by the current caller, breaks a usage precondition of R245 which is recorded under this
code (R246). That the four wire words are held to what `DXBLK` requires is log 10. -/
inductive Misuse (s : State) : Instr → FaultCode → Prop where
  | bxfer (b v) : (s.bus b).owner ≠ some s.cur → Misuse s (.bxfer b v) .xferNotHolder
  | bxblk (b d r n) : (s.bus b).owner ≠ some s.cur → Misuse s (.bxblk b d r n) .xferNotHolder
  | dxfer (h v) : (s.bus (s.cfg.busOf h)).owner ≠ some s.cur → Misuse s (.dxfer h v) .xferNotHolder
  | dxblk (h d r n) : (s.bus (s.cfg.busOf h)).owner ≠ some s.cur → Misuse s (.dxblk h d r n) .xferNotHolder
  | brel (b) : (s.bus b).owner ≠ some s.cur → Misuse s (.brel b) .relNotHolder
  | drel (h) : (s.bus (s.cfg.busOf h)).owner ≠ some s.cur → Misuse s (.drel h) .relNotHolder
  | brelSelected (b h) : (s.bus b).owner = some s.cur → h < s.cfg.devs.length → s.cfg.busOf h = b →
      s.cs h ≠ (s.cfg.dev h).csIdle → Misuse s (.brel b) .selectMismatch
  | dxferUnselected (h v) : (s.bus (s.cfg.busOf h)).owner = some s.cur → s.cs h = (s.cfg.dev h).csIdle →
      Misuse s (.dxfer h v) .selectMismatch
  | dxblkUnselected (h d r n) : (s.bus (s.cfg.busOf h)).owner = some s.cur → s.cs h = (s.cfg.dev h).csIdle →
      Misuse s (.dxblk h d r n) .selectMismatch
  | drelUnselected (h) : (s.bus (s.cfg.busOf h)).owner = some s.cur → s.cs h = (s.cfg.dev h).csIdle →
      Misuse s (.drel h) .selectMismatch
  | dacqSelected (h) : (s.bus (s.cfg.busOf h)).held = false → s.cs h ≠ (s.cfg.dev h).csIdle →
      Misuse s (.dacq h) .selectMismatch
  | bxblkShort (b d r n) : (s.bus b).owner = some s.cur → s.short d n = true ∨ s.short r n = true →
      Misuse s (.bxblk b d r n) .bufferShort
  | dxblkShort (h d r n) : (s.bus (s.cfg.busOf h)).owner = some s.cur → s.cs h ≠ (s.cfg.dev h).csIdle →
      s.short d n = true ∨ s.short r n = true → Misuse s (.dxblk h d r n) .bufferShort
  | mreadShort (m d a n) : s.short d n = true → Misuse s (.mread m d a n) .bufferShort
  | mwriteShort (m a r n) : s.short r n = true → Misuse s (.mwrite m a r n) .bufferShort
  | mreadSelected (m d a n) : s.short d n = false → shortCircuit s.cfg d n = false →
      (s.bus (s.cfg.busOf (s.cfg.handleOf m))).held = false →
      s.cs (s.cfg.handleOf m) ≠ (s.cfg.dev (s.cfg.handleOf m)).csIdle → Misuse s (.mread m d a n) .selectMismatch
  | mwriteSelected (m a r n) : s.short r n = false → shortCircuit s.cfg r n = false →
      (s.bus (s.cfg.busOf (s.cfg.handleOf m))).held = false →
      s.cs (s.cfg.handleOf m) ≠ (s.cfg.dev (s.cfg.handleOf m)).csIdle → Misuse s (.mwrite m a r n) .selectMismatch
  | sputSelected (x v) : s.full x = false → (s.bus (s.cfg.busOf (streamHandle s.cfg x))).held = false →
      s.cs (streamHandle s.cfg x) ≠ (s.cfg.dev (streamHandle s.cfg x)).csIdle → Misuse s (.sput x v) .selectMismatch
  | speekSelected (x) : s.emptyStr x = false → (s.bus (s.cfg.busOf (streamHandle s.cfg x))).held = false →
      s.cs (streamHandle s.cfg x) ≠ (s.cfg.dev (streamHandle s.cfg x)).csIdle → Misuse s (.speek x) .selectMismatch
  | sgetSelected (x) : s.emptyStr x = false → (s.bus (s.cfg.busOf (streamHandle s.cfg x))).held = false →
      s.cs (streamHandle s.cfg x) ≠ (s.cfg.dev (streamHandle s.cfg x)).csIdle → Misuse s (.sget x) .selectMismatch
  | wireNotHolder (i h a) : i ∈ [Instr.read h a, .write h a, .rdmr h a, .wrmr h a] →
      (s.bus (s.cfg.busOf h)).owner ≠ some s.cur → Misuse s i .xferNotHolder
  | wireUnselected (i h a) : i ∈ [Instr.read h a, .write h a, .rdmr h a, .wrmr h a] →
      (s.bus (s.cfg.busOf h)).owner = some s.cur → s.cs h = (s.cfg.dev h).csIdle → Misuse s i .selectMismatch

/-- The address operand an operation evaluates before its wait (R256); 0 for an operation without one. -/
def operandAddr (s : State) : Instr → Word32
  | .mread _ _ a _ => a
  | .mwrite _ a _ _ => a
  | .sput x _ => streamAddr s.cfg x (s.str x).put
  | .speek x => streamAddr s.cfg x (s.str x).get
  | .sget x => streamAddr s.cfg x (s.str x).get
  | .bacq _ _ _ _ | .brel _ | .bxfer _ _ | .bxblk _ _ _ _ | .dacq _ | .drel _ | .dxfer _ _ | .dxblk _ _ _ _ => 0
  | .savail _ | .sflush _ | .read _ _ | .write _ _ | .rdmr _ _ | .wrmr _ _ => 0

/-- The operation reaches its acquire: it can wait, and no check of R249 that comes first decides otherwise. -/
def reachesWait (s : State) : Instr → Bool
  | .bacq _ _ _ _ | .dacq _ => true
  | .mread _ d _ n => !s.short d n && !shortCircuit s.cfg d n
  | .mwrite _ _ r n => !s.short r n && !shortCircuit s.cfg r n
  | .sput x _ => !s.full x
  | .speek x | .sget x => !s.emptyStr x
  | .brel _ | .bxfer _ _ | .bxblk _ _ _ _ | .drel _ | .dxfer _ _ | .dxblk _ _ _ _ => false
  | .savail _ | .sflush _ | .read _ _ | .write _ _ | .rdmr _ _ | .wrmr _ _ => false

/-! ### When an operation executes normally -/

/-- The current caller holds bus `b`, whose clock is idle (R52 (3)), under a well-formed configuration. -/
structure BusReady (s : State) (b : Nat) : Prop where
  wf : s.cfg.wf = true
  inRange : b < s.cfg.buses.length
  owner : (s.bus b).owner = some s.cur
  clock : s.clockIdle b = true
  path : s.path = .idle

/-- The current caller has a transaction open on handle `h` (R183). -/
structure DevReady (s : State) (h : Nat) : Prop where
  wf : s.cfg.wf = true
  inRange : h < s.cfg.devs.length
  owner : (s.bus (s.cfg.busOf h)).owner = some s.cur
  selected : s.cs h ≠ (s.cfg.dev h).csIdle
  clock : s.clockIdle (s.cfg.busOf h) = true
  path : s.path = .idle

/-- A transaction on handle `h` can be opened at once: its bus is free and its select idle (R181). -/
structure DevFree (s : State) (h : Nat) : Prop where
  wf : s.cfg.wf = true
  inRange : h < s.cfg.devs.length
  free : (s.bus (s.cfg.busOf h)).held = false
  idle : s.cs h = (s.cfg.dev h).csIdle
  path : s.path = .idle

/-- The next piece is that of caller `c`, with `rest` of the schedule after it (R256), and no program is refused (R248). -/
structure Scheduled (s : State) (c : Nat) (rest : List Nat) : Prop where
  wf : s.cfg.wf = true
  shape : s.shapeOk = true
  sched : s.sched = c :: rest
  caller : c < s.cfg.ncaller
  accepted : s.programError = none

/-- Caller `c` is not inside a wait. -/
def NotWaiting (s : State) (c : Nat) : Prop := ∀ b op a, (s.caller c).status ≠ .waiting b op a

/-! ### The contents of a stream -/

/-- Stream `x` over the chip `r` on handle `h` holds the bytes `q`, oldest first (R228, R229). -/
structure Holds (s : State) (x h : Nat) (r : RefMem) (q : List Byte) : Prop where
  inv : StrInv s x
  count : (s.str x).count = q.length
  bytes : ∀ j, j < q.length →
    r.peek h (streamAddr s.cfg x (((s.str x).get + j) % (s.cfg.stream x).size)).toNat = q.getD j 0

end Sys2Proof.Machine
end

