-- ==== Sys2Proof/Certificates/Slice0/Obligations.lean ====
section
/-! DEFINITION. The statements for the provers. -/

open Sys2Proof Sys2Proof.Machine Sys2Proof.Machine.State

/-! ### Encoding -/

/-- Words written out in 95_test_vectors.md (P1 to P6, P9) and from the tables of R96 and R101. -/
def Obligations.SpecWordsDecode : Prop :=
  let cfg := Config.reference
  decode cfg [.opw 0x1000, .opnd 0x00000003, .opnd 0x000F4240] = .ok (.bacq 0 .mode3 .lsb 1000000) [] ∧
  decode cfg [.opw 0x1000, .opnd 0x00000007, .opnd 0x000F4240] = .ok (.bacq 0 .mode3 .msb 1000000) [] ∧
  decode cfg [.opw 0x1200, .opnd 0x000000B1] = .ok (.bxfer 0 0xB1) [] ∧
  decode cfg [.opw 0x1100] = .ok (.brel 0) [] ∧
  decode cfg [.opw 0x2201, .opnd 0x0000000F] = .ok (.dxfer 1 0x0F) [] ∧
  decode cfg [.opw 0x2302, .opnd 0x00000002, .opnd 0x00000001, .opnd 0x00000003] =
    .ok (.dxblk 2 (some 2) (some 1) 3) [] ∧
  decode cfg [.opw 0x3100, .opnd 0x00000010, .opnd 0x00000001, .opnd 0x00000002] =
    .ok (.mwrite 0 0x10 (some 1) 2) [] ∧
  decode cfg [.opw 0x3000, .opnd 0x00000002, .opnd 0x00000010, .opnd 0x00000002] =
    .ok (.mread 0 (some 2) 0x10 2) [] ∧
  decode cfg [.opw 0x4001, .opnd 0x0000000A] = .ok (.sput 1 0x0A) [] ∧
  decode cfg [.opw 0x4301] = .ok (.sget 1) [] ∧
  decode cfg [.frame 0 0x03012345] = .ok (.read 0 0x012345) [] ∧
  decode cfg [.frame 0 0x01FFFFFF] = .ok (.wrmr 0 0xFFFFFF) [] ∧
  decode cfg [.opw 0x5000] = .refused .reservedOp ∧
  decode cfg [.opw 0x1002, .opnd 0, .opnd 0] = .refused .unitRange ∧
  decode cfg [.opw 0x1000, .opnd 0x00000008, .opnd 0] = .refused .reservedBits

/-- Decoding the words of a well-formed operation gives it back, with the words after it left over. -/
def Obligations.DecodeOfEncode : Prop :=
  ∀ (cfg : Config) (i : Instr) (rest : List PortWord), i.wf cfg = true → decode cfg (encode i ++ rest) = .ok i rest

/-- What the decoder accepts is a well-formed operation and its own words: no bit is dropped. The one exception is a
header word sent by hand whose opcode byte no row of R96 has: it is the four `DXFER` that put its bytes on the wire (R97,
log 10). -/
def Obligations.EncodeOfDecode : Prop :=
  ∀ (cfg : Config) (i : Instr) (ws rest : List PortWord), decode cfg ws = .ok i rest →
    i.wf cfg = true ∧ (ws = encode i ++ rest ∨
      ∃ (h : Nat) (w : Word32) (more : List PortWord), ws = .frame h w :: more ∧
        w.extractLsb' 24 8 ∉ [0x03#8, 0x02#8, 0x05#8, 0x01#8] ∧ i = .dxfer h (w.extractLsb' 24 8) ∧
        rest = encode (.dxfer h (w.extractLsb' 16 8)) ++ encode (.dxfer h (w.extractLsb' 8 8)) ++
          encode (.dxfer h (w.extractLsb' 0 8)) ++ more)

/-- R104: a reserved `OP`, non-zero reserved bits and a `UNIT` out of range are refused, whatever words follow the record;
so is a wire word for a handle out of range (the handle beside the word is logs 10 and 24). That a record with reserved bits
and a `UNIT` out of range is refused for its reserved bits is the model's choice, the spec giving no order (log 29). -/
def Obligations.ReservedEncodingsRefused : Prop :=
  (∀ (cfg : Config) (w : BitVec 16) (rest : List PortWord),
    opOf w ∉ [0x10, 0x11, 0x12, 0x13, 0x20, 0x21, 0x22, 0x23, 0x30, 0x31, 0x40, 0x41, 0x42, 0x43, 0x44] →
    decode cfg (.opw w :: rest) = .refused .reservedOp) ∧
  (∀ (cfg : Config) (unit : BitVec 8) (c freq : Word32) (rest : List PortWord), c.extractLsb' 3 29 ≠ 0 →
    decode cfg (.opw (0x10#8 ++ unit) :: .opnd c :: .opnd freq :: rest) = .refused .reservedBits) ∧
  (∀ (cfg : Config) (op unit : BitVec 8) (v : Word32) (rest : List PortWord), op ∈ [0x12#8, 0x22#8, 0x40#8] →
    v.extractLsb' 8 24 ≠ 0 → decode cfg (.opw (op ++ unit) :: .opnd v :: rest) = .refused .reservedBits) ∧
  (∀ (cfg : Config) (op unit : BitVec 8) (rest : List PortWord),
    (op = 0x11#8 ∧ cfg.buses.length ≤ unit.toNat ∨ op ∈ [0x20#8, 0x21#8] ∧ cfg.devs.length ≤ unit.toNat ∨
      op ∈ [0x41#8, 0x42#8, 0x43#8, 0x44#8] ∧ cfg.strs.length ≤ unit.toNat) →
    decode cfg (.opw (op ++ unit) :: rest) = .refused .unitRange) ∧
  (∀ (cfg : Config) (op unit : BitVec 8) (w1 w2 w3 : Word32) (rest : List PortWord),
    (op = 0x13#8 ∧ cfg.buses.length ≤ unit.toNat ∨ op = 0x23#8 ∧ cfg.devs.length ≤ unit.toNat ∨
      op ∈ [0x30#8, 0x31#8] ∧ cfg.mems.length ≤ unit.toNat) →
    decode cfg (.opw (op ++ unit) :: .opnd w1 :: .opnd w2 :: .opnd w3 :: rest) = .refused .unitRange) ∧
  (∀ (cfg : Config) (op unit v : BitVec 8) (rest : List PortWord),
    (op = 0x12#8 ∧ cfg.buses.length ≤ unit.toNat ∨ op = 0x22#8 ∧ cfg.devs.length ≤ unit.toNat ∨
      op = 0x40#8 ∧ cfg.strs.length ≤ unit.toNat) →
    decode cfg (.opw (op ++ unit) :: .opnd (v.setWidth 32) :: rest) = .refused .unitRange) ∧
  (∀ (cfg : Config) (unit : BitVec 8) (mode : Mode) (order : Order) (freq : Word32) (rest : List PortWord),
    cfg.buses.length ≤ unit.toNat →
    decode cfg (.opw (0x10#8 ++ unit) :: .opnd (cfgWord mode order) :: .opnd freq :: rest) = .refused .unitRange) ∧
  ∀ (cfg : Config) (h : Nat) (w : Word32) (rest : List PortWord), cfg.devs.length ≤ h ∨ 256 ≤ h →
    decode cfg (.frame h w :: rest) = .refused .unitRange

/-! ### The step -/

/-- R248, R104, R111: a refused program has no run. While a port holds a record the decoder refuses, wherever in the
program it stands, every step is refused, for the reason of one of the refused records, so for the one reason where they
agree (where they differ, log 29 says which is named; the reason `malformed` is log 18). With no such record the step
answers a next state that has none either, so no run is refused midway unless words it refuses arrive later (log 20).
`boot` refuses an ill-formed configuration before reset, and refused programs in the same way, and otherwise answers
the reset state with the programs in the ports; the step refuses an ill-formed configuration too (log 20). A meaning
given a unit that is not below its count refuses. -/
def Obligations.RefusalsStop : Prop :=
  let reason : DecodeError → Refusal := fun e => match e with
    | .reservedOp => .reservedEncoding
    | .reservedBits => .reservedEncoding
    | .unitRange => .unitOutOfRange
    | .malformed => .malformedRecord
  (∀ (s : State) (c : Nat) (e : DecodeError), s.cfg.wf = true → s.shapeOk = true → c < s.cfg.ncaller →
    RefusedIn s.cfg (s.caller c).port e →
    (∃ c' e', c' < s.cfg.ncaller ∧ RefusedIn s.cfg (s.caller c').port e' ∧ step s = .refused (reason e')) ∧
    ((∀ c' e', c' < s.cfg.ncaller → RefusedIn s.cfg (s.caller c').port e' → reason e' = reason e) →
      step s = .refused (reason e))) ∧
  (∀ s : State, Inv s → (∀ c e, c < s.cfg.ncaller → ¬ RefusedIn s.cfg (s.caller c).port e) →
    ∃ t, step s = .next t ∧ ∀ c e, c < t.cfg.ncaller → ¬ RefusedIn t.cfg (t.caller c).port e) ∧
  (∀ (cfg : Config) (programs : List (List PortWord)), cfg.wf = false →
    boot cfg programs = .refused .illFormedConfig) ∧
  (∀ s : State, s.cfg.wf = false → step s = .refused .illFormedConfig) ∧
  (∀ (cfg : Config) (programs : List (List PortWord)) (c : Nat) (e : DecodeError), cfg.wf = true →
    c < cfg.ncaller → RefusedIn cfg (programs.getD c []) e →
    (∃ c' e', c' < cfg.ncaller ∧ RefusedIn cfg (programs.getD c' []) e' ∧ boot cfg programs = .refused (reason e')) ∧
    ((∀ c' e', c' < cfg.ncaller → RefusedIn cfg (programs.getD c' []) e' → reason e' = reason e) →
      boot cfg programs = .refused (reason e))) ∧
  (∀ (cfg : Config) (programs : List (List PortWord)), cfg.wf = true →
    (∀ c e, c < cfg.ncaller → ¬ RefusedIn cfg (programs.getD c []) e) →
    ∃ s, boot cfg programs = .next s ∧ (∀ c, c < cfg.ncaller → s.caller c = ⟨.idle, programs.getD c [], .none⟩) ∧
      { s with callers := (State.resetWith cfg).callers } = State.resetWith cfg) ∧
  ∀ (s : State) (i : Instr), unitBelow s.cfg i = false → exec i s = .refused .unitOutOfRange

/-- When the words of the scheduled caller's port decode to operation `i`, the step is the meaning of `i` at the
state in which the schedule and the port have moved past it and the caller is running. -/
def Obligations.StepRunsDecoded : Prop :=
  ∀ (s : State) (c : Nat) (rest : List Nat) (i : Instr) (ws : List PortWord), Scheduled s c rest → NotWaiting s c →
    decode s.cfg (s.caller c).port = .ok i ws →
    step s = exec i { s with
      sched := rest
      cur := c
      callers := setEntry Caller.idle s.callers c ⟨.running, ws, .none⟩ }

/-- R122: a hold step changes nothing; the step also changes nothing when the scheduled caller has nothing to issue,
and no step of anybody is taken when the schedule is empty. -/
def Obligations.HoldStepChangesNothing : Prop :=
  (∀ (s : State) (c : Nat) (rest : List Nat) (b : Nat) (op : Instr) (a : Word32), Scheduled s c rest →
    (s.caller c).status = .waiting b op a → (s.bus b).held = true →
    step s = .next { s with sched := rest, cur := c }) ∧
  (∀ (s : State) (c : Nat) (rest : List Nat), Scheduled s c rest → NotWaiting s c → (s.caller c).port = [] →
    step s = .next { s with sched := rest, cur := c }) ∧
  ∀ s : State, s.cfg.wf = true → s.shapeOk = true → s.programError = none → s.sched = [] → step s = .next s

/-- R122, R256: once the bus is free, the piece of a waiting operation is the one the operation would have taken at
once, provided its own checks and its address operand are what they were. -/
def Obligations.GrantAfterWaitIsImmediateGrant : Prop :=
  ∀ (s : State) (c : Nat) (rest : List Nat) (b : Nat) (op : Instr) (a : Word32), Scheduled s c rest →
    (s.caller c).status = .waiting b op a → op.wf s.cfg = true → waitBus s.cfg op = some b →
    (s.bus b).held = false → reachesWait s op = true → a = operandAddr s op →
    step s = exec op { s with sched := rest, cur := c }

/-- R256: the address of a stream operation that has waited is the one evaluated before the wait; the indices that then
advance are those of the grant. `COUNT - 1` at 0, which only a second user of the stream can bring about, is a free
value (log 30). -/
def Obligations.WaitedStreamOperationsKeepAddress : Prop :=
  ∀ (s : State) (c : Nat) (rest : List Nat) (b x : Nat) (a : Word32), Scheduled s c rest → x < s.cfg.strs.length →
    b = s.cfg.busOf (streamHandle s.cfg x) → DevFree s (streamHandle s.cfg x) →
    (∀ v, (s.caller c).status = .waiting b (.sput x v) a →
      ∃ rs t, step s = .next t ∧ rs.length = 5 ∧ Framed s t (streamHandle s.cfg x) (header 0x02 a ++ [v]) rs ∧
        t.caller c = ⟨.idle, (s.caller c).port, .accepted⟩ ∧
        t.str x = ⟨((s.str x).put + 1) % (s.cfg.stream x).size, (s.str x).get, (s.str x).count + 1⟩ ∧
        (∀ y, y ≠ x → t.str y = s.str y) ∧ t.bufs = s.bufs ∧ ∀ c', c' ≠ c → t.caller c' = s.caller c') ∧
    ((s.caller c).status = .waiting b (.speek x) a →
      ∃ hr r t, step s = .next t ∧ hr.length = 4 ∧
        Framed s t (streamHandle s.cfg x) (header 0x03 a ++ [s.cfg.fill]) (hr ++ [r]) ∧
        t.caller c = ⟨.idle, (s.caller c).port, .byte r⟩ ∧
        t.strs = s.strs ∧ t.bufs = s.bufs ∧ ∀ c', c' ≠ c → t.caller c' = s.caller c') ∧
    ((s.caller c).status = .waiting b (.sget x) a →
      ∃ hr r t, step s = .next t ∧ hr.length = 4 ∧
        Framed s t (streamHandle s.cfg x) (header 0x03 a ++ [s.cfg.fill]) (hr ++ [r]) ∧
        t.caller c = ⟨.idle, (s.caller c).port, .byte r⟩ ∧
        t.str x = ⟨(s.str x).put, ((s.str x).get + 1) % (s.cfg.stream x).size,
          if (s.str x).count = 0 then Config.countBelowZero x t.trace else (s.str x).count - 1⟩ ∧
        (∀ y, y ≠ x → t.str y = s.str y) ∧ t.bufs = s.bufs ∧ ∀ c', c' ≠ c → t.caller c' = s.caller c')

/-! ### Reset -/

/-- R50, R271, R272: what reset leaves under any well-formed configuration, with the events of the reset sequence; the
machine's own reset is that of `CFG-T` (log 1). -/
def Obligations.ResetLeaves : Prop :=
  State.reset = State.resetWith Config.reference ∧
  ∀ cfg : Config, cfg.wf = true →
    (∀ b, b < cfg.buses.length → ((State.resetWith cfg).bus b).held = false ∧
      ((State.resetWith cfg).bus b).owner = none ∧ (State.resetWith cfg).busDirs b = true) ∧
    (∀ h, h < cfg.devs.length → (State.resetWith cfg).pin (cfg.dev h).csPin = ⟨.out, (cfg.dev h).csIdle⟩ ∧
      (State.resetWith cfg).selected h = false) ∧
    (∀ x, x < cfg.strs.length → (State.resetWith cfg).str x = ⟨0, 0, 0⟩) ∧
    (∀ c, c < cfg.ncaller → ((State.resetWith cfg).caller c).status = .idle) ∧
    (State.resetWith cfg).faults = [] ∧
    (State.resetWith cfg).trace =
      cfg.buses.flatMap (fun be => match be with
        | .sw sck mosi miso => [.dir sck .out, .dir mosi .out, .dir miso .inp]
        | .hw _ _ => []) ++
      (List.range cfg.devs.length).flatMap
        (fun h => [.dir (cfg.dev h).csPin .out, .cs h (cfg.dev h).csIdle])

/-- The invariant holds after reset. Its clause about the clock line rests on the levels and modes log 2 and log 3
choose where R50 leaves them unspecified. -/
def Obligations.ResetHasInvariant : Prop := ∀ cfg : Config, cfg.wf = true → Inv (State.resetWith cfg)

/-! ### Every step -/

/-- R52 (1) to (3), R33: every step keeps the invariant (owner and `HELD` agree, a selected handle's bus is held and at
most one handle per bus is selected, clocks idle, directions as set up, plain data in canonical form). R52 (4), the
stream invariants, is not in it: R287 lets it fail across a wait (see `StepKeepsStreamInvariant`). -/
def Obligations.StepKeepsInvariant : Prop := ∀ s t : State, Inv s → step s = .next t → Inv t

/-- R8, R40, R246: no step changes the configuration; the trace is only appended to; faults are never removed and at
most one is added; only the caller that has stepped is touched. -/
def Obligations.StepAppendsOnly : Prop :=
  ∀ s t : State, Inv s → step s = .next t →
    t.cfg = s.cfg ∧ t.lines = s.lines ∧ (∃ es, t.trace = s.trace ++ es) ∧
    (∃ fs, t.faults = s.faults ++ fs ∧ fs.length ≤ 1) ∧ ∀ c, c ≠ t.cur → t.caller c = s.caller c

/-- R174, R33: no step changes the direction of a pin. -/
def Obligations.StepKeepsDirections : Prop :=
  ∀ s t : State, Inv s → step s = .next t → ∀ p, (t.pin p).dir = (s.pin p).dir

/-- R69, R129: while caller `c` holds bus `b`, a step of another caller adds no event of that bus to the trace and
leaves its session, its pins, its handles' selects and the chips attached to it as they are. -/
def Obligations.MutualExclusion : Prop :=
  ∀ (s t : State) (b c : Nat), Inv s → step s = .next t → (s.bus b).owner = some c → t.cur ≠ c →
    t.bus b = s.bus b ∧
    (∃ es, t.trace = s.trace ++ es ∧ ∀ e ∈ es, eventBus s.cfg e ≠ some b) ∧
    (∀ sck mosi miso, s.cfg.backend b = .sw sck mosi miso → t.pin sck = s.pin sck ∧ t.pin mosi = s.pin mosi) ∧
    (∀ h, h < s.cfg.devs.length → s.cfg.busOf h = b → t.cs h = s.cs h) ∧
    t.slaves.filter (fun x => decide (s.cfg.busOf x.h = b)) =
      s.slaves.filter (fun x => decide (s.cfg.busOf x.h = b))

/-- R21, R25, R84, R127: a held bus changes only by its holder's release, which keeps the session registers; a free
bus is taken, if at all, by the caller that stepped. -/
def Obligations.OnlyTheHolderReleases : Prop :=
  ∀ (s t : State) (b : Nat), Inv s → b < s.cfg.buses.length → step s = .next t →
    (∀ c, (s.bus b).owner = some c → t.bus b = s.bus b ∨
      (t.cur = c ∧ t.bus b = ⟨false, none, (s.bus b).mode, (s.bus b).order, (s.bus b).scale⟩)) ∧
    ((s.bus b).owner = none → (t.bus b).owner = none ∨ (t.bus b).owner = some t.cur)

/-- R128, R247: a caller that waits for a bus it holds itself is still waiting for it, inside the same operation, after
every step of anybody, and the bus is still held by it. -/
def Obligations.ReentrantAcquireNeverEnds : Prop :=
  ∀ (s t : State) (c b : Nat), Inv s → c < s.cfg.ncaller → s.selfBlocked c b → step s = .next t →
    t.selfBlocked c b ∧ t.caller c = s.caller c ∧ t.bus b = s.bus b

/-- R258, R127: on a weakly fair run, if a caller waits for a bus that is free, then at last exactly one grant of that bus
is taken: the bus stays free up to a step in which one caller, a waiter or one that has only now issued its operation,
gets it, and every other waiter still waits after that step. (A memory or stream operation gives the bus back in
the same step.) Nothing says which waiter it is, and fairness is no stronger: on some weakly fair run a caller waits for
ever for a bus that is free again and again and that others get again and again. That words arrive at the ports in the
course of a run is log 9. -/
def Obligations.EventuallyOneGrant : Prop :=
  (∀ (states : Nat → State) (choice : Nat → Nat) (words : Nat → Nat → List PortWord), Inv (states 0) →
    Run states choice words → WeaklyFair states choice →
    ∀ n c b, c < (states n).cfg.ncaller → (states n).waitsOn c b = true → ((states n).bus b).held = false →
    ∃ m, n ≤ m ∧ (∀ k, n ≤ k → k ≤ m → ((states k).bus b).held = false) ∧
      (((states m).waitsOn (choice m) b = true ∧ ((states (m + 1)).caller (choice m)).status = .idle) ∨
        ((states (m + 1)).bus b).owner = some (choice m)) ∧
      ∀ c', c' ≠ choice m → (states m).waitsOn c' b = true → (states (m + 1)).waitsOn c' b = true) ∧
  ∃ (states : Nat → State) (choice : Nat → Nat) (words : Nat → Nat → List PortWord) (c b : Nat), Inv (states 0) ∧
    Run states choice words ∧ WeaklyFair states choice ∧ c < (states 0).cfg.ncaller ∧
    (∀ n, (states n).waitsOn c b = true) ∧
    ∀ n, ∃ m, n ≤ m ∧ ((states m).bus b).held = false ∧ ((states (m + 1)).bus b).owner = some (choice m)

/-! ### Waiting and misuse -/

/-- R122, R241: an operation that reaches its acquire while the bus is held, by anybody, only makes its caller wait,
keeping the address it has evaluated; when the holder is the caller itself, it is then blocked on itself (R128). -/
def Obligations.AcquireOfHeldBusWaits : Prop :=
  ∀ (s : State) (i : Instr) (b : Nat), i.unitInRange s.cfg = true → reachesWait s i = true →
    waitBus s.cfg i = some b → (s.bus b).held = true →
    ∃ t, exec i s = .next t ∧
      t = { s with
        callers := setEntry Caller.idle s.callers s.cur ⟨.waiting b i (operandAddr s i), (s.caller s.cur).port, .none⟩ } ∧
      ((s.bus b).owner = some s.cur → t.selfBlocked s.cur b)

/-- R245, R246: an operation that breaks a precondition records its reason with the caller and the operation, ends
without a result and has no other effect; so does one whose `DACQ` is granted while the select is not idle. That the
four wire words need an open transaction is log 10; that the machine goes on is log 11; that the faults are a list
without repeats, and that a fault of the `DACQ` inside a memory or stream operation names that operation, is log 22. -/
def Obligations.MisuseRecordsFault : Prop :=
  ∀ (s : State) (i : Instr) (code : FaultCode), i.unitInRange s.cfg = true → Misuse s i code →
    exec i s = .next { s with
      faults := if ⟨code, s.cur, i⟩ ∈ s.faults then s.faults else s.faults ++ [⟨code, s.cur, i⟩]
      callers := setEntry Caller.idle s.callers s.cur ⟨.idle, (s.caller s.cur).port, .none⟩ }

/-! ### BusController -/

/-- R121, R126, R131 on a `sw` bus that is free: the session is open, the clock line is put at the idle level of the
new mode with its event, and nothing else happens. `SCALE` is the uninterpreted `SWSCALE` of the frequency. -/
def Obligations.BacqOpensSoftwareSession : Prop :=
  ∀ (s : State) (b sck mosi miso : Nat) (mode : Mode) (order : Order) (freq : Word32),
    s.cfg.backend b = .sw sck mosi miso → (s.bus b).held = false →
    ∃ t, exec (.bacq b mode order freq) s = .next t ∧ Answered s t .none ∧
      t.bus b = ⟨true, some s.cur, mode, order, Config.swScale freq⟩ ∧ (∀ b', b' ≠ b → t.bus b' = s.bus b') ∧
      t.trace = s.trace ++ [.sck b mode.cpol] ∧ t.slaves = hearAll s.cfg [.sck b mode.cpol] s.slaves ∧
      t.pin sck = ⟨(s.pin sck).dir, mode.cpol⟩ ∧ (∀ p, p ≠ sck → t.pin p = s.pin p) ∧
      t.strs = s.strs ∧ t.bufs = s.bufs ∧ t.path = s.path

/-- R121, R142, R143, R145 on a `hw` bus that is free: no event; `SCALE` is a supported divisor, the least one with
`C <= F * d` if there is one, else the largest. -/
def Obligations.BacqSelectsDivisor : Prop :=
  ∀ (s : State) (b sysclk : Nat) (divset : List Nat) (mode : Mode) (order : Order) (freq : Word32),
    s.cfg.wf = true → b < s.cfg.buses.length → s.cfg.backend b = .hw sysclk divset → (s.bus b).held = false →
    ∃ t d, exec (.bacq b mode order freq) s = .next t ∧ Answered s t .none ∧
      t.bus b = ⟨true, some s.cur, mode, order, d⟩ ∧ (∀ b', b' ≠ b → t.bus b' = s.bus b') ∧
      d ∈ divset ∧
      ((∃ e ∈ divset, sysclk ≤ freq.toNat * e) →
        sysclk ≤ freq.toNat * d ∧ ∀ e ∈ divset, sysclk ≤ freq.toNat * e → d ≤ e) ∧
      ((∀ e ∈ divset, freq.toNat * e < sysclk) → ∀ e ∈ divset, e ≤ d) ∧
      SameWire s t ∧ t.strs = s.strs ∧ t.bufs = s.bufs

/-- R123, R25: the holder's release clears `HELD` and the owner and leaves everything else, session registers and pin
levels included. -/
def Obligations.BrelClosesSession : Prop :=
  ∀ (s : State) (b : Nat), b < s.cfg.buses.length → (s.bus b).owner = some s.cur →
    (∀ h, h < s.cfg.devs.length → s.cfg.busOf h = b → s.cs h = (s.cfg.dev h).csIdle) →
    exec (.brel b) s = .next { s with
      buses := setEntry Bus.free s.buses b ⟨false, none, (s.bus b).mode, (s.bus b).order, (s.bus b).scale⟩
      callers := setEntry Caller.idle s.callers s.cur ⟨.idle, (s.caller s.cur).port, .none⟩ }

/-- R161 to R166, R168, R170 on a `sw` bus: exactly the 32 events of the mode, each sample the environment's answer at
its place in the trace, the received byte the sum of R166; the output data line keeps the last bit, the clock line and
every other pin are as before. -/
def Obligations.BxferOnSoftwareBus : Prop :=
  ∀ (s : State) (b sck mosi miso : Nat) (v : Byte), BusReady s b → s.cfg.backend b = .sw sck mosi miso →
    ∃ (f : Nat → Level) (r : Byte) (t : State), exec (.bxfer b v) s = .next t ∧ Answered s t (.byte r) ∧
      (∀ k, k < 8 → f k = s.sampleAt b (s.bus b).mode (s.bus b).order v f k) ∧
      t.trace = s.trace ++ byteEvents b (s.bus b).mode (s.bus b).order v f ∧
      r.toNat = ((List.range 8).map (fun k => (if f k then 1 else 0) *
        2 ^ (match (s.bus b).order with
          | .msb => 7 - k
          | .lsb => k))).sum ∧
      t.slaves = hearAll s.cfg (byteEvents b (s.bus b).mode (s.bus b).order v f) s.slaves ∧
      t.pin mosi = ⟨(s.pin mosi).dir, match (s.bus b).order with
        | .msb => v.getLsbD 0
        | .lsb => v.getLsbD 7⟩ ∧
      (∀ p, p ≠ mosi → t.pin p = s.pin p) ∧ t.path = .idle ∧ t.buses = s.buses ∧ t.strs = s.strs ∧ t.bufs = s.bufs

/-- R146, R79, R147 on a `hw` bus: one event `XCH`, the byte returned is the one in the event; it is made of the answers
the same environment gives, bit by bit, to the events of a `sw` bus in the session's mode and order (D18; over which
trace is log 15), so on a loop it is the byte sent; no pin changes. -/
def Obligations.BxferOnHardwareBus : Prop :=
  ∀ (s : State) (b sysclk : Nat) (divset : List Nat) (v : Byte), BusReady s b → s.cfg.backend b = .hw sysclk divset →
    ∃ (f : Nat → Level) (r : Byte) (t : State), exec (.bxfer b v) s = .next t ∧ Answered s t (.byte r) ∧
      (∀ k, k < 8 → f k = s.sampleAt b (s.bus b).mode (s.bus b).order v f k) ∧
      r.toNat = ((List.range 8).map (fun k => (if f k then 1 else 0) *
        2 ^ (match (s.bus b).order with
          | .msb => 7 - k
          | .lsb => k))).sum ∧
      t.trace = s.trace ++ [.xch b v r] ∧ (s.line b = .loop → r = v) ∧
      t.slaves = hearAll s.cfg (bytesHeard b (s.bus b).mode (s.bus b).order [v]) s.slaves ∧
      t.pins = s.pins ∧ t.path = .idle ∧ t.buses = s.buses ∧ t.strs = s.strs ∧ t.bufs = s.bufs

/-- R167: under `LOOP` every byte comes back on a `sw` bus, in every mode and both orders, wherever the clock line is, and
each sample is the bit sent at that bit time. -/
def Obligations.LoopbackReturnsTheByte : Prop :=
  ∀ (s : State) (b sck mosi miso : Nat) (v : Byte), b < s.cfg.buses.length → s.cfg.backend b = .sw sck mosi miso →
    s.line b = .loop → (s.bus b).owner = some s.cur →
    ∃ (t : State) (es : List Event), exec (.bxfer b v) s = .next t ∧ (t.caller s.cur).result = .byte v ∧
      t.trace = s.trace ++ es ∧
      es.filterMap (fun e => match e with
        | .smp _ x => some x
        | _ => none) = (List.range 8).map (sentBit (s.bus b).order v) ∧
      es.filterMap (fun e => match e with
        | .mosi _ x => some x
        | _ => none) = (List.range 8).map (sentBit (s.bus b).order v)

/-- R78, R79, R171: against the one selected reference slave in the session's mode and order, on either backend, the master
receives the byte the slave had loaded and the slave's byte machine takes the byte sent and loads its next one; the
chips that are not selected stay so. -/
def Obligations.SelectedChipIsAByteMachine : Prop :=
  ∀ (s : State) (b : Nat) (pre : List Slave) (x : Slave) (post : List Slave) (v : Byte),
    b < s.cfg.buses.length → (s.bus b).owner = some s.cur → Selected s b pre x post →
    ∃ (t : State) (pre' : List Slave) (x' : Slave) (post' : List Slave),
      exec (.bxfer b v) s = .next t ∧ (t.caller s.cur).result = .byte x.tx ∧ Selected t b pre' x' post' ∧
      x'.rx = v ∧ x'.chip = (x.chip.step v).afterTx ∧ x'.tx = (x.chip.step v).tx x.h x.draws ∧
      x'.h = x.h ∧ x'.draws = x.draws + 1

/-- R147, R79, D18: two machines alike but for the backend of bus `b`, the one `sw` with an idle clock and the other `hw`:
whoever answers the line (nobody known, a wire, chips), in every mode and order, the byte received and what the chips
have become are the same. -/
def Obligations.BackendsAreIndistinguishable : Prop :=
  ∀ (s : State) (b sck mosi miso sysclk : Nat) (divset : List Nat) (v : Byte),
    b < s.cfg.buses.length → s.cfg.backend b = .hw sysclk divset → (s.bus b).owner = some s.cur →
    sck ≠ mosi → s.lvl sck = (s.bus b).mode.cpol →
    let s' : State := { s with cfg := { s.cfg with buses := s.cfg.buses.set b (.sw sck mosi miso) } }
    ∃ (r : Byte) (t t' : State), exec (.bxfer b v) s = .next t ∧ exec (.bxfer b v) s' = .next t' ∧
      (t.caller s.cur).result = .byte r ∧ (t'.caller s.cur).result = .byte r ∧ t'.slaves = t.slaves

/-- R125, R244: with a zero count or both buffers absent the block operations only return. -/
def Obligations.EmptyBlockDoesNothing : Prop :=
  ∀ (s : State) (d r : Option BufRef) (n : Word32), (n = 0 ∨ (d = none ∧ r = none)) →
    (∀ b, b < s.cfg.buses.length → (s.bus b).owner = some s.cur →
      exec (.bxblk b d r n) s = .next { s with
        callers := setEntry Caller.idle s.callers s.cur ⟨.idle, (s.caller s.cur).port, .none⟩ }) ∧
    (∀ h, h < s.cfg.devs.length → (s.bus (s.cfg.busOf h)).owner = some s.cur → s.cs h ≠ (s.cfg.dev h).csIdle →
      exec (.dxblk h d r n) s = .next { s with
        callers := setEntry Caller.idle s.callers s.cur ⟨.idle, (s.caller s.cur).port, .none⟩ })

/-- R125, R63: a block transfer is the byte-wise loop `t <- BufRead(src, i) or FILL; r <- Exchange(b, t); BufWrite(dest, i, r)`,
also where `dest` and `src` are the same buffer. -/
def Obligations.BlockIsTheByteLoop : Prop :=
  ∀ (s : State) (b : Nat) (d r : Option BufRef) (n : Word32), b < s.cfg.buses.length →
    (s.bus b).owner = some s.cur → s.short d n = false → s.short r n = false → (d ≠ none ∨ r ≠ none) →
    ∃ t, exec (.bxblk b d r n) s = .next t ∧ t = (blockLoop b d r n.toNat 0 s).finish .none

/-- R125, R68: what a block transfer does to the wire and to the buffers: `n` bytes from the source or `FILL`, the
replies in `dest[0..n-1]`; every other buffer, bus, stream and pin is as before. -/
def Obligations.BlockTransfersBytes : Prop :=
  ∀ (s : State) (b : Nat) (d r : Option BufRef) (n : Word32), BusReady s b → s.short d n = false →
    s.short r n = false → (d ≠ none ∨ r ≠ none) →
    ∃ (rs : List Byte) (t : State), exec (.bxblk b d r n) s = .next t ∧ Answered s t .none ∧
      rs.length = n.toNat ∧
      SentBytes s t b ((List.range n.toNat).map (s.sourceByte r)) rs ∧
      (∀ dest, d = some dest → t.buf dest = rs ++ (s.buf dest).drop n.toNat) ∧
      (∀ k, d ≠ some k → t.buf k = s.buf k) ∧ t.buses = s.buses ∧ t.strs = s.strs

/-! ### DeviceHandle -/

/-- R181: on a free bus `DACQ` opens the session with the handle's constants, then asserts the select; clock event and
select event in that order; nothing else. -/
def Obligations.DacqOpensTransaction : Prop :=
  ∀ (s : State) (h : Nat), DevFree s h →
    ∃ t, exec (.dacq h) s = .next t ∧ Answered s t .none ∧
      t.bus (s.cfg.busOf h) = ⟨true, some s.cur, (s.cfg.dev h).mode, (s.cfg.dev h).order,
        scaleOf s.cfg (s.cfg.busOf h) (s.cfg.dev h).freq⟩ ∧
      (∀ b, b ≠ s.cfg.busOf h → t.bus b = s.bus b) ∧
      t.trace = s.trace ++ openEvents s.cfg h ∧ t.slaves = hearAll s.cfg (openEvents s.cfg h) s.slaves ∧
      t.cs h = !(s.cfg.dev h).csIdle ∧
      (∀ sck mosi miso, s.cfg.backend (s.cfg.busOf h) = .sw sck mosi miso →
        t.lvl sck = (s.cfg.dev h).mode.cpol) ∧
      (∀ p, p ≠ (s.cfg.dev h).csPin →
        (∀ sck mosi miso, s.cfg.backend (s.cfg.busOf h) = .sw sck mosi miso → p ≠ sck) → t.pin p = s.pin p) ∧
      (∀ p, (t.pin p).dir = (s.pin p).dir) ∧ t.path = s.path ∧ t.strs = s.strs ∧ t.bufs = s.bufs

/-- R182: `DREL` toggles the select back with its event, then frees the bus; session registers and every other pin are
as before. -/
def Obligations.DrelClosesTransaction : Prop :=
  ∀ (s : State) (h : Nat), DevReady s h →
    ∃ t, exec (.drel h) s = .next t ∧ Answered s t .none ∧
      t.cs h = (s.cfg.dev h).csIdle ∧ t.trace = s.trace ++ [.cs h (s.cfg.dev h).csIdle] ∧
      t.slaves = hearAll s.cfg [.cs h (s.cfg.dev h).csIdle] s.slaves ∧
      t.bus (s.cfg.busOf h) = ⟨false, none, (s.bus (s.cfg.busOf h)).mode, (s.bus (s.cfg.busOf h)).order,
        (s.bus (s.cfg.busOf h)).scale⟩ ∧
      (∀ b, b ≠ s.cfg.busOf h → t.bus b = s.bus b) ∧
      (∀ p, p ≠ (s.cfg.dev h).csPin → t.pin p = s.pin p) ∧ (∀ p, (t.pin p).dir = (s.pin p).dir) ∧
      t.path = s.path ∧ t.strs = s.strs ∧ t.bufs = s.bufs

/-- R183, R184: inside its transaction the handle's transfers complete and are those of the bus. -/
def Obligations.DeviceTransfersDelegate : Prop :=
  ∀ (s : State) (h : Nat), DevReady s h →
    (∀ v : Byte, ∃ t, exec (.dxfer h v) s = .next t ∧ exec (.bxfer (s.cfg.busOf h) v) s = .next t) ∧
    (∀ (d r : Option BufRef) (n : Word32), s.short d n = false → s.short r n = false →
      ∃ t, exec (.dxblk h d r n) s = .next t ∧ exec (.bxblk (s.cfg.busOf h) d r n) s = .next t)

/-! ### AddressedMemoryDevice -/

/-- R202: the header's four bytes; the top byte of the address does not appear. -/
def Obligations.HeaderLayout : Prop :=
  (∀ (opc : Byte) (a : Word32), (header opc a).map BitVec.toNat =
    [opc.toNat, a.toNat / 2 ^ 16 % 256, a.toNat / 2 ^ 8 % 256, a.toNat % 256]) ∧
  (∀ (opc : Byte) (a a' : Word32), a.toNat % 2 ^ 24 = a'.toNat % 2 ^ 24 → header opc a = header opc a') ∧
  header 0x03 0x00012345 = [0x03, 0x01, 0x23, 0x45] ∧ header 0x02 0xAB012345 = [0x02, 0x01, 0x23, 0x45]

/-- R203, R208: a read of `n > 0` bytes into a buffer on a free bus is one frame: header, `n` bytes `FILL`, the last `n`
replies in `dest[0..n-1]`, the bus free afterwards; nothing else of the block changes. -/
def Obligations.MreadIsOneFrame : Prop :=
  ∀ (s : State) (m : Nat) (d : BufRef) (a n : Word32), m < s.cfg.mems.length → DevFree s (s.cfg.handleOf m) →
    n ≠ 0 → n.toNat ≤ (s.buf d).length →
    ∃ (hr rs : List Byte) (t : State), exec (.mread m (some d) a n) s = .next t ∧ Answered s t .none ∧
      hr.length = 4 ∧ rs.length = n.toNat ∧
      Framed s t (s.cfg.handleOf m) (header 0x03 a ++ List.replicate n.toNat s.cfg.fill) (hr ++ rs) ∧
      t.buf d = rs ++ (s.buf d).drop n.toNat ∧ (∀ k, k ≠ d → t.buf k = s.buf k) ∧
      (∀ p, (t.pin p).dir = (s.pin p).dir) ∧ t.path = .idle ∧ t.strs = s.strs

/-- R204, R208: a write of `n > 0` bytes from a buffer on a free bus is one frame: header, `src[0..n-1]`; the replies
are discarded, the bus is free afterwards; nothing else of the block changes. -/
def Obligations.MwriteIsOneFrame : Prop :=
  ∀ (s : State) (m : Nat) (r : BufRef) (a n : Word32), m < s.cfg.mems.length → DevFree s (s.cfg.handleOf m) →
    n ≠ 0 → n.toNat ≤ (s.buf r).length →
    ∃ (rs : List Byte) (t : State), exec (.mwrite m a (some r) n) s = .next t ∧ Answered s t .none ∧
      rs.length = 4 + n.toNat ∧
      Framed s t (s.cfg.handleOf m) (header 0x02 a ++ (s.buf r).take n.toNat) rs ∧
      (∀ p, (t.pin p).dir = (s.pin p).dir) ∧ t.path = .idle ∧ t.bufs = s.bufs ∧ t.strs = s.strs

/-- R205: a zero count or an absent buffer. With `skip` the operation only returns, even when the bus is held; with
`send` the frame is the header alone. In both cases no buffer is touched. -/
def Obligations.MemoryNoOpFollowsZcHeader : Prop :=
  ∀ (s : State) (m : Nat) (d : Option BufRef) (a n : Word32), m < s.cfg.mems.length → (n = 0 ∨ d = none) →
    (s.cfg.zcHeader = .skip →
      ∃ t, exec (.mread m d a n) s = .next t ∧ exec (.mwrite m a d n) s = .next t ∧
        t = { s with callers := setEntry Caller.idle s.callers s.cur ⟨.idle, (s.caller s.cur).port, .none⟩ }) ∧
    (s.cfg.zcHeader = .send → DevFree s (s.cfg.handleOf m) →
      (∃ rs t, exec (.mread m d a n) s = .next t ∧ Answered s t .none ∧ rs.length = 4 ∧
        Framed s t (s.cfg.handleOf m) (header 0x03 a) rs ∧ t.path = .idle ∧ t.bufs = s.bufs ∧ t.strs = s.strs) ∧
      ∃ rs t, exec (.mwrite m a d n) s = .next t ∧ Answered s t .none ∧ rs.length = 4 ∧
        Framed s t (s.cfg.handleOf m) (header 0x02 a) rs ∧ t.path = .idle ∧ t.bufs = s.bufs ∧ t.strs = s.strs)

/-- R203, R204: `MREAD` and `MWRITE` end in the very state in which `DACQ`, the header sent by hand, `DXBLK` of the
payload and `DREL` end, one after the other. -/
def Obligations.MemoryOperationsAreTransactions : Prop :=
  ∀ (s : State) (m : Nat) (d : Option BufRef) (a n : Word32), m < s.cfg.mems.length →
    DevFree s (s.cfg.handleOf m) → s.short d n = false → shortCircuit s.cfg d n = false →
    (∃ s1 s2 s3 t, exec (.dacq (s.cfg.handleOf m)) s = .next s1 ∧
      exec (.read (s.cfg.handleOf m) (a.extractLsb' 0 24)) s1 = .next s2 ∧
      exec (.dxblk (s.cfg.handleOf m) d none n) s2 = .next s3 ∧
      exec (.drel (s.cfg.handleOf m)) s3 = .next t ∧ exec (.mread m d a n) s = .next t) ∧
    ∃ s1 s2 s3 t, exec (.dacq (s.cfg.handleOf m)) s = .next s1 ∧
      exec (.write (s.cfg.handleOf m) (a.extractLsb' 0 24)) s1 = .next s2 ∧
      exec (.dxblk (s.cfg.handleOf m) none d n) s2 = .next s3 ∧
      exec (.drel (s.cfg.handleOf m)) s3 = .next t ∧ exec (.mwrite m a d n) s = .next t

/-- R61, R207: two address operands that differ in the top byte only have the same effect. -/
def Obligations.TopAddressByteIsDropped : Prop :=
  ∀ (s : State) (m : Nat) (d : Option BufRef) (a a' n : Word32), m < s.cfg.mems.length →
    DevFree s (s.cfg.handleOf m) → s.short d n = false → a.toNat % 2 ^ 24 = a'.toNat % 2 ^ 24 →
    (∃ t, exec (.mread m d a n) s = .next t ∧ exec (.mread m d a' n) s = .next t) ∧
    ∃ t, exec (.mwrite m a d n) s = .next t ∧ exec (.mwrite m a' d n) s = .next t

/-- R204, R80: with the reference chip on the handle, a write of at most as many bytes as the chip has stores `src[i]` at
address `A + i` modulo the chip's size for `i < n`, wrapping at its top, and leaves every other byte of its array; the
array keeps its canonical form. -/
def Obligations.MwriteStoresInChip : Prop :=
  ∀ (s : State) (m : Nat) (r : BufRef) (a n : Word32) (c : RefMem), m < s.cfg.mems.length →
    DevFree s (s.cfg.handleOf m) → HasChip s (s.cfg.handleOf m) c → c.bits ≤ 24 → n ≠ 0 →
    n.toNat ≤ (s.buf r).length → n.toNat ≤ 2 ^ c.bits →
    ∃ (t : State) (c' : RefMem), exec (.mwrite m a (some r) n) s = .next t ∧ HasChip t (s.cfg.handleOf m) c' ∧
      c'.bits = c.bits ∧ (c.mem.wf = true → c'.mem.wf = true) ∧
      (∀ i, i < n.toNat → c'.mem.read ((a.toNat + i) % 2 ^ c.bits) = some ((s.buf r).getD i 0)) ∧
      ∀ k, (∀ i, i < n.toNat → k ≠ (a.toNat + i) % 2 ^ c.bits) → c'.mem.read k = c.mem.read k

/-- R203, R80: with the reference chip on the handle, a read puts the byte at `A + i` in `dest[i]` for `i < n` and leaves
every byte of the chip's array. -/
def Obligations.MreadReturnsChipBytes : Prop :=
  ∀ (s : State) (m : Nat) (d : BufRef) (a n : Word32) (c : RefMem), m < s.cfg.mems.length →
    DevFree s (s.cfg.handleOf m) → HasChip s (s.cfg.handleOf m) c → c.bits ≤ 24 → n ≠ 0 →
    n.toNat ≤ (s.buf d).length →
    ∃ (t : State) (c' : RefMem), exec (.mread m (some d) a n) s = .next t ∧ HasChip t (s.cfg.handleOf m) c' ∧
      c'.bits = c.bits ∧ c'.mem = c.mem ∧
      (∀ i, i < n.toNat → (t.buf d)[i]? = some (c.peek (s.cfg.handleOf m) (a.toNat + i))) ∧
      ∀ i, n.toNat ≤ i → (t.buf d)[i]? = (s.buf d)[i]?

/-- R211, R82: a write of at most as many bytes as the chip has, followed by a read of the same range, by the same or
another caller, returns the data; also where the range wraps at the chip's top (R80), which R82 does not claim. -/
def Obligations.RoundTripThroughChip : Prop :=
  ∀ (s : State) (m : Nat) (r d : BufRef) (a n : Word32) (c : RefMem) (other : Nat), m < s.cfg.mems.length →
    DevFree s (s.cfg.handleOf m) → HasChip s (s.cfg.handleOf m) c → c.bits ≤ 24 → n ≠ 0 →
    n.toNat ≤ (s.buf r).length → n.toNat ≤ (s.buf d).length → n.toNat ≤ 2 ^ c.bits →
    ∃ t u : State, exec (.mwrite m a (some r) n) s = .next t ∧
      exec (.mread m (some d) a n) { t with cur := other } = .next u ∧
      (u.buf d).take n.toNat = (s.buf r).take n.toNat

/-! ### Wire words -/

/-- R94, R96, R97: inside an open transaction each of the four wire words puts its opcode byte and its three bytes on the
wire, first byte first, and nothing else changes. That a caller sends them as one word is log 10. -/
def Obligations.WireWordsSendFourBytes : Prop :=
  ∀ (s : State) (h : Nat) (a : BitVec 24), DevReady s h →
    ∀ i opc, (i = .read h a ∧ opc = 0x03#8 ∨ i = .write h a ∧ opc = 0x02#8 ∨ i = .rdmr h a ∧ opc = 0x05#8 ∨
      i = .wrmr h a ∧ opc = 0x01#8) →
    ∃ (rs : List Byte) (t : State), exec i s = .next t ∧ Answered s t .none ∧ rs.length = 4 ∧
      SentBytes s t (s.cfg.busOf h)
        [opc, a.extractLsb' 16 8, a.extractLsb' 8 8, a.extractLsb' 0 8] rs ∧
      t.buses = s.buses ∧ t.strs = s.strs ∧ t.bufs = s.bufs

/-- R97: a header word sent by hand whose opcode byte no row of R96 has traps nowhere: it is decoded as the four `DXFER` of
its bytes (log 10), and these, one after the other inside the open transaction, put exactly its four bytes on the
wire. -/
def Obligations.UnnamedOpcodeIsTransmitted : Prop :=
  ∀ (s : State) (h : Nat) (w : Word32) (more : List PortWord), DevReady s h → h < 256 →
    w.extractLsb' 24 8 ∉ [0x03#8, 0x02#8, 0x05#8, 0x01#8] →
    decode s.cfg (.frame h w :: more) = .ok (.dxfer h (w.extractLsb' 24 8))
      (encode (.dxfer h (w.extractLsb' 16 8)) ++ encode (.dxfer h (w.extractLsb' 8 8)) ++
        encode (.dxfer h (w.extractLsb' 0 8)) ++ more) ∧
    ∃ (rs : List Byte) (s1 s2 s3 t : State), exec (.dxfer h (w.extractLsb' 24 8)) s = .next s1 ∧
      exec (.dxfer h (w.extractLsb' 16 8)) s1 = .next s2 ∧ exec (.dxfer h (w.extractLsb' 8 8)) s2 = .next s3 ∧
      exec (.dxfer h (w.extractLsb' 0 8)) s3 = .next t ∧ rs.length = 4 ∧
      SentBytes s t (s.cfg.busOf h)
        [w.extractLsb' 24 8, w.extractLsb' 16 8, w.extractLsb' 8 8, w.extractLsb' 0 8] rs

/-- R80, R81: the reference chip, freshly selected, takes a READ or WRITE word as the header of a frame; after an RDMR or
WRMR word it ignores every later byte of the transaction. Its array is untouched in all four cases. That a caller sends
the word as one operation is log 10; that RDMR and WRMR latch their three bytes as an address first is log 31. -/
def Obligations.ChipTakesWireWords : Prop :=
  (∀ (s : State) (h : Nat) (a : BitVec 24) (pre : List Slave) (x : Slave) (post : List Slave) (c : RefMem),
    DevReady s h → Selected s (s.cfg.busOf h) pre x post → x.h = h → (∀ y ∈ pre ++ post, y.h ≠ h) →
    x.chip = .mem c → c.phase = .op → c.bits ≤ 24 →
    ∀ i opc, (i = .read h a ∧ opc = 0x03#8 ∨ i = .write h a ∧ opc = 0x02#8 ∨ i = .rdmr h a ∧ opc = 0x05#8 ∨
      i = .wrmr h a ∧ opc = 0x01#8) →
    ∃ (t : State) (pre' : List Slave) (x' : Slave) (post' : List Slave), exec i s = .next t ∧
      Selected t (s.cfg.busOf h) pre' x' post' ∧ x'.h = h ∧
      x'.chip = .mem ⟨c.bits, .data, opc, a.toNat % 2 ^ c.bits, c.mem⟩) ∧
  ∀ (c : RefMem) (v : Byte), c.phase = .data → c.op ≠ 0x03 → c.op ≠ 0x02 → c.step v = c

/-! ### CircularStream -/

/-- R222: `SAVAIL` returns `COUNT`, which lies between 0 and `SIZE` (R32), and changes nothing else. -/
def Obligations.SavailReturnsCount : Prop :=
  ∀ (s : State) (x : Nat), x < s.cfg.strs.length →
    ∃ t, exec (.savail x) s = .next t ∧ (t.caller s.cur).result = .count (s.str x).count ∧
      (Result.count (s.str x).count).code s.cfg = some ((s.str x).count : Int) ∧
      t = { s with
        callers := setEntry Caller.idle s.callers s.cur ⟨.idle, (s.caller s.cur).port, .count (s.str x).count⟩ } ∧
      (StrInv s x → (s.str x).count ≤ (s.cfg.stream x).size)

/-- R242, R243, R249: `SPEEK` and `SGET` of an empty stream return `EMPTY` and `SPUT` on a full stream returns 0, even
when the bus is held, and nothing else changes. -/
def Obligations.StreamSentinels : Prop :=
  ∀ (s : State) (x : Nat), x < s.cfg.strs.length →
    ((s.str x).count = 0 → ∃ t, exec (.speek x) s = .next t ∧ exec (.sget x) s = .next t ∧
      t = { s with callers := setEntry Caller.idle s.callers s.cur ⟨.idle, (s.caller s.cur).port, .empty⟩ } ∧
      ((t.caller s.cur).result.code t.cfg = some s.cfg.empty)) ∧
    ((s.str x).count = (s.cfg.stream x).size → ∀ v, ∃ t, exec (.sput x v) s = .next t ∧
      t = { s with callers := setEntry Caller.idle s.callers s.cur ⟨.idle, (s.caller s.cur).port, .rejected⟩ } ∧
      ((t.caller s.cur).result.code t.cfg = some 0))

/-- R221, R225, R226: an accepted put on a free bus sends the write frame of one byte to `BASE + PUT`, then advances
`COUNT` and `PUT`; other streams, `GET` and all buffers are as before. -/
def Obligations.SputWritesOneByte : Prop :=
  ∀ (s : State) (x : Nat) (v : Byte), x < s.cfg.strs.length → DevFree s (streamHandle s.cfg x) →
    (s.str x).count ≠ (s.cfg.stream x).size →
    ∃ rs t, exec (.sput x v) s = .next t ∧ Answered s t .accepted ∧ rs.length = 5 ∧
      Framed s t (streamHandle s.cfg x)
        (header 0x02 (BitVec.ofNat 32 ((s.cfg.stream x).base.toNat + (s.str x).put)) ++ [v]) rs ∧
      t.str x = ⟨((s.str x).put + 1) % (s.cfg.stream x).size, (s.str x).get, (s.str x).count + 1⟩ ∧
      (∀ y, y ≠ x → t.str y = s.str y) ∧ t.bufs = s.bufs ∧ t.path = .idle

/-- R223, R225: a peek of a non-empty stream on a free bus sends the read frame of one byte at `BASE + GET` and returns
the last reply; no stream changes. -/
def Obligations.SpeekReadsOneByte : Prop :=
  ∀ (s : State) (x : Nat), x < s.cfg.strs.length → DevFree s (streamHandle s.cfg x) → (s.str x).count ≠ 0 →
    ∃ hr r t, exec (.speek x) s = .next t ∧ Answered s t (.byte r) ∧ hr.length = 4 ∧
      Framed s t (streamHandle s.cfg x)
        (header 0x03 (BitVec.ofNat 32 ((s.cfg.stream x).base.toNat + (s.str x).get)) ++ [s.cfg.fill])
        (hr ++ [r]) ∧
      t.strs = s.strs ∧ t.bufs = s.bufs ∧ t.path = .idle

/-- R224, R225, R226: a get of a non-empty stream on a free bus sends the same frame as a peek and returns the same reply,
then `COUNT` goes down by one and `GET` advances; other streams, `PUT` and all buffers are as before. -/
def Obligations.SgetConsumesOneByte : Prop :=
  ∀ (s : State) (x : Nat), x < s.cfg.strs.length → DevFree s (streamHandle s.cfg x) → (s.str x).count ≠ 0 →
    ∃ hr r t u, exec (.sget x) s = .next t ∧ exec (.speek x) s = .next u ∧ Answered s t (.byte r) ∧
      (u.caller s.cur).result = .byte r ∧ hr.length = 4 ∧
      Framed s t (streamHandle s.cfg x)
        (header 0x03 (BitVec.ofNat 32 ((s.cfg.stream x).base.toNat + (s.str x).get)) ++ [s.cfg.fill])
        (hr ++ [r]) ∧
      t.str x = ⟨(s.str x).put, ((s.str x).get + 1) % (s.cfg.stream x).size, (s.str x).count - 1⟩ ∧
      (∀ y, y ≠ x → t.str y = s.str y) ∧ t.bufs = s.bufs ∧ t.path = .idle

/-- R227: a flush resets the indices of its stream and nothing else: no wire activity, no other stream, no buffer. -/
def Obligations.SflushResetsIndices : Prop :=
  ∀ (s : State) (x : Nat), x < s.cfg.strs.length →
    exec (.sflush x) s = .next { s with
      strs := setEntry Stream.empty s.strs x ⟨0, 0, 0⟩
      callers := setEntry Caller.idle s.callers s.cur ⟨.idle, (s.caller s.cur).port, .none⟩ }

/-- R228: every operation keeps the invariants of every stream. -/
def Obligations.OperationsKeepStreamInvariant : Prop :=
  ∀ (s t : State) (i : Instr) (x : Nat), s.cfg.wf = true → i.unitInRange s.cfg = true → x < s.cfg.strs.length →
    StrInv s x → exec i s = .next t → StrInv t x

/-- R228, R287: a step keeps the invariant of a stream, whatever the scheduled caller does, provided that a waiting
operation would still pass the check it made before its wait; R287 lets a second user of the stream break that. -/
def Obligations.StepKeepsStreamInvariant : Prop :=
  ∀ (s t : State) (x : Nat), Inv s → x < s.cfg.strs.length → StrInv s x →
    (∀ c rest b op a, s.sched = c :: rest → (s.caller c).status = .waiting b op a → reachesWait s op = true) →
    step s = .next t → StrInv t x

/-- R225, R62: the address operand of index `i` is `BASE + i` mod `2^32`, of which the header carries the low 24 bits. -/
def Obligations.StreamAddressWraps : Prop :=
  ∀ (cfg : Config) (x i : Nat) (opc : Byte),
    (streamAddr cfg x i).toNat = ((cfg.stream x).base.toNat + i) % 2 ^ 32 ∧
    (header opc (streamAddr cfg x i)).map BitVec.toNat =
      [opc.toNat, ((cfg.stream x).base.toNat + i) / 2 ^ 16 % 256, ((cfg.stream x).base.toNat + i) / 2 ^ 8 % 256,
        ((cfg.stream x).base.toNat + i) % 256]

/-- R221, R223, R224, R80 over the reference chip: an accepted put stores its byte at `BASE + PUT` of the chip and leaves
every other byte of its array; a peek and a get return the byte at `BASE + GET` and leave the whole array. -/
def Obligations.StreamOperationsOnChip : Prop :=
  ∀ (s : State) (x : Nat) (c : RefMem), x < s.cfg.strs.length → DevFree s (streamHandle s.cfg x) →
    HasChip s (streamHandle s.cfg x) c → c.bits ≤ 24 →
    (∀ v, (s.str x).count ≠ (s.cfg.stream x).size → ∃ (t : State) (c' : RefMem), exec (.sput x v) s = .next t ∧
      HasChip t (streamHandle s.cfg x) c' ∧ c'.bits = c.bits ∧ (c.mem.wf = true → c'.mem.wf = true) ∧
      c'.mem.read (((s.cfg.stream x).base.toNat + (s.str x).put) % 2 ^ c.bits) = some v ∧
      ∀ k, k ≠ ((s.cfg.stream x).base.toNat + (s.str x).put) % 2 ^ c.bits → c'.mem.read k = c.mem.read k) ∧
    ((s.str x).count ≠ 0 → ∃ (t u : State) (c' c'' : RefMem), exec (.speek x) s = .next t ∧
      exec (.sget x) s = .next u ∧
      (t.caller s.cur).result =
        .byte (c.peek (streamHandle s.cfg x) ((s.cfg.stream x).base.toNat + (s.str x).get)) ∧
      (u.caller s.cur).result =
        .byte (c.peek (streamHandle s.cfg x) ((s.cfg.stream x).base.toNat + (s.str x).get)) ∧
      HasChip t (streamHandle s.cfg x) c' ∧ c'.bits = c.bits ∧ c'.mem = c.mem ∧
      HasChip u (streamHandle s.cfg x) c'' ∧ c''.bits = c.bits ∧ c''.mem = c.mem)

/-- R230: `SIZE` bytes put to an empty stream on a free bus are all accepted, the next put is rejected and `SAVAIL` then
returns `SIZE`. -/
def Obligations.Backpressure : Prop :=
  ∀ (s : State) (x : Nat) (vs : List Byte) (v : Byte), x < s.cfg.strs.length →
    DevFree s (streamHandle s.cfg x) → (s.str x).count = 0 → vs.length = (s.cfg.stream x).size →
    ∃ t u w : State, (vs.foldl (fun (o : Option State) y => o.bind fun z => match exec (.sput x y) z with
        | .next z' => if (z'.caller z'.cur).result = .accepted then some z' else none
        | _ => none) (some s)) = some t ∧
      exec (.sput x v) t = .next u ∧ (u.caller u.cur).result = .rejected ∧
      exec (.savail x) u = .next w ∧ (w.caller w.cur).result = .count (s.cfg.stream x).size

/-- R232: after a flush, whatever came before, `SAVAIL` returns 0. -/
def Obligations.FlushEmptiesStream : Prop :=
  ∀ (s : State) (x : Nat), x < s.cfg.strs.length →
    ∃ t u : State, exec (.sflush x) s = .next t ∧ exec (.savail x) t = .next u ∧
      (u.caller u.cur).result = .count 0

/-- R231: on a non-empty stream over the reference chip two peeks in a row return the same byte with `COUNT` unchanged,
and a get then returns that byte and takes one off `COUNT`. -/
def Obligations.PeekIsIdempotent : Prop :=
  ∀ (s : State) (x : Nat) (c : RefMem), x < s.cfg.strs.length → DevFree s (streamHandle s.cfg x) →
    HasChip s (streamHandle s.cfg x) c → c.bits ≤ 24 → (s.str x).count ≠ 0 →
    ∃ (r : Byte) (t u w : State), exec (.speek x) s = .next t ∧ exec (.speek x) t = .next u ∧
      exec (.sget x) u = .next w ∧ (t.caller s.cur).result = .byte r ∧ (u.caller s.cur).result = .byte r ∧
      (w.caller s.cur).result = .byte r ∧ (t.str x).count = (s.str x).count ∧
      (u.str x).count = (s.str x).count ∧ (w.str x).count + 1 = (s.str x).count

/-- R229: over the reference chip a stream whose window fits in the chip is a FIFO: an accepted put appends its byte to
the contents, a get returns and removes the oldest byte, a peek returns it and leaves the contents. -/
def Obligations.StreamIsFifo : Prop :=
  ∀ (s : State) (x : Nat) (c : RefMem) (q : List Byte), x < s.cfg.strs.length →
    DevFree s (streamHandle s.cfg x) → HasChip s (streamHandle s.cfg x) c → c.bits ≤ 24 →
    (s.cfg.stream x).size ≤ 2 ^ c.bits → Holds s x (streamHandle s.cfg x) c q →
    (∀ v, q.length < (s.cfg.stream x).size → ∃ (t : State) (c' : RefMem), exec (.sput x v) s = .next t ∧
      (t.caller s.cur).result = .accepted ∧ DevFree t (streamHandle s.cfg x) ∧
      HasChip t (streamHandle s.cfg x) c' ∧ c'.bits = c.bits ∧ Holds t x (streamHandle s.cfg x) c' (q ++ [v])) ∧
    (∀ v q', q = v :: q' →
      (∃ (t : State) (c' : RefMem), exec (.sget x) s = .next t ∧ (t.caller s.cur).result = .byte v ∧
        DevFree t (streamHandle s.cfg x) ∧ HasChip t (streamHandle s.cfg x) c' ∧ c'.bits = c.bits ∧
        Holds t x (streamHandle s.cfg x) c' q') ∧
      ∃ (t : State) (c' : RefMem), exec (.speek x) s = .next t ∧ (t.caller s.cur).result = .byte v ∧
        DevFree t (streamHandle s.cfg x) ∧ HasChip t (streamHandle s.cfg x) c' ∧ c'.bits = c.bits ∧
        Holds t x (streamHandle s.cfg x) c' q)
end

