-- ==== Sys2Proof/Laws/Tables.lean ====
section
/-! SUPPORT. The laws of tables and sorted maps: read after write, writes that commute or absorb, lengths,
and the canonical form. -/

namespace Sys2Proof.Machine

variable {α : Type}

/-! ### Positional tables -/

@[simp] theorem entry_nil (d : α) (i : Nat) : entry d [] i = d := by simp [entry]

@[simp] theorem entry_cons_zero (d y : α) (ys : List α) : entry d (y :: ys) 0 = y := by simp [entry]

@[simp] theorem entry_cons_succ (d y : α) (ys : List α) (i : Nat) :
    entry d (y :: ys) (i + 1) = entry d ys i := by simp [entry]

theorem entry_setEntry (d : α) (l : List α) (i j : Nat) (x : α) :
    entry d (setEntry d l i x) j = if j = i then x else entry d l j := by
  induction l, i, x using setEntry.induct generalizing j with
  | case1 x => cases j <;> simp [setEntry]
  | case2 i x ih => cases j <;> simp [setEntry, ih]
  | case3 y ys x => cases j <;> simp [setEntry]
  | case4 y ys i x ih => cases j <;> simp [setEntry, ih]

@[simp] theorem entry_setEntry_self (d : α) (l : List α) (i : Nat) (x : α) :
    entry d (setEntry d l i x) i = x := by simp [entry_setEntry]

theorem entry_setEntry_ne (d : α) (l : List α) {i j : Nat} (x : α) (h : j ≠ i) :
    entry d (setEntry d l i x) j = entry d l j := by simp [entry_setEntry, h]

@[simp] theorem setEntry_setEntry (d : α) (l : List α) (i : Nat) (x y : α) :
    setEntry d (setEntry d l i x) i y = setEntry d l i y := by
  induction l, i, x using setEntry.induct with
  | case1 x => simp [setEntry]
  | case2 i x ih => simp [setEntry, ih]
  | case3 z ys x => simp [setEntry]
  | case4 z ys i x ih => simp [setEntry, ih]

/-- Writing inside a table keeps its length. -/
theorem length_setEntry (d : α) (l : List α) (i : Nat) (x : α) (h : i < l.length) :
    (setEntry d l i x).length = l.length := by
  induction l, i, x using setEntry.induct with
  | case1 x => simp at h
  | case2 i x ih => simp at h
  | case3 z ys x => simp [setEntry]
  | case4 z ys i x ih => simp only [setEntry, List.length_cons] at h ⊢; rw [ih (by omega)]

/-- Writing back what is there changes nothing inside the table. -/
theorem setEntry_self (d : α) (l : List α) (i : Nat) (h : i < l.length) :
    setEntry d l i (entry d l i) = l := by
  induction l generalizing i with
  | nil => simp at h
  | cons y ys ih =>
    cases i with
    | zero => simp [setEntry]
    | succ i => simp only [List.length_cons] at h; simp [setEntry, ih i (by omega)]

/-! ### Sorted maps -/

@[simp] theorem mapGet_nil (a : Nat) : mapGet ([] : List (Nat × α)) a = none := rfl

theorem mapGet_mapPut (m : List (Nat × α)) (a c : Nat) (x : α) :
    mapGet (mapPut m a x) c = if c = a then some x else mapGet m c := by
  fun_induction mapPut m a x with
  | case1 a x => simp [mapGet, eq_comm]
  | case2 k v rest a x h =>
    simp only [mapGet]
    by_cases hc : c = a
    · simp [hc]
    · simp [hc, Ne.symm hc]
  | case3 v rest k x h =>
    simp only [mapGet]
    by_cases hc : c = k
    · simp [hc]
    · simp [hc, Ne.symm hc]
  | case4 k v rest a x h1 h2 ih =>
    simp only [mapGet, ih]
    by_cases hc : c = a
    · subst hc; simp [Ne.symm h2]
    · simp [hc]

@[simp] theorem mapGet_mapPut_self (m : List (Nat × α)) (a : Nat) (x : α) :
    mapGet (mapPut m a x) a = some x := by simp [mapGet_mapPut]

theorem mapGet_mapPut_ne (m : List (Nat × α)) {a c : Nat} (x : α) (h : c ≠ a) :
    mapGet (mapPut m a x) c = mapGet m c := by simp [mapGet_mapPut, h]

/-- The keys of a map after a write are the old keys and the written one. -/
theorem mem_keys_mapPut (m : List (Nat × α)) (a : Nat) (x : α) (k : Nat) :
    k ∈ (mapPut m a x).map Prod.fst ↔ k = a ∨ k ∈ m.map Prod.fst := by
  fun_induction mapPut m a x with
  | case1 a x => simp
  | case2 k' v rest a x h => simp
  | case3 v rest k' x h => simp
  | case4 k' v rest a x h1 h2 ih =>
    simp only [List.map_cons, List.mem_cons, ih]
    tauto

/-- A write keeps the keys strictly rising. -/
theorem sorted_mapPut (m : List (Nat × α)) (a : Nat) (x : α)
    (h : (m.map Prod.fst).Pairwise (· < ·)) : ((mapPut m a x).map Prod.fst).Pairwise (· < ·) := by
  fun_induction mapPut m a x with
  | case1 a x => simp
  | case2 k v rest a x hlt =>
    simp only [List.map_cons, List.pairwise_cons, List.mem_cons] at h ⊢
    refine ⟨?_, h⟩
    rintro b (rfl | hb)
    · exact hlt
    · exact lt_trans hlt (h.1 b hb)
  | case3 v rest k x hlt => simpa using h
  | case4 k v rest a x h1 h2 ih =>
    simp only [List.map_cons, List.pairwise_cons] at h ⊢
    refine ⟨?_, ih h.2⟩
    intro b hb
    rcases (mem_keys_mapPut rest a x b).1 hb with rfl | hb
    · omega
    · exact h.1 b hb

/-! ### Chip memory -/

theorem Memory.read_write (m : Memory) (a c : Nat) (v : Byte) :
    (m.write a v).read c = if c = a then some v else m.read c := mapGet_mapPut m a c v

/-- Every memory operation keeps the canonical form (log 6). -/
theorem Memory.wf_write (m : Memory) (a : Nat) (v : Byte) (h : m.wf = true) :
    (m.write a v).wf = true := by
  simp only [Memory.wf, decide_eq_true_eq] at h ⊢
  exact sorted_mapPut m a v h

end Sys2Proof.Machine
end

