-- ==== Sys2Proof/Laws/State.lean ====
section
/-! SUPPORT. One lemma per field and accessor per update of the state, each true by `rfl`, and the laws of
reading back what an update wrote. -/

namespace Sys2Proof.Machine.State

variable (s : State)

/-! ### `setBus` -/

@[simp] theorem setBus_cfg (b : Nat) (x : Bus) : (s.setBus b x).cfg = s.cfg := rfl
@[simp] theorem setBus_buses (b : Nat) (x : Bus) : (s.setBus b x).buses = setEntry Bus.free s.buses b x := rfl
@[simp] theorem setBus_pins (b : Nat) (x : Bus) : (s.setBus b x).pins = s.pins := rfl
@[simp] theorem setBus_strs (b : Nat) (x : Bus) : (s.setBus b x).strs = s.strs := rfl
@[simp] theorem setBus_path (b : Nat) (x : Bus) : (s.setBus b x).path = s.path := rfl
@[simp] theorem setBus_trace (b : Nat) (x : Bus) : (s.setBus b x).trace = s.trace := rfl
@[simp] theorem setBus_faults (b : Nat) (x : Bus) : (s.setBus b x).faults = s.faults := rfl
@[simp] theorem setBus_callers (b : Nat) (x : Bus) : (s.setBus b x).callers = s.callers := rfl
@[simp] theorem setBus_bufs (b : Nat) (x : Bus) : (s.setBus b x).bufs = s.bufs := rfl
@[simp] theorem setBus_lines (b : Nat) (x : Bus) : (s.setBus b x).lines = s.lines := rfl
@[simp] theorem setBus_slaves (b : Nat) (x : Bus) : (s.setBus b x).slaves = s.slaves := rfl
@[simp] theorem setBus_sched (b : Nat) (x : Bus) : (s.setBus b x).sched = s.sched := rfl
@[simp] theorem setBus_cur (b : Nat) (x : Bus) : (s.setBus b x).cur = s.cur := rfl
@[simp] theorem setBus_str (b : Nat) (x : Bus) (k : Nat) : (s.setBus b x).str k = s.str k := rfl
@[simp] theorem setBus_caller (b : Nat) (x : Bus) (k : Nat) : (s.setBus b x).caller k = s.caller k := rfl
@[simp] theorem setBus_pin (b : Nat) (x : Bus) (k : Nat) : (s.setBus b x).pin k = s.pin k := rfl
@[simp] theorem setBus_lvl (b : Nat) (x : Bus) (k : Nat) : (s.setBus b x).lvl k = s.lvl k := rfl
@[simp] theorem setBus_cs (b : Nat) (x : Bus) (k : Nat) : (s.setBus b x).cs k = s.cs k := rfl
@[simp] theorem setBus_selected (b : Nat) (x : Bus) (k : Nat) : (s.setBus b x).selected k = s.selected k := rfl
@[simp] theorem setBus_buf (b : Nat) (x : Bus) (k : BufRef) : (s.setBus b x).buf k = s.buf k := rfl
@[simp] theorem setBus_line (b : Nat) (x : Bus) (k : Nat) : (s.setBus b x).line k = s.line k := rfl

/-! ### `setStr` -/

@[simp] theorem setStr_cfg (i : Nat) (x : Stream) : (s.setStr i x).cfg = s.cfg := rfl
@[simp] theorem setStr_buses (i : Nat) (x : Stream) : (s.setStr i x).buses = s.buses := rfl
@[simp] theorem setStr_pins (i : Nat) (x : Stream) : (s.setStr i x).pins = s.pins := rfl
@[simp] theorem setStr_strs (i : Nat) (x : Stream) : (s.setStr i x).strs = setEntry Stream.empty s.strs i x := rfl
@[simp] theorem setStr_path (i : Nat) (x : Stream) : (s.setStr i x).path = s.path := rfl
@[simp] theorem setStr_trace (i : Nat) (x : Stream) : (s.setStr i x).trace = s.trace := rfl
@[simp] theorem setStr_faults (i : Nat) (x : Stream) : (s.setStr i x).faults = s.faults := rfl
@[simp] theorem setStr_callers (i : Nat) (x : Stream) : (s.setStr i x).callers = s.callers := rfl
@[simp] theorem setStr_bufs (i : Nat) (x : Stream) : (s.setStr i x).bufs = s.bufs := rfl
@[simp] theorem setStr_lines (i : Nat) (x : Stream) : (s.setStr i x).lines = s.lines := rfl
@[simp] theorem setStr_slaves (i : Nat) (x : Stream) : (s.setStr i x).slaves = s.slaves := rfl
@[simp] theorem setStr_sched (i : Nat) (x : Stream) : (s.setStr i x).sched = s.sched := rfl
@[simp] theorem setStr_cur (i : Nat) (x : Stream) : (s.setStr i x).cur = s.cur := rfl
@[simp] theorem setStr_bus (i : Nat) (x : Stream) (k : Nat) : (s.setStr i x).bus k = s.bus k := rfl
@[simp] theorem setStr_caller (i : Nat) (x : Stream) (k : Nat) : (s.setStr i x).caller k = s.caller k := rfl
@[simp] theorem setStr_pin (i : Nat) (x : Stream) (k : Nat) : (s.setStr i x).pin k = s.pin k := rfl
@[simp] theorem setStr_lvl (i : Nat) (x : Stream) (k : Nat) : (s.setStr i x).lvl k = s.lvl k := rfl
@[simp] theorem setStr_cs (i : Nat) (x : Stream) (k : Nat) : (s.setStr i x).cs k = s.cs k := rfl
@[simp] theorem setStr_selected (i : Nat) (x : Stream) (k : Nat) : (s.setStr i x).selected k = s.selected k := rfl
@[simp] theorem setStr_buf (i : Nat) (x : Stream) (k : BufRef) : (s.setStr i x).buf k = s.buf k := rfl
@[simp] theorem setStr_line (i : Nat) (x : Stream) (k : Nat) : (s.setStr i x).line k = s.line k := rfl

/-! ### `setCaller` -/

@[simp] theorem setCaller_cfg (c : Nat) (x : Caller) : (s.setCaller c x).cfg = s.cfg := rfl
@[simp] theorem setCaller_buses (c : Nat) (x : Caller) : (s.setCaller c x).buses = s.buses := rfl
@[simp] theorem setCaller_pins (c : Nat) (x : Caller) : (s.setCaller c x).pins = s.pins := rfl
@[simp] theorem setCaller_strs (c : Nat) (x : Caller) : (s.setCaller c x).strs = s.strs := rfl
@[simp] theorem setCaller_path (c : Nat) (x : Caller) : (s.setCaller c x).path = s.path := rfl
@[simp] theorem setCaller_trace (c : Nat) (x : Caller) : (s.setCaller c x).trace = s.trace := rfl
@[simp] theorem setCaller_faults (c : Nat) (x : Caller) : (s.setCaller c x).faults = s.faults := rfl
@[simp] theorem setCaller_callers (c : Nat) (x : Caller) : (s.setCaller c x).callers = setEntry Caller.idle s.callers c x := rfl
@[simp] theorem setCaller_bufs (c : Nat) (x : Caller) : (s.setCaller c x).bufs = s.bufs := rfl
@[simp] theorem setCaller_lines (c : Nat) (x : Caller) : (s.setCaller c x).lines = s.lines := rfl
@[simp] theorem setCaller_slaves (c : Nat) (x : Caller) : (s.setCaller c x).slaves = s.slaves := rfl
@[simp] theorem setCaller_sched (c : Nat) (x : Caller) : (s.setCaller c x).sched = s.sched := rfl
@[simp] theorem setCaller_cur (c : Nat) (x : Caller) : (s.setCaller c x).cur = s.cur := rfl
@[simp] theorem setCaller_bus (c : Nat) (x : Caller) (k : Nat) : (s.setCaller c x).bus k = s.bus k := rfl
@[simp] theorem setCaller_str (c : Nat) (x : Caller) (k : Nat) : (s.setCaller c x).str k = s.str k := rfl
@[simp] theorem setCaller_pin (c : Nat) (x : Caller) (k : Nat) : (s.setCaller c x).pin k = s.pin k := rfl
@[simp] theorem setCaller_lvl (c : Nat) (x : Caller) (k : Nat) : (s.setCaller c x).lvl k = s.lvl k := rfl
@[simp] theorem setCaller_cs (c : Nat) (x : Caller) (k : Nat) : (s.setCaller c x).cs k = s.cs k := rfl
@[simp] theorem setCaller_selected (c : Nat) (x : Caller) (k : Nat) : (s.setCaller c x).selected k = s.selected k := rfl
@[simp] theorem setCaller_buf (c : Nat) (x : Caller) (k : BufRef) : (s.setCaller c x).buf k = s.buf k := rfl
@[simp] theorem setCaller_line (c : Nat) (x : Caller) (k : Nat) : (s.setCaller c x).line k = s.line k := rfl

/-! ### `setPin` -/

@[simp] theorem setPin_cfg (p : Nat) (x : Pin) : (s.setPin p x).cfg = s.cfg := rfl
@[simp] theorem setPin_buses (p : Nat) (x : Pin) : (s.setPin p x).buses = s.buses := rfl
@[simp] theorem setPin_pins (p : Nat) (x : Pin) : (s.setPin p x).pins = mapPut s.pins p x := rfl
@[simp] theorem setPin_strs (p : Nat) (x : Pin) : (s.setPin p x).strs = s.strs := rfl
@[simp] theorem setPin_path (p : Nat) (x : Pin) : (s.setPin p x).path = s.path := rfl
@[simp] theorem setPin_trace (p : Nat) (x : Pin) : (s.setPin p x).trace = s.trace := rfl
@[simp] theorem setPin_faults (p : Nat) (x : Pin) : (s.setPin p x).faults = s.faults := rfl
@[simp] theorem setPin_callers (p : Nat) (x : Pin) : (s.setPin p x).callers = s.callers := rfl
@[simp] theorem setPin_bufs (p : Nat) (x : Pin) : (s.setPin p x).bufs = s.bufs := rfl
@[simp] theorem setPin_lines (p : Nat) (x : Pin) : (s.setPin p x).lines = s.lines := rfl
@[simp] theorem setPin_slaves (p : Nat) (x : Pin) : (s.setPin p x).slaves = s.slaves := rfl
@[simp] theorem setPin_sched (p : Nat) (x : Pin) : (s.setPin p x).sched = s.sched := rfl
@[simp] theorem setPin_cur (p : Nat) (x : Pin) : (s.setPin p x).cur = s.cur := rfl
@[simp] theorem setPin_bus (p : Nat) (x : Pin) (k : Nat) : (s.setPin p x).bus k = s.bus k := rfl
@[simp] theorem setPin_str (p : Nat) (x : Pin) (k : Nat) : (s.setPin p x).str k = s.str k := rfl
@[simp] theorem setPin_caller (p : Nat) (x : Pin) (k : Nat) : (s.setPin p x).caller k = s.caller k := rfl
@[simp] theorem setPin_buf (p : Nat) (x : Pin) (k : BufRef) : (s.setPin p x).buf k = s.buf k := rfl
@[simp] theorem setPin_line (p : Nat) (x : Pin) (k : Nat) : (s.setPin p x).line k = s.line k := rfl

/-! ### `setLvl` -/

@[simp] theorem setLvl_cfg (p : Nat) (v : Level) : (s.setLvl p v).cfg = s.cfg := rfl
@[simp] theorem setLvl_buses (p : Nat) (v : Level) : (s.setLvl p v).buses = s.buses := rfl
@[simp] theorem setLvl_pins (p : Nat) (v : Level) : (s.setLvl p v).pins = mapPut s.pins p { s.pin p with lvl := v } := rfl
@[simp] theorem setLvl_strs (p : Nat) (v : Level) : (s.setLvl p v).strs = s.strs := rfl
@[simp] theorem setLvl_path (p : Nat) (v : Level) : (s.setLvl p v).path = s.path := rfl
@[simp] theorem setLvl_trace (p : Nat) (v : Level) : (s.setLvl p v).trace = s.trace := rfl
@[simp] theorem setLvl_faults (p : Nat) (v : Level) : (s.setLvl p v).faults = s.faults := rfl
@[simp] theorem setLvl_callers (p : Nat) (v : Level) : (s.setLvl p v).callers = s.callers := rfl
@[simp] theorem setLvl_bufs (p : Nat) (v : Level) : (s.setLvl p v).bufs = s.bufs := rfl
@[simp] theorem setLvl_lines (p : Nat) (v : Level) : (s.setLvl p v).lines = s.lines := rfl
@[simp] theorem setLvl_slaves (p : Nat) (v : Level) : (s.setLvl p v).slaves = s.slaves := rfl
@[simp] theorem setLvl_sched (p : Nat) (v : Level) : (s.setLvl p v).sched = s.sched := rfl
@[simp] theorem setLvl_cur (p : Nat) (v : Level) : (s.setLvl p v).cur = s.cur := rfl
@[simp] theorem setLvl_bus (p : Nat) (v : Level) (k : Nat) : (s.setLvl p v).bus k = s.bus k := rfl
@[simp] theorem setLvl_str (p : Nat) (v : Level) (k : Nat) : (s.setLvl p v).str k = s.str k := rfl
@[simp] theorem setLvl_caller (p : Nat) (v : Level) (k : Nat) : (s.setLvl p v).caller k = s.caller k := rfl
@[simp] theorem setLvl_buf (p : Nat) (v : Level) (k : BufRef) : (s.setLvl p v).buf k = s.buf k := rfl
@[simp] theorem setLvl_line (p : Nat) (v : Level) (k : Nat) : (s.setLvl p v).line k = s.line k := rfl

/-! ### `setBuf` -/

@[simp] theorem setBuf_cfg (r : BufRef) (x : List Byte) : (s.setBuf r x).cfg = s.cfg := rfl
@[simp] theorem setBuf_buses (r : BufRef) (x : List Byte) : (s.setBuf r x).buses = s.buses := rfl
@[simp] theorem setBuf_pins (r : BufRef) (x : List Byte) : (s.setBuf r x).pins = s.pins := rfl
@[simp] theorem setBuf_strs (r : BufRef) (x : List Byte) : (s.setBuf r x).strs = s.strs := rfl
@[simp] theorem setBuf_path (r : BufRef) (x : List Byte) : (s.setBuf r x).path = s.path := rfl
@[simp] theorem setBuf_trace (r : BufRef) (x : List Byte) : (s.setBuf r x).trace = s.trace := rfl
@[simp] theorem setBuf_faults (r : BufRef) (x : List Byte) : (s.setBuf r x).faults = s.faults := rfl
@[simp] theorem setBuf_callers (r : BufRef) (x : List Byte) : (s.setBuf r x).callers = s.callers := rfl
@[simp] theorem setBuf_bufs (r : BufRef) (x : List Byte) : (s.setBuf r x).bufs = mapPut s.bufs r.toNat x := rfl
@[simp] theorem setBuf_lines (r : BufRef) (x : List Byte) : (s.setBuf r x).lines = s.lines := rfl
@[simp] theorem setBuf_slaves (r : BufRef) (x : List Byte) : (s.setBuf r x).slaves = s.slaves := rfl
@[simp] theorem setBuf_sched (r : BufRef) (x : List Byte) : (s.setBuf r x).sched = s.sched := rfl
@[simp] theorem setBuf_cur (r : BufRef) (x : List Byte) : (s.setBuf r x).cur = s.cur := rfl
@[simp] theorem setBuf_bus (r : BufRef) (x : List Byte) (k : Nat) : (s.setBuf r x).bus k = s.bus k := rfl
@[simp] theorem setBuf_str (r : BufRef) (x : List Byte) (k : Nat) : (s.setBuf r x).str k = s.str k := rfl
@[simp] theorem setBuf_caller (r : BufRef) (x : List Byte) (k : Nat) : (s.setBuf r x).caller k = s.caller k := rfl
@[simp] theorem setBuf_pin (r : BufRef) (x : List Byte) (k : Nat) : (s.setBuf r x).pin k = s.pin k := rfl
@[simp] theorem setBuf_lvl (r : BufRef) (x : List Byte) (k : Nat) : (s.setBuf r x).lvl k = s.lvl k := rfl
@[simp] theorem setBuf_cs (r : BufRef) (x : List Byte) (k : Nat) : (s.setBuf r x).cs k = s.cs k := rfl
@[simp] theorem setBuf_selected (r : BufRef) (x : List Byte) (k : Nat) : (s.setBuf r x).selected k = s.selected k := rfl
@[simp] theorem setBuf_line (r : BufRef) (x : List Byte) (k : Nat) : (s.setBuf r x).line k = s.line k := rfl

/-! ### `setPath` -/

@[simp] theorem setPath_cfg (x : Path) : (s.setPath x).cfg = s.cfg := rfl
@[simp] theorem setPath_buses (x : Path) : (s.setPath x).buses = s.buses := rfl
@[simp] theorem setPath_pins (x : Path) : (s.setPath x).pins = s.pins := rfl
@[simp] theorem setPath_strs (x : Path) : (s.setPath x).strs = s.strs := rfl
@[simp] theorem setPath_path (x : Path) : (s.setPath x).path = x := rfl
@[simp] theorem setPath_trace (x : Path) : (s.setPath x).trace = s.trace := rfl
@[simp] theorem setPath_faults (x : Path) : (s.setPath x).faults = s.faults := rfl
@[simp] theorem setPath_callers (x : Path) : (s.setPath x).callers = s.callers := rfl
@[simp] theorem setPath_bufs (x : Path) : (s.setPath x).bufs = s.bufs := rfl
@[simp] theorem setPath_lines (x : Path) : (s.setPath x).lines = s.lines := rfl
@[simp] theorem setPath_slaves (x : Path) : (s.setPath x).slaves = s.slaves := rfl
@[simp] theorem setPath_sched (x : Path) : (s.setPath x).sched = s.sched := rfl
@[simp] theorem setPath_cur (x : Path) : (s.setPath x).cur = s.cur := rfl
@[simp] theorem setPath_bus (x : Path) (k : Nat) : (s.setPath x).bus k = s.bus k := rfl
@[simp] theorem setPath_str (x : Path) (k : Nat) : (s.setPath x).str k = s.str k := rfl
@[simp] theorem setPath_caller (x : Path) (k : Nat) : (s.setPath x).caller k = s.caller k := rfl
@[simp] theorem setPath_pin (x : Path) (k : Nat) : (s.setPath x).pin k = s.pin k := rfl
@[simp] theorem setPath_lvl (x : Path) (k : Nat) : (s.setPath x).lvl k = s.lvl k := rfl
@[simp] theorem setPath_cs (x : Path) (k : Nat) : (s.setPath x).cs k = s.cs k := rfl
@[simp] theorem setPath_selected (x : Path) (k : Nat) : (s.setPath x).selected k = s.selected k := rfl
@[simp] theorem setPath_buf (x : Path) (k : BufRef) : (s.setPath x).buf k = s.buf k := rfl
@[simp] theorem setPath_line (x : Path) (k : Nat) : (s.setPath x).line k = s.line k := rfl

/-! ### `setSlaves` -/

@[simp] theorem setSlaves_cfg (x : List Slave) : (s.setSlaves x).cfg = s.cfg := rfl
@[simp] theorem setSlaves_buses (x : List Slave) : (s.setSlaves x).buses = s.buses := rfl
@[simp] theorem setSlaves_pins (x : List Slave) : (s.setSlaves x).pins = s.pins := rfl
@[simp] theorem setSlaves_strs (x : List Slave) : (s.setSlaves x).strs = s.strs := rfl
@[simp] theorem setSlaves_path (x : List Slave) : (s.setSlaves x).path = s.path := rfl
@[simp] theorem setSlaves_trace (x : List Slave) : (s.setSlaves x).trace = s.trace := rfl
@[simp] theorem setSlaves_faults (x : List Slave) : (s.setSlaves x).faults = s.faults := rfl
@[simp] theorem setSlaves_callers (x : List Slave) : (s.setSlaves x).callers = s.callers := rfl
@[simp] theorem setSlaves_bufs (x : List Slave) : (s.setSlaves x).bufs = s.bufs := rfl
@[simp] theorem setSlaves_lines (x : List Slave) : (s.setSlaves x).lines = s.lines := rfl
@[simp] theorem setSlaves_slaves (x : List Slave) : (s.setSlaves x).slaves = x := rfl
@[simp] theorem setSlaves_sched (x : List Slave) : (s.setSlaves x).sched = s.sched := rfl
@[simp] theorem setSlaves_cur (x : List Slave) : (s.setSlaves x).cur = s.cur := rfl
@[simp] theorem setSlaves_bus (x : List Slave) (k : Nat) : (s.setSlaves x).bus k = s.bus k := rfl
@[simp] theorem setSlaves_str (x : List Slave) (k : Nat) : (s.setSlaves x).str k = s.str k := rfl
@[simp] theorem setSlaves_caller (x : List Slave) (k : Nat) : (s.setSlaves x).caller k = s.caller k := rfl
@[simp] theorem setSlaves_pin (x : List Slave) (k : Nat) : (s.setSlaves x).pin k = s.pin k := rfl
@[simp] theorem setSlaves_lvl (x : List Slave) (k : Nat) : (s.setSlaves x).lvl k = s.lvl k := rfl
@[simp] theorem setSlaves_cs (x : List Slave) (k : Nat) : (s.setSlaves x).cs k = s.cs k := rfl
@[simp] theorem setSlaves_selected (x : List Slave) (k : Nat) : (s.setSlaves x).selected k = s.selected k := rfl
@[simp] theorem setSlaves_buf (x : List Slave) (k : BufRef) : (s.setSlaves x).buf k = s.buf k := rfl
@[simp] theorem setSlaves_line (x : List Slave) (k : Nat) : (s.setSlaves x).line k = s.line k := rfl

/-! ### `log` -/

@[simp] theorem log_cfg (e : Event) : (s.log e).cfg = s.cfg := rfl
@[simp] theorem log_buses (e : Event) : (s.log e).buses = s.buses := rfl
@[simp] theorem log_pins (e : Event) : (s.log e).pins = s.pins := rfl
@[simp] theorem log_strs (e : Event) : (s.log e).strs = s.strs := rfl
@[simp] theorem log_path (e : Event) : (s.log e).path = s.path := rfl
@[simp] theorem log_trace (e : Event) : (s.log e).trace = s.trace ++ [e] := rfl
@[simp] theorem log_faults (e : Event) : (s.log e).faults = s.faults := rfl
@[simp] theorem log_callers (e : Event) : (s.log e).callers = s.callers := rfl
@[simp] theorem log_bufs (e : Event) : (s.log e).bufs = s.bufs := rfl
@[simp] theorem log_lines (e : Event) : (s.log e).lines = s.lines := rfl
@[simp] theorem log_slaves (e : Event) : (s.log e).slaves = s.slaves := rfl
@[simp] theorem log_sched (e : Event) : (s.log e).sched = s.sched := rfl
@[simp] theorem log_cur (e : Event) : (s.log e).cur = s.cur := rfl
@[simp] theorem log_bus (e : Event) (k : Nat) : (s.log e).bus k = s.bus k := rfl
@[simp] theorem log_str (e : Event) (k : Nat) : (s.log e).str k = s.str k := rfl
@[simp] theorem log_caller (e : Event) (k : Nat) : (s.log e).caller k = s.caller k := rfl
@[simp] theorem log_pin (e : Event) (k : Nat) : (s.log e).pin k = s.pin k := rfl
@[simp] theorem log_lvl (e : Event) (k : Nat) : (s.log e).lvl k = s.lvl k := rfl
@[simp] theorem log_cs (e : Event) (k : Nat) : (s.log e).cs k = s.cs k := rfl
@[simp] theorem log_selected (e : Event) (k : Nat) : (s.log e).selected k = s.selected k := rfl
@[simp] theorem log_buf (e : Event) (k : BufRef) : (s.log e).buf k = s.buf k := rfl
@[simp] theorem log_line (e : Event) (k : Nat) : (s.log e).line k = s.line k := rfl

/-! ### Read after write -/

theorem bus_setBus (b k : Nat) (x : Bus) : (s.setBus b x).bus k = if k = b then x else s.bus k :=
  entry_setEntry _ _ _ _ _

theorem str_setStr (i k : Nat) (x : Stream) : (s.setStr i x).str k = if k = i then x else s.str k :=
  entry_setEntry _ _ _ _ _

theorem caller_setCaller (c k : Nat) (x : Caller) :
    (s.setCaller c x).caller k = if k = c then x else s.caller k :=
  entry_setEntry _ _ _ _ _

theorem pin_setPin (p k : Nat) (x : Pin) : (s.setPin p x).pin k = if k = p then x else s.pin k := by
  by_cases h : k = p <;> simp [pin, mapGet_mapPut, h]

theorem lvl_setLvl (p k : Nat) (v : Level) : (s.setLvl p v).lvl k = if k = p then v else s.lvl k := by
  by_cases h : k = p <;> simp [lvl, setLvl, pin_setPin, h]

/-- `PinWrite` and `PinToggle` never change a direction (R33, R174). -/
@[simp] theorem dir_setLvl (p k : Nat) (v : Level) : ((s.setLvl p v).pin k).dir = (s.pin k).dir := by
  by_cases h : k = p <;> simp [setLvl, pin_setPin, h]

theorem buf_setBuf (r k : BufRef) (x : List Byte) :
    (s.setBuf r x).buf k = if k = r then x else s.buf k := by
  by_cases h : k = r
  · simp [buf, h]
  · have : k.toNat ≠ r.toNat := fun hk => h (BitVec.eq_of_toNat_eq hk)
    simp [buf, h, mapGet_mapPut, this]

@[simp] theorem bus_setBus_self (b : Nat) (x : Bus) : (s.setBus b x).bus b = x := by simp [bus_setBus]

@[simp] theorem str_setStr_self (i : Nat) (x : Stream) : (s.setStr i x).str i = x := by simp [str_setStr]

@[simp] theorem caller_setCaller_self (c : Nat) (x : Caller) : (s.setCaller c x).caller c = x := by
  simp [caller_setCaller]

@[simp] theorem lvl_setLvl_self (p : Nat) (v : Level) : (s.setLvl p v).lvl p = v := by simp [lvl_setLvl]

@[simp] theorem buf_setBuf_self (r : BufRef) (x : List Byte) : (s.setBuf r x).buf r = x := by
  simp [buf_setBuf]

/-! ### Writes that absorb -/

@[simp] theorem setCaller_setCaller (c : Nat) (x y : Caller) :
    (s.setCaller c x).setCaller c y = s.setCaller c y := by simp [setCaller]

@[simp] theorem setBus_setBus (b : Nat) (x y : Bus) : (s.setBus b x).setBus b y = s.setBus b y := by
  simp [setBus]

@[simp] theorem setStr_setStr (i : Nat) (x y : Stream) : (s.setStr i x).setStr i y = s.setStr i y := by
  simp [setStr]

@[simp] theorem setPath_setPath (x y : Path) : (s.setPath x).setPath y = s.setPath y := rfl

@[simp] theorem setSlaves_setSlaves (x y : List Slave) : (s.setSlaves x).setSlaves y = s.setSlaves y := rfl

end Sys2Proof.Machine.State
end

