-- ==== Sys2Proof/Laws/Wire.lean ====
section
/-! SUPPORT. What the operations on the wire can do: each touches pins, transfer registers, trace and chips only
(`WireOnly`), and its effect on the trace and the pins. -/

namespace Sys2Proof.Machine

open State

/-! ### Nothing but the wire -/

theorem WireOnly.refl (s : State) : WireOnly s s := ⟨rfl, rfl, rfl, rfl, rfl, rfl, rfl, rfl, rfl⟩

theorem WireOnly.trans {s t u : State} (h : WireOnly s t) (k : WireOnly t u) : WireOnly s u :=
  ⟨k.cfg.trans h.cfg, k.buses.trans h.buses, k.strs.trans h.strs, k.faults.trans h.faults,
    k.callers.trans h.callers, k.bufs.trans h.bufs, k.lines.trans h.lines, k.sched.trans h.sched,
    k.cur.trans h.cur⟩

theorem WireOnly.bus {s t : State} (h : WireOnly s t) (b : Nat) : t.bus b = s.bus b := by
  simp only [State.bus, h.buses]

theorem WireOnly.caller {s t : State} (h : WireOnly s t) (c : Nat) : t.caller c = s.caller c := by
  simp only [State.caller, h.callers]

theorem WireOnly.str {s t : State} (h : WireOnly s t) (x : Nat) : t.str x = s.str x := by
  simp only [State.str, h.strs]

theorem WireOnly.line {s t : State} (h : WireOnly s t) (b : Nat) : t.line b = s.line b := by
  simp only [State.line, h.lines]

theorem WireOnly.buf {s t : State} (h : WireOnly s t) (r : BufRef) : t.buf r = s.buf r := by
  simp only [State.buf, h.bufs]

theorem wireOnly_setLvl (s : State) (p : Nat) (v : Level) : WireOnly s (s.setLvl p v) :=
  ⟨rfl, rfl, rfl, rfl, rfl, rfl, rfl, rfl, rfl⟩

theorem wireOnly_setPath (s : State) (p : Path) : WireOnly s (s.setPath p) :=
  ⟨rfl, rfl, rfl, rfl, rfl, rfl, rfl, rfl, rfl⟩

theorem wireOnly_emit (s : State) (e : Event) : WireOnly s (s.emit e) :=
  ⟨rfl, rfl, rfl, rfl, rfl, rfl, rfl, rfl, rfl⟩

theorem wireOnly_driveSck (s : State) (b p : Nat) (v : Level) : WireOnly s (s.driveSck b p v) :=
  ⟨rfl, rfl, rfl, rfl, rfl, rfl, rfl, rfl, rfl⟩

theorem wireOnly_toggleSck (s : State) (b p : Nat) : WireOnly s (s.toggleSck b p) :=
  ⟨rfl, rfl, rfl, rfl, rfl, rfl, rfl, rfl, rfl⟩

theorem wireOnly_driveMosi (s : State) (b p : Nat) (v : Level) : WireOnly s (s.driveMosi b p v) :=
  ⟨rfl, rfl, rfl, rfl, rfl, rfl, rfl, rfl, rfl⟩

theorem wireOnly_toggleCs (s : State) (h : Nat) : WireOnly s (s.toggleCs h) :=
  ⟨rfl, rfl, rfl, rfl, rfl, rfl, rfl, rfl, rfl⟩

theorem wireOnly_backendConfig (s : State) (b : Nat) : WireOnly s (s.backendConfig b) := by
  unfold backendConfig
  split
  · exact wireOnly_driveSck _ _ _ _
  · exact WireOnly.refl s

theorem wireOnly_bitStep0 (s : State) (b sck mosi : Nat) (x : Level) :
    WireOnly s (s.bitStep0 b sck mosi x).2 :=
  (((wireOnly_driveMosi s b mosi x).trans (wireOnly_toggleSck _ b sck)).trans (wireOnly_emit _ _)).trans
    (wireOnly_toggleSck _ b sck)

theorem wireOnly_bitStep1 (s : State) (b sck mosi : Nat) (x : Level) :
    WireOnly s (s.bitStep1 b sck mosi x).2 :=
  (((wireOnly_toggleSck s b sck).trans (wireOnly_driveMosi _ b mosi x)).trans (wireOnly_toggleSck _ b sck)).trans
    (wireOnly_emit _ _)

theorem wireOnly_swBitTime (s : State) (b sck mosi : Nat) : WireOnly s (s.swBitTime b sck mosi) := by
  unfold swBitTime
  split
  · dsimp only
    split
    · exact (wireOnly_bitStep1 s b sck mosi _).trans (wireOnly_setPath _ _)
    · exact (wireOnly_bitStep0 s b sck mosi _).trans (wireOnly_setPath _ _)
  · exact WireOnly.refl s
  · exact WireOnly.refl s

theorem wireOnly_swBitTimes (b sck mosi n : Nat) (s : State) : WireOnly s (swBitTimes b sck mosi n s) := by
  induction n generalizing s with
  | zero => exact WireOnly.refl s
  | succ n ih => exact (wireOnly_swBitTime s b sck mosi).trans (ih _)

theorem wireOnly_swExchange (s : State) (b sck mosi : Nat) (v : Byte) :
    WireOnly s (s.swExchange b sck mosi v).2 :=
  ((wireOnly_setPath s _).trans (wireOnly_swBitTimes b sck mosi 8 _)).trans (wireOnly_setPath _ _)

theorem wireOnly_hwExchange (s : State) (b : Nat) (t : Byte) : WireOnly s (s.hwExchange b t).2 :=
  ⟨rfl, rfl, rfl, rfl, rfl, rfl, rfl, rfl, rfl⟩

/-- A byte exchange touches the wire only (R174). -/
theorem wireOnly_exchange (s : State) (b : Nat) (v : Byte) : WireOnly s (s.exchange b v).2 := by
  unfold exchange
  split
  · exact wireOnly_swExchange _ _ _ _ _
  · exact wireOnly_hwExchange _ _ _

theorem wireOnly_exchangeAll (b : Nat) (ts : List Byte) (s : State) :
    WireOnly s (exchangeAll b ts s).2 := by
  induction ts generalizing s with
  | nil => exact WireOnly.refl s
  | cons t ts ih => exact (wireOnly_exchange s b t).trans (ih _)

/-- One reply per byte sent. -/
@[simp] theorem length_exchangeAll (b : Nat) (ts : List Byte) (s : State) :
    (exchangeAll b ts s).1.length = ts.length := by
  induction ts generalizing s with
  | nil => rfl
  | cons t ts ih => simp [exchangeAll, ih]

/-- The bytes of a list are exchanged in order: a list in two parts is two lists one after the other. -/
theorem exchangeAll_append (b : Nat) (ts us : List Byte) (s : State) :
    exchangeAll b (ts ++ us) s =
      ((exchangeAll b ts s).1 ++ (exchangeAll b us (exchangeAll b ts s).2).1,
        (exchangeAll b us (exchangeAll b ts s).2).2) := by
  induction ts generalizing s with
  | nil => simp [exchangeAll]
  | cons t ts ih => simp [exchangeAll, ih]

end Sys2Proof.Machine
end

