-- ==== Sys2Proof/Laws/Bits.lean ====
section
/-! SUPPORT. The shift registers of R166 against the indexed algorithm of R161 and the closed form of R166. -/

namespace Sys2Proof.Machine

/-- `OUT` after `k` bit times. -/
def outAfter (order : Order) (v : Byte) : Nat → Byte
  | 0 => v
  | k + 1 => shiftOutReg order (outAfter order v k)

/-- `IN` after `k` bit times with the given samples. -/
def inAfter (order : Order) (inn : Byte) (samples : Nat → Level) : Nat → Byte
  | 0 => inn
  | k + 1 => shiftInReg order (inAfter order inn samples k) (samples k)

theorem outAfter_succ' (order : Order) (v : Byte) (k : Nat) :
    outAfter order (shiftOutReg order v) k = outAfter order v (k + 1) := by
  induction k with
  | zero => rfl
  | succ k ih => exact congrArg (shiftOutReg order) ih

theorem inAfter_succ' (order : Order) (inn : Byte) (f : Nat → Level) (k : Nat) :
    inAfter order (shiftInReg order inn (f 0)) (fun j => f (j + 1)) k = inAfter order inn f (k + 1) := by
  induction k with
  | zero => rfl
  | succ k ih => exact congrArg (fun x => shiftInReg order x (f (k + 1))) ih

/-- The bit the register presents at bit time `k` is the bit R165 says. -/
theorem outBit_outAfter (order : Order) (v : Byte) (k : Nat) (hk : k < 8) :
    outBit order (outAfter order v k) = sentBit order v k := by
  cases order <;>
  · interval_cases k <;> simp [outAfter, outBit, shiftOutReg, sentBit, bitPos]

/-- Eight shifts assemble the samples as the closed form of R166 says. -/
theorem inAfter_eight (order : Order) (f : Nat → Level) :
    (inAfter order 0 f 8).toNat = assembled order f := by
  have key : ∀ (x0 x1 x2 x3 x4 x5 x6 x7 : Bool),
      (inAfter order 0 (fun k => [x0, x1, x2, x3, x4, x5, x6, x7].getD k false) 8).toNat =
        assembled order (fun k => [x0, x1, x2, x3, x4, x5, x6, x7].getD k false) := by
    cases order <;> decide
  have h := key (f 0) (f 1) (f 2) (f 3) (f 4) (f 5) (f 6) (f 7)
  simpa [inAfter, assembled, List.range, List.range.loop] using h

/-- A byte sent and sampled bit by bit comes back (R167). -/
theorem inAfter_sentBit (order : Order) (v : Byte) :
    inAfter order 0 (fun k => sentBit order v k) 8 = v := by
  revert v
  cases order <;> decide

end Sys2Proof.Machine
end

