-- ==== Sys2Proof/Laws/Exchange.lean ====
section
/-! SUPPORT. What one byte exchange does on either backend: the events of R164, the received byte of R166, the
clock back at idle (R168), the output data line at the last bit (R170). -/

namespace Sys2Proof.Machine

open State

/-! ### Hearing -/

@[simp] theorem hear_smp (cfg : Config) (b : Nat) (x : Level) (xs : List Slave) :
    hear cfg (.smp b x) xs = xs := by
  have : Slave.react cfg (.smp b x) = id := rfl
  simp [hear, this]

@[simp] theorem hearAll_nil (cfg : Config) (xs : List Slave) : hearAll cfg [] xs = xs := rfl

@[simp] theorem hearAll_cons (cfg : Config) (e : Event) (es : List Event) (xs : List Slave) :
    hearAll cfg (e :: es) xs = hearAll cfg es (hear cfg e xs) := rfl

@[simp] theorem hearAll_append (cfg : Config) (es fs : List Event) (xs : List Slave) :
    hearAll cfg (es ++ fs) xs = hearAll cfg fs (hearAll cfg es xs) := by
  simp [hearAll]

/-! ### The answer of the environment reads line, trace and chips only -/

theorem miso_congr {s t : State} (b : Nat) (hl : t.lines = s.lines) (hc : t.cfg = s.cfg)
    (ht : t.trace = s.trace) (hs : t.slaves = s.slaves) : t.miso b = s.miso b := by
  simp only [miso, State.line, hl, hc, ht, hs]

@[simp] theorem after_trace (s : State) (es : List Event) : (s.after es).trace = s.trace ++ es := rfl

@[simp] theorem after_slaves (s : State) (es : List Event) :
    (s.after es).slaves = hearAll s.cfg es s.slaves := rfl

theorem miso_after_append {s t : State} (b : Nat) (es fs : List Event) (hl : t.lines = s.lines)
    (hc : t.cfg = s.cfg) (ht : t.trace = s.trace ++ es) (hs : t.slaves = hearAll s.cfg es s.slaves) :
    (t.after fs).miso b = (s.after (es ++ fs)).miso b := by
  apply miso_congr
  · exact hl
  · exact hc
  · simp [ht]
  · simp [hs, hc]

/-! ### Emitting -/

@[simp] theorem emit_trace (s : State) (e : Event) : (s.emit e).trace = s.trace ++ [e] := rfl

@[simp] theorem emit_slaves (s : State) (e : Event) : (s.emit e).slaves = hear s.cfg e s.slaves := rfl

@[simp] theorem emit_pins (s : State) (e : Event) : (s.emit e).pins = s.pins := rfl

@[simp] theorem emit_pin (s : State) (e : Event) (p : Nat) : (s.emit e).pin p = s.pin p := rfl

@[simp] theorem emit_lvl (s : State) (e : Event) (p : Nat) : (s.emit e).lvl p = s.lvl p := rfl

@[simp] theorem emit_cfg (s : State) (e : Event) : (s.emit e).cfg = s.cfg := rfl

@[simp] theorem emit_lines (s : State) (e : Event) : (s.emit e).lines = s.lines := rfl

@[simp] theorem emit_path (s : State) (e : Event) : (s.emit e).path = s.path := rfl

/-! ### One bit time of the software backend -/

/-- The pins after a bit time with clock pin `sck` and data pin `mosi`: the clock is where it was, the data
line has the bit, nothing else has moved and no direction has changed (R168, R170, R174). -/
structure BitPins (mosi : Nat) (bit : Level) (s t : State) : Prop where
  lvl : ∀ p, t.lvl p = if p = mosi then bit else s.lvl p
  dir : ∀ p, (t.pin p).dir = (s.pin p).dir
  sorted : (s.pins.map Prod.fst).Pairwise (· < ·) → (t.pins.map Prod.fst).Pairwise (· < ·)

theorem bitStep0_pins (s : State) (b sck mosi : Nat) (bit : Level) (hne : sck ≠ mosi) :
    BitPins mosi bit s (s.bitStep0 b sck mosi bit).2 where
  lvl p := by
    simp only [bitStep0, toggleSck, driveSck, driveMosi, emit_lvl, lvl_setLvl, hne, if_false]
    by_cases hp : p = sck
    · simp [hp, hne]
    · simp [hp]
  dir p := by simp [bitStep0, toggleSck, driveSck, driveMosi]
  sorted h := sorted_mapPut _ _ _ (sorted_mapPut _ _ _ (sorted_mapPut _ _ _ h))

theorem bitStep1_pins (s : State) (b sck mosi : Nat) (bit : Level) (hne : sck ≠ mosi) :
    BitPins mosi bit s (s.bitStep1 b sck mosi bit).2 where
  lvl p := by
    simp only [bitStep1, toggleSck, driveSck, driveMosi, emit_lvl, lvl_setLvl, hne, if_false]
    by_cases hp : p = sck
    · simp [hp, hne]
    · simp [hp]
  dir p := by simp [bitStep1, toggleSck, driveSck, driveMosi]
  sorted h := sorted_mapPut _ _ _ (sorted_mapPut _ _ _ (sorted_mapPut _ _ _ h))

/-- `BitStep0` from an idle clock (R162). -/
theorem bitStep0_spec (s : State) (b sck mosi : Nat) (bit : Level) (mode : Mode) (hne : sck ≠ mosi)
    (hm : mode.cpha = false) (hc : s.lvl sck = mode.cpol) :
    let x := (s.after (samplePrefix b mode bit)).miso b
    (s.bitStep0 b sck mosi bit).1 = x ∧
    (s.bitStep0 b sck mosi bit).2.trace = s.trace ++ bitEvents b mode bit x ∧
    (s.bitStep0 b sck mosi bit).2.slaves = hearAll s.cfg (bitEvents b mode bit x) s.slaves := by
  have hx : ((s.driveMosi b mosi bit).toggleSck b sck).miso b =
      (s.after (samplePrefix b mode bit)).miso b := by
    apply miso_congr
    · rfl
    · rfl
    · simp [samplePrefix, hm, toggleSck, driveSck, driveMosi, lvl_setLvl, hne, hc]
    · simp [samplePrefix, hm, toggleSck, driveSck, driveMosi, lvl_setLvl, hne, hc]
  refine ⟨hx, ?_, ?_⟩
  · simp only [bitStep0, hx]
    simp [bitEvents, hm, toggleSck, driveSck, driveMosi, lvl_setLvl, hne, hc]
  · simp only [bitStep0, hx]
    simp [bitEvents, hm, toggleSck, driveSck, driveMosi, lvl_setLvl, hne, hc]

/-- `BitStep1` from an idle clock (R163). -/
theorem bitStep1_spec (s : State) (b sck mosi : Nat) (bit : Level) (mode : Mode) (hne : sck ≠ mosi)
    (hm : mode.cpha = true) (hc : s.lvl sck = mode.cpol) :
    let x := (s.after (samplePrefix b mode bit)).miso b
    (s.bitStep1 b sck mosi bit).1 = x ∧
    (s.bitStep1 b sck mosi bit).2.trace = s.trace ++ bitEvents b mode bit x ∧
    (s.bitStep1 b sck mosi bit).2.slaves = hearAll s.cfg (bitEvents b mode bit x) s.slaves := by
  have hx : (((s.toggleSck b sck).driveMosi b mosi bit).toggleSck b sck).miso b =
      (s.after (samplePrefix b mode bit)).miso b := by
    apply miso_congr
    · rfl
    · rfl
    · simp [samplePrefix, hm, toggleSck, driveSck, driveMosi, lvl_setLvl, hne, hc]
    · simp [samplePrefix, hm, toggleSck, driveSck, driveMosi, lvl_setLvl, hne, hc]
  refine ⟨hx, ?_, ?_⟩
  · simp only [bitStep1, hx]
    simp [bitEvents, hm, toggleSck, driveSck, driveMosi, lvl_setLvl, hne, hc]
  · simp only [bitStep1, hx]
    simp [bitEvents, hm, toggleSck, driveSck, driveMosi, lvl_setLvl, hne, hc]

/-- One bit time from an idle clock (R161 to R164, R166). -/
theorem swBitTime_spec (s : State) (b sck mosi : Nat) (out inn : Byte) (k : Nat) (hne : sck ≠ mosi)
    (hp : s.path = .sw b out inn k) (hc : s.lvl sck = (s.bus b).mode.cpol) :
    let bit := outBit (s.bus b).order out
    let x := (s.after (samplePrefix b (s.bus b).mode bit)).miso b
    let t := s.swBitTime b sck mosi
    t.path = .sw b (shiftOutReg (s.bus b).order out) (shiftInReg (s.bus b).order inn x) (k + 1) ∧
    t.trace = s.trace ++ bitEvents b (s.bus b).mode bit x ∧
    t.slaves = hearAll s.cfg (bitEvents b (s.bus b).mode bit x) s.slaves ∧
    BitPins mosi bit s t := by
  dsimp only
  unfold swBitTime
  simp only [hp]
  cases hm : (s.bus b).mode.cpha
  · obtain ⟨h1, h2, h3⟩ := bitStep0_spec s b sck mosi (outBit (s.bus b).order out) _ hne hm hc
    have h4 := bitStep0_pins s b sck mosi (outBit (s.bus b).order out) hne
    exact ⟨by rw [if_neg (by decide), setPath_path, h1], h2, h3, ⟨h4.lvl, h4.dir, h4.sorted⟩⟩
  · obtain ⟨h1, h2, h3⟩ := bitStep1_spec s b sck mosi (outBit (s.bus b).order out) _ hne hm hc
    have h4 := bitStep1_pins s b sck mosi (outBit (s.bus b).order out) hne
    exact ⟨by rw [if_pos rfl, setPath_path, h1], h2, h3, ⟨h4.lvl, h4.dir, h4.sorted⟩⟩

/-! ### Eight bit times -/

theorem swBitTimes_succ (b sck mosi n : Nat) (s : State) :
    swBitTimes b sck mosi (n + 1) s = (swBitTimes b sck mosi n s).swBitTime b sck mosi := by
  induction n generalizing s with
  | zero => rfl
  | succ n ih => exact ih _

theorem bitsEvents_succ (b : Nat) (mode : Mode) (order : Order) (v : Byte) (f : Nat → Level) (n : Nat) :
    bitsEvents b mode order v f (n + 1) =
      bitsEvents b mode order v f n ++ bitEvents b mode (sentBit order v n) (f n) := by
  simp [bitsEvents, List.range_succ]

theorem bitsEvents_congr (b : Nat) (mode : Mode) (order : Order) (v : Byte) {f g : Nat → Level} {n : Nat}
    (h : ∀ k, k < n → f k = g k) : bitsEvents b mode order v f n = bitsEvents b mode order v g n := by
  induction n with
  | zero => rfl
  | succ n ih =>
    rw [bitsEvents_succ, bitsEvents_succ, ih fun k hk => h k (by omega), h n (by omega)]

theorem inAfter_congr (order : Order) (i : Byte) {f g : Nat → Level} {n : Nat}
    (h : ∀ k, k < n → f k = g k) : inAfter order i f n = inAfter order i g n := by
  induction n with
  | zero => rfl
  | succ n ih => simp only [inAfter, ih fun k hk => h k (by omega), h n (by omega)]

theorem sampleAt_congr (s : State) (b : Nat) (mode : Mode) (order : Order) (v : Byte) {f g : Nat → Level}
    {k : Nat} (h : ∀ j, j < k → f j = g j) :
    s.sampleAt b mode order v f k = s.sampleAt b mode order v g k := by
  simp only [sampleAt, bitsEvents_congr b mode order v h]

theorem swBitTime_pins (s : State) (b sck mosi : Nat) (hne : sck ≠ mosi) :
    (∀ p, p ≠ mosi → (s.swBitTime b sck mosi).lvl p = s.lvl p) ∧
    (∀ p, ((s.swBitTime b sck mosi).pin p).dir = (s.pin p).dir) ∧
    ((s.pins.map Prod.fst).Pairwise (· < ·) →
      ((s.swBitTime b sck mosi).pins.map Prod.fst).Pairwise (· < ·)) := by
  unfold swBitTime
  split
  · rename_i out inn k _
    dsimp only
    split
    · have h := bitStep1_pins s b sck mosi (outBit (s.bus b).order out) hne
      exact ⟨fun p hp => by simp [h.lvl, hp], fun p => h.dir p, h.sorted⟩
    · have h := bitStep0_pins s b sck mosi (outBit (s.bus b).order out) hne
      exact ⟨fun p hp => by simp [h.lvl, hp], fun p => h.dir p, h.sorted⟩
  · exact ⟨fun _ _ => rfl, fun _ => rfl, fun h => h⟩
  · exact ⟨fun _ _ => rfl, fun _ => rfl, fun h => h⟩

/-- Bit times leave every pin but the output data line where it was (R168, R174). -/
theorem swBitTimes_pins (s : State) (b sck mosi n : Nat) (hne : sck ≠ mosi) :
    (∀ p, p ≠ mosi → (swBitTimes b sck mosi n s).lvl p = s.lvl p) ∧
    (∀ p, ((swBitTimes b sck mosi n s).pin p).dir = (s.pin p).dir) ∧
    ((s.pins.map Prod.fst).Pairwise (· < ·) →
      ((swBitTimes b sck mosi n s).pins.map Prod.fst).Pairwise (· < ·)) := by
  induction n with
  | zero => exact ⟨fun _ _ => rfl, fun _ => rfl, fun h => h⟩
  | succ n ih =>
    rw [swBitTimes_succ]
    have h := swBitTime_pins (swBitTimes b sck mosi n s) b sck mosi hne
    exact ⟨fun p hp => (h.1 p hp).trans (ih.1 p hp), fun p => (h.2.1 p).trans (ih.2.1 p),
      fun hs => h.2.2 (ih.2.2 hs)⟩

/-- What `n` bit times of a byte `v` have done, begun at state `s` with an idle clock: the events of R164 with
samples that are the environment's answers, and the registers of R166. -/
structure BitsDone (s t : State) (b mosi : Nat) (v : Byte) (f : Nat → Level) (n : Nat) : Prop where
  wire : WireOnly s t
  samples : ∀ k, k < n → f k = s.sampleAt b (s.bus b).mode (s.bus b).order v f k
  path : t.path = .sw b (outAfter (s.bus b).order v n) (inAfter (s.bus b).order 0 f n) n
  trace : t.trace = s.trace ++ bitsEvents b (s.bus b).mode (s.bus b).order v f n
  slaves : t.slaves = hearAll s.cfg (bitsEvents b (s.bus b).mode (s.bus b).order v f n) s.slaves
  lvl : ∀ p, t.lvl p = if p = mosi ∧ 0 < n then sentBit (s.bus b).order v (n - 1) else s.lvl p
  dir : ∀ p, (t.pin p).dir = (s.pin p).dir

theorem swBitTimes_spec (s : State) (b sck mosi : Nat) (v : Byte) (hne : sck ≠ mosi)
    (hc : s.lvl sck = (s.bus b).mode.cpol) (n : Nat) (hn : n ≤ 8) :
    ∃ f, BitsDone s (swBitTimes b sck mosi n (s.setPath (.sw b v 0 0))) b mosi v f n := by
  induction n with
  | zero =>
    exact ⟨fun _ => false, wireOnly_setPath s _, by simp, rfl, by simp [bitsEvents, swBitTimes],
      by simp [bitsEvents, swBitTimes], by simp [swBitTimes], fun _ => rfl⟩
  | succ n ih =>
    obtain ⟨f, h⟩ := ih (by omega)
    rw [swBitTimes_succ]
    generalize swBitTimes b sck mosi n (s.setPath (.sw b v 0 0)) = t at h ⊢
    have hbus : t.bus b = s.bus b := h.wire.bus b
    have hct : t.lvl sck = (t.bus b).mode.cpol := by rw [h.lvl, hbus]; simp [hne, hc]
    obtain ⟨h1, h2, h3, h4⟩ := swBitTime_spec t b sck mosi _ _ _ hne h.path hct
    rw [hbus, outBit_outAfter _ _ _ (by omega)] at h1 h2 h3 h4
    have hx : (t.after (samplePrefix b (s.bus b).mode (sentBit (s.bus b).order v n))).miso b =
        s.sampleAt b (s.bus b).mode (s.bus b).order v f n :=
      miso_after_append b _ _ h.wire.lines h.wire.cfg h.trace h.slaves
    rw [hx] at h1 h2 h3
    have hg : ∀ k, k < n → f k = Function.update f n (s.sampleAt b (s.bus b).mode (s.bus b).order v f n) k :=
      fun k hk => by rw [Function.update_of_ne (by omega)]
    refine ⟨Function.update f n (s.sampleAt b (s.bus b).mode (s.bus b).order v f n),
      h.wire.trans (wireOnly_swBitTime t b sck mosi), ?_, ?_, ?_, ?_, ?_, ?_⟩
    · intro k hk
      by_cases hkn : k = n
      · subst hkn
        rw [Function.update_self]
        exact sampleAt_congr s b _ _ v hg
      · rw [Function.update_of_ne hkn, h.samples k (by omega)]
        exact sampleAt_congr s b _ _ v fun j hj => hg j (by omega)
    · rw [h1, outAfter, inAfter, Function.update_self, ← inAfter_congr _ _ hg]
    · rw [h2, h.trace, bitsEvents_succ, Function.update_self, ← bitsEvents_congr b _ _ v hg,
        List.append_assoc]
    · rw [h3, h.slaves, bitsEvents_succ, Function.update_self, ← bitsEvents_congr b _ _ v hg,
        hearAll_append, h.wire.cfg]
    · intro p
      rw [h4.lvl, h.lvl]
      by_cases hp : p = mosi <;> simp [hp]
    · intro p
      rw [h4.dir, h.dir]

/-- What one byte exchange of a `sw` bus does, begun with an idle clock: the 32 events of R164 whose samples
are the environment's answers, the received byte of R166, the data line at the last bit (R170), every other pin
as before (R168, R174). -/
structure ByteDone (s : State) (b mosi : Nat) (v : Byte) (f : Nat → Level) (r : Byte) (t : State) : Prop where
  wire : WireOnly s t
  samples : ∀ k, k < 8 → f k = s.sampleAt b (s.bus b).mode (s.bus b).order v f k
  result : r = inAfter (s.bus b).order 0 f 8
  trace : t.trace = s.trace ++ byteEvents b (s.bus b).mode (s.bus b).order v f
  slaves : t.slaves = hearAll s.cfg (byteEvents b (s.bus b).mode (s.bus b).order v f) s.slaves
  path : t.path = .idle
  lvl : ∀ p, t.lvl p = if p = mosi then sentBit (s.bus b).order v 7 else s.lvl p
  dir : ∀ p, (t.pin p).dir = (s.pin p).dir

theorem swExchange_eq (s : State) (b sck mosi : Nat) (v : Byte) :
    s.swExchange b sck mosi v =
      ((swBitTimes b sck mosi 8 (s.setPath (.sw b v 0 0))).received,
        (swBitTimes b sck mosi 8 (s.setPath (.sw b v 0 0))).setPath .idle) := rfl

theorem swExchange_spec (s : State) (b sck mosi : Nat) (v : Byte) (hne : sck ≠ mosi)
    (hc : s.lvl sck = (s.bus b).mode.cpol) :
    ∃ f, ByteDone s b mosi v f (s.swExchange b sck mosi v).1 (s.swExchange b sck mosi v).2 := by
  obtain ⟨f, h⟩ := swBitTimes_spec s b sck mosi v hne hc 8 (le_refl 8)
  rw [swExchange_eq]
  generalize swBitTimes b sck mosi 8 (s.setPath (.sw b v 0 0)) = t at h ⊢
  refine ⟨f, h.wire.trans (wireOnly_setPath _ _), h.samples, ?_, h.trace, h.slaves, rfl, ?_, h.dir⟩
  · simp only [received, h.path]
  · intro p
    simpa using h.lvl p

/-- The received byte in the closed form of R166. -/
theorem ByteDone.assembled {s t : State} {b mosi : Nat} {v r : Byte} {f : Nat → Level}
    (h : ByteDone s b mosi v f r t) : r.toNat = Sys2Proof.Machine.assembled (s.bus b).order f := by
  rw [h.result, inAfter_eight]

/-! ### The hardware backend -/

/-- One bit time of a `hw` bus: the environment hears and answers what it would on a `sw` bus (R147, R79). -/
theorem hwBitTime_spec (s : State) (b : Nat) (mode : Mode) (bit : Level) :
    let x := (s.after (samplePrefix b mode bit)).miso b
    (s.hwBitTime b mode bit).1 = x ∧
    (s.hwBitTime b mode bit).2.trace = s.trace ++ bitEvents b mode bit x ∧
    (s.hwBitTime b mode bit).2.slaves = hearAll s.cfg (bitEvents b mode bit x) s.slaves ∧
    (s.hwBitTime b mode bit).2.cfg = s.cfg ∧ (s.hwBitTime b mode bit).2.lines = s.lines := by
  cases hm : mode.cpha
  · have hx : ((s.emit (.mosi b bit)).emit (.sck b (!mode.cpol))).miso b =
        (s.after (samplePrefix b mode bit)).miso b := by
      apply miso_congr <;> first | rfl | simp [samplePrefix, hm]
    refine ⟨?_, ?_, ?_, ?_, ?_⟩ <;> simp [hwBitTime, hm, hx, bitEvents]
  · have hx : (((s.emit (.sck b (!mode.cpol))).emit (.mosi b bit)).emit (.sck b mode.cpol)).miso b =
        (s.after (samplePrefix b mode bit)).miso b := by
      apply miso_congr <;> first | rfl | simp [samplePrefix, hm]
    refine ⟨?_, ?_, ?_, ?_, ?_⟩ <;> simp [hwBitTime, hm, hx, bitEvents]

/-- The environment's answers to the eight bit times of a byte are determined one after the other. -/
theorem exists_samples (s : State) (b : Nat) (mode : Mode) (order : Order) (v : Byte) (n : Nat) :
    ∃ f : Nat → Level, ∀ k, k < n → f k = s.sampleAt b mode order v f k := by
  induction n with
  | zero => exact ⟨fun _ => false, fun k hk => absurd hk (Nat.not_lt_zero k)⟩
  | succ n ih =>
    obtain ⟨f, hf⟩ := ih
    have hg : ∀ k, k < n → f k = Function.update f n (s.sampleAt b mode order v f n) k :=
      fun k hk => by rw [Function.update_of_ne (by omega)]
    refine ⟨Function.update f n (s.sampleAt b mode order v f n), fun k hk => ?_⟩
    by_cases hkn : k = n
    · subst hkn
      rw [Function.update_self]
      exact sampleAt_congr s b _ _ v hg
    · rw [Function.update_of_ne hkn, hf k (by omega)]
      exact sampleAt_congr s b _ _ v fun j hj => hg j (by omega)

theorem samples_unique {s : State} {b : Nat} {mode : Mode} {order : Order} {v : Byte} {f g : Nat → Level} {n : Nat}
    (hf : ∀ k, k < n → f k = s.sampleAt b mode order v f k)
    (hg : ∀ k, k < n → g k = s.sampleAt b mode order v g k) : ∀ k, k < n → f k = g k := by
  intro k
  induction k using Nat.strong_induction_on with
  | _ k ih =>
    intro hk
    rw [hf k hk, hg k hk]
    exact sampleAt_congr s b mode order v fun j hj => ih j hj (by omega)

/-- `n` bit times of a `hw` bus from bit time `k` on. -/
theorem hwBitTimes_spec (s : State) (b : Nat) (mode : Mode) (order : Order) (v : Byte) (f : Nat → Level)
    (hf : ∀ k, k < 8 → f k = s.sampleAt b mode order v f k) (n k : Nat) (hk : k + n = 8) (u : State)
    (hc : u.cfg = s.cfg) (hl : u.lines = s.lines) (ht : u.trace = s.trace ++ bitsEvents b mode order v f k)
    (hs : u.slaves = hearAll s.cfg (bitsEvents b mode order v f k) s.slaves) :
    (hwBitTimes b mode order n (outAfter order v k) (inAfter order 0 f k) u).1 = inAfter order 0 f 8 ∧
    (hwBitTimes b mode order n (outAfter order v k) (inAfter order 0 f k) u).2.slaves =
      hearAll s.cfg (byteEvents b mode order v f) s.slaves := by
  induction n generalizing k u with
  | zero =>
    have : k = 8 := by omega
    subst this
    exact ⟨rfl, hs⟩
  | succ n ih =>
    obtain ⟨h1, h2, h3, h4, h5⟩ := hwBitTime_spec u b mode (sentBit order v k)
    have hx : (u.after (samplePrefix b mode (sentBit order v k))).miso b = f k :=
      (miso_after_append b _ _ hl hc ht hs).trans (hf k (by omega)).symm
    rw [hx] at h1 h2 h3
    simp only [hwBitTimes, outBit_outAfter order v k (by omega), h1]
    refine ih (k + 1) (by omega) _ (h4.trans hc) (h5.trans hl) ?_ ?_
    · rw [h2, ht, bitsEvents_succ, List.append_assoc]
    · rw [h3, hs, hc, bitsEvents_succ, hearAll_append]

/-- The byte of a `hw` bus is made of the answers the same environment gives bit by bit (R79, D18). -/
theorem hwWire_spec (s : State) (b : Nat) (v : Byte) :
    ∃ f, (∀ k, k < 8 → f k = s.sampleAt b (s.bus b).mode (s.bus b).order v f k) ∧
      (s.hwWire b v).1 = inAfter (s.bus b).order 0 f 8 ∧
      (s.hwWire b v).2.slaves = hearAll s.cfg (byteEvents b (s.bus b).mode (s.bus b).order v f) s.slaves := by
  obtain ⟨f, hf⟩ := exists_samples s b (s.bus b).mode (s.bus b).order v 8
  obtain ⟨h1, h2⟩ := hwBitTimes_spec s b _ _ v f hf 8 0 rfl s rfl rfl (by simp [bitsEvents]) (by simp [bitsEvents])
  exact ⟨f, hf, h1, h2⟩

theorem hwExchange_eq (s : State) (b : Nat) (v : Byte) :
    (s.hwExchange b v).1 = (s.hwWire b v).1 ∧ (s.hwExchange b v).2.slaves = (s.hwWire b v).2.slaves ∧
      (s.hwExchange b v).2.trace = s.trace ++ [.xch b v (s.hwWire b v).1] := ⟨rfl, rfl, rfl⟩

/-- One byte exchange on either backend, as the environment sees it (R79, R147, R161): the samples are its answers, the
received byte is made of them (R166), the chips hear the 32 events. On a `sw` bus the clock is idle. -/
theorem exchange_spec (s : State) (b : Nat) (v : Byte)
    (hc : ∀ sck mosi miso, s.cfg.backend b = .sw sck mosi miso → sck ≠ mosi ∧ s.lvl sck = (s.bus b).mode.cpol) :
    ∃ f, (∀ k, k < 8 → f k = s.sampleAt b (s.bus b).mode (s.bus b).order v f k) ∧
      (s.exchange b v).1 = inAfter (s.bus b).order 0 f 8 ∧
      (s.exchange b v).2.slaves = hearAll s.cfg (byteEvents b (s.bus b).mode (s.bus b).order v f) s.slaves := by
  unfold exchange
  split
  · rename_i sck mosi miso hb
    obtain ⟨f, h⟩ := swExchange_spec s b sck mosi v (hc _ _ _ hb).1 (hc _ _ _ hb).2
    exact ⟨f, h.samples, h.result, h.slaves⟩
  · obtain ⟨f, h1, h2, h3⟩ := hwWire_spec s b v
    exact ⟨f, h1, h2, h3⟩

/-! ### Exchanges and the pins, whatever the clock -/

/-- A byte exchange on bus `b` leaves every pin but that bus's output data line where it was, changes no
direction, keeps the pins sorted, and leaves no transfer in progress. -/
theorem exchange_pins (s : State) (b : Nat) (v : Byte)
    (hne : ∀ sck mosi miso, s.cfg.backend b = .sw sck mosi miso → sck ≠ mosi) :
    (∀ p, (∀ sck mosi miso, s.cfg.backend b = .sw sck mosi miso → p ≠ mosi) →
      (s.exchange b v).2.lvl p = s.lvl p) ∧
    (∀ p, ((s.exchange b v).2.pin p).dir = (s.pin p).dir) ∧
    ((s.pins.map Prod.fst).Pairwise (· < ·) →
      ((s.exchange b v).2.pins.map Prod.fst).Pairwise (· < ·)) ∧
    (s.exchange b v).2.path = .idle := by
  unfold exchange
  split
  · rename_i sck mosi miso hb
    have h := swBitTimes_pins (s.setPath (.sw b v 0 0)) b sck mosi 8 (hne _ _ _ hb)
    rw [swExchange_eq]
    generalize swBitTimes b sck mosi 8 (s.setPath (.sw b v 0 0)) = t at h ⊢
    exact ⟨fun p hp => h.1 p (hp _ _ _ hb), fun p => h.2.1 p, h.2.2, rfl⟩
  · exact ⟨fun _ _ => rfl, fun _ => rfl, fun h => h, rfl⟩

end Sys2Proof.Machine
end

