-- ==== Sys2Proof/Laws/ChipByte.lean ====
section
/-! SUPPORT. The byte-level view of a reference slave (R78): eight bit times of the master's algorithm in the
slave's own mode and order make it receive the byte sent and send the byte it had loaded, on either backend. -/

namespace Sys2Proof.Machine

open State

/-! ### Setting bits -/

theorem getLsbD_setBit (v : Byte) (p : Nat) (x : Level) (i : Nat) (hp : p < 8) :
    (setBit v p x).getLsbD i = if i = p then x else v.getLsbD i := by
  revert v
  unfold setBit
  by_cases hi : i < 8
  · interval_cases p <;> interval_cases i <;> cases x <;> simp
  · intro v
    have hne : i ≠ p := by omega
    rw [if_neg hne, BitVec.getLsbD_of_ge _ _ (by omega), BitVec.getLsbD_of_ge _ _ (by omega)]

theorem bitPos_lt (order : Order) (k : Nat) (hk : k < 8) : bitPos order k < 8 := by
  cases order <;> simp only [bitPos] <;> omega

/-- `R` after `n` samples of the bits of `v`. -/
def rxAfter (order : Order) (r v : Byte) : Nat → Byte
  | 0 => r
  | n + 1 => setBit (rxAfter order r v n) (bitPos order n) (sentBit order v n)

theorem getLsbD_rxAfter (order : Order) (r v : Byte) (n : Nat) (hn : n ≤ 8) (i : Nat) :
    (rxAfter order r v n).getLsbD i =
      if (∃ j, j < n ∧ bitPos order j = i) then v.getLsbD i else r.getLsbD i := by
  induction n with
  | zero => simp [rxAfter]
  | succ n ih =>
    rw [rxAfter, getLsbD_setBit _ _ _ _ (bitPos_lt order n (by omega)), ih (by omega)]
    by_cases h : i = bitPos order n
    · rw [if_pos h, if_pos ⟨n, by omega, h.symm⟩, sentBit, h]
    · rw [if_neg h]
      have hiff : (∃ j, j < n ∧ bitPos order j = i) ↔ (∃ j, j < n + 1 ∧ bitPos order j = i) := by
        constructor
        · rintro ⟨j, hj, hji⟩
          exact ⟨j, by omega, hji⟩
        · rintro ⟨j, hj, hji⟩
          rcases Nat.lt_succ_iff_lt_or_eq.1 hj with hlt | rfl
          · exact ⟨j, hlt, hji⟩
          · exact absurd hji.symm h
      simp only [hiff]

/-- Eight samples of the bits of `v` are `v`, whatever `R` held. -/
theorem rxAfter_eight (order : Order) (r v : Byte) : rxAfter order r v 8 = v := by
  apply BitVec.eq_of_getLsbD_eq
  intro i hi
  rw [getLsbD_rxAfter order r v 8 (le_refl 8) i, if_pos]
  exact ⟨bitPos order i, by cases order <;> simp only [bitPos] <;> omega,
    by cases order <;> simp only [bitPos]; omega⟩

/-! ### One bit time at the slave -/

/-- What one bit time in its own mode makes of a selected slave. -/
def Slave.bit (x : Slave) (bit : Level) : Slave :=
  if x.mode.cpha then ({ x.shiftOut with din := bit }.sampleIn).advance
  else (({ x with din := bit }.sampleIn).advance).shiftOut

/-- The slave at the sampling point of a bit time. -/
def Slave.midBit (x : Slave) (bit : Level) : Slave :=
  if x.mode.cpha then ({ x.shiftOut with din := bit }.sampleIn).advance else { x with din := bit }.sampleIn

@[simp] theorem Slave.advance_fields (x : Slave) :
    x.advance.mode = x.mode ∧ x.advance.order = x.order ∧ x.advance.h = x.h ∧ x.advance.sel = x.sel ∧
      x.advance.q = x.q := by
  unfold Slave.advance
  split <;> simp [Slave.load]

theorem hearAll_bitEvents (cfg : Config) (b : Nat) (mode : Mode) (bit s : Level) (xs : List Slave) :
    hearAll cfg (bitEvents b mode bit s) xs =
      if mode.cpha then hearAll cfg (samplePrefix b mode bit) xs
      else hear cfg (.sck b mode.cpol) (hearAll cfg (samplePrefix b mode bit) xs) := by
  cases h : mode.cpha <;> simp [bitEvents, samplePrefix, h]

theorem hear_cons (cfg : Config) (e : Event) (x : Slave) (xs : List Slave) :
    hear cfg e (x :: xs) = x.react cfg e :: hear cfg e xs := rfl

theorem hear_append (cfg : Config) (e : Event) (xs ys : List Slave) :
    hear cfg e (xs ++ ys) = hear cfg e xs ++ hear cfg e ys := by simp [hear]

theorem hearAll_app (cfg : Config) (es : List Event) (xs ys : List Slave) :
    hearAll cfg es (xs ++ ys) = hearAll cfg es xs ++ hearAll cfg es ys := by
  induction es generalizing xs ys with
  | nil => rfl
  | cons e es ih => simp [hear_append, ih]

/-- One slave alone hears events one by one. -/
def Slave.hears (cfg : Config) (es : List Event) (x : Slave) : Slave :=
  es.foldl (fun y e => Slave.react cfg e y) x

theorem hearAll_map (cfg : Config) (es : List Event) (xs : List Slave) :
    hearAll cfg es xs = xs.map (Slave.hears cfg es) := by
  induction es generalizing xs with
  | nil =>
    have h : Slave.hears cfg [] = id := rfl
    simp [h]
  | cons e es ih =>
    rw [hearAll_cons, ih, hear, List.map_map]
    rfl

theorem hearAll_cons_slave (cfg : Config) (es : List Event) (x : Slave) (xs : List Slave) :
    hearAll cfg es (x :: xs) = x.hears cfg es :: hearAll cfg es xs := by
  simp [hearAll_map]

theorem Slave.hears_append (cfg : Config) (es fs : List Event) (x : Slave) :
    x.hears cfg (es ++ fs) = (x.hears cfg es).hears cfg fs := by
  simp [Slave.hears]

/-- A selected slave in the session's mode, at the sampling point and after the bit time (R77 against R162,
R163). -/
theorem Slave.hears_bit (cfg : Config) (b : Nat) (mode : Mode) (bit s : Level) (x : Slave)
    (hb : cfg.busOf x.h = b) (hs : x.sel = true) (hm : x.mode = mode) :
    x.hears cfg (samplePrefix b mode bit) = x.midBit bit ∧
      x.hears cfg (bitEvents b mode bit s) = x.bit bit := by
  subst hb hm
  have ht : ∀ y : Slave, y.shiftOut.h = y.h ∧ y.sampleIn.h = y.h ∧ y.shiftOut.sel = y.sel ∧
      y.sampleIn.sel = y.sel ∧ y.shiftOut.mode = y.mode ∧ y.sampleIn.mode = y.mode :=
    fun y => ⟨rfl, rfl, rfl, rfl, rfl, rfl⟩
  cases h : x.mode.cpha <;>
    simp [Slave.hears, samplePrefix, bitEvents, Slave.react, Slave.midBit, Slave.bit, h, hs, Slave.leading,
      Slave.trailing, ht]

/-! ### Eight bit times at the slave -/

/-- The slave with `n < 8` bits of a byte `v` behind it. -/
def Slave.atBit (x : Slave) (v : Byte) (n : Nat) (q din : Level) : Slave :=
  { x with rx := rxAfter x.order x.rx v n, k := n, q := q, din := din }

theorem Slave.atBit_bit (x : Slave) (v : Byte) (n : Nat) (q din : Level) (hn : n < 7) :
    (x.atBit v n q din).bit (sentBit x.order v n) =
      x.atBit v (n + 1) (if x.mode.cpha then x.tx.getLsbD (bitPos x.order n)
        else x.tx.getLsbD (bitPos x.order (n + 1))) (sentBit x.order v n) := by
  have h8 : ¬ n + 1 = 8 := by omega
  cases h : x.mode.cpha <;>
    simp [Slave.atBit, Slave.bit, h, Slave.shiftOut, Slave.sampleIn, Slave.advance, Slave.pos, h8, rxAfter]

theorem Slave.atBit_last (x : Slave) (v : Byte) (q din : Level) :
    (x.atBit v 7 q din).bit (sentBit x.order v 7) = x.afterByte v := by
  have h8 : rxAfter x.order x.rx v (7 + 1) = v := rxAfter_eight x.order x.rx v
  simp only [rxAfter] at h8
  cases h : x.mode.cpha <;>
    simp [Slave.atBit, Slave.bit, h, Slave.shiftOut, Slave.sampleIn, Slave.advance, Slave.pos, rxAfter, h8,
      Slave.afterByte, Slave.byteStep, Slave.load]

theorem Slave.atBit_zero (x : Slave) (v : Byte) (hk : x.k = 0) : x.atBit v 0 x.q x.din = x := by
  cases x
  simp_all [Slave.atBit, rxAfter]

/-- The slave's state after the first `n` bit times, and the level it drives at the `n`-th sampling point. -/
theorem Slave.hears_bits (cfg : Config) (b : Nat) (x : Slave) (v : Byte) (f : Nat → Level)
    (hb : cfg.busOf x.h = b) (hx : x.atByte = true) (n : Nat) (hn : n < 8) :
    ∃ q din, x.hears cfg (bitsEvents b x.mode x.order v f n) = x.atBit v n q din ∧
      (x.mode.cpha = false → q = x.tx.getLsbD (bitPos x.order n)) := by
  simp only [Slave.atByte, Bool.and_eq_true, decide_eq_true_eq, Bool.or_eq_true] at hx
  obtain ⟨⟨hsel, hk⟩, hq⟩ := hx
  induction n with
  | zero =>
    refine ⟨x.q, x.din, ?_, fun h => ?_⟩
    · rw [Slave.atBit_zero x v hk]; rfl
    · rcases hq with hq | hq
      · rw [h] at hq; exact absurd hq (by decide)
      · exact hq
  | succ n ih =>
    obtain ⟨q, din, h1, _⟩ := ih (by omega)
    rw [bitsEvents_succ, Slave.hears_append, h1,
      (Slave.hears_bit cfg b x.mode (sentBit x.order v n) (f n) (x.atBit v n q din) hb hsel rfl).2,
      Slave.atBit_bit x v n q din (by omega)]
    refine ⟨_, _, rfl, fun h => ?_⟩
    simp [h]

/-- At the `n`-th sampling point the slave drives the bit of the byte it had loaded (R171). -/
theorem Slave.hears_sample (cfg : Config) (b : Nat) (x : Slave) (v : Byte) (f : Nat → Level)
    (hb : cfg.busOf x.h = b) (hx : x.atByte = true) (n : Nat) (hn : n < 8) :
    let y := x.hears cfg (bitsEvents b x.mode x.order v f n ++
      samplePrefix b x.mode (sentBit x.order v n))
    y.q = sentBit x.order x.tx n ∧ y.sel = true ∧ y.h = x.h := by
  obtain ⟨q, din, h1, h2⟩ := Slave.hears_bits cfg b x v f hb hx n hn
  simp only [Slave.atByte, Bool.and_eq_true, decide_eq_true_eq, Bool.or_eq_true] at hx
  obtain ⟨⟨hsel, _⟩, _⟩ := hx
  dsimp only
  rw [Slave.hears_append, h1,
    (Slave.hears_bit cfg b x.mode (sentBit x.order v n) false (x.atBit v n q din) hb hsel rfl).1]
  cases h : x.mode.cpha
  · simp [Slave.midBit, Slave.atBit, h, Slave.sampleIn, h2 h, sentBit, hsel]
  · unfold Slave.midBit
    rw [if_pos (show (x.atBit v n q din).mode.cpha = true from h)]
    obtain ⟨_, _, h5, h6, h7⟩ := Slave.advance_fields
      (Slave.sampleIn { (x.atBit v n q din).shiftOut with din := sentBit x.order v n })
    rw [h5, h6, h7]
    exact ⟨rfl, hsel, rfl⟩

/-- A whole byte heard by a slave in its own mode and order (R78). -/
theorem Slave.hears_byte (cfg : Config) (b : Nat) (x : Slave) (v : Byte) (f : Nat → Level)
    (hb : cfg.busOf x.h = b) (hx : x.atByte = true) :
    x.hears cfg (byteEvents b x.mode x.order v f) = x.afterByte v := by
  obtain ⟨q, din, h1, _⟩ := Slave.hears_bits cfg b x v f hb hx 7 (by omega)
  have hsel : x.sel = true := by
    simp only [Slave.atByte, Bool.and_eq_true] at hx
    exact hx.1.1
  rw [byteEvents, bitsEvents_succ, Slave.hears_append, h1,
    (Slave.hears_bit cfg b x.mode (sentBit x.order v 7) (f 7) (x.atBit v 7 q din) hb hsel rfl).2,
    Slave.atBit_last]

theorem Slave.afterByte_atByte (x : Slave) (v : Byte) (hx : x.atByte = true) : (x.afterByte v).atByte = true := by
  simp only [Slave.atByte, Bool.and_eq_true, decide_eq_true_eq, Bool.or_eq_true] at hx ⊢
  obtain ⟨⟨hsel, _⟩, _⟩ := hx
  refine ⟨⟨hsel, rfl⟩, ?_⟩
  cases h : x.mode.cpha
  · right
    simp [Slave.afterByte, Slave.byteStep, Slave.load, h]
  · left
    exact h

/-! ### The other chips -/

theorem Slave.react_h (cfg : Config) (e : Event) (x : Slave) : (x.react cfg e).h = x.h := by
  have hadv := Slave.advance_fields
  unfold Slave.react
  cases e with
  | dir p d => rfl
  | smp b v => rfl
  | xch b t r => rfl
  | mosi b v => dsimp only; split <;> rfl
  | cs g v =>
    dsimp only
    split
    · split
      · rfl
      · unfold Slave.select
        dsimp only
        split <;> rfl
    · rfl
  | sck b v =>
    dsimp only
    split
    · split
      · unfold Slave.trailing
        split
        · exact (hadv _).2.2.1
        · exact (hadv x).2.2.1
      · unfold Slave.leading
        split <;> rfl
    · rfl

theorem Slave.hears_h (cfg : Config) (es : List Event) (x : Slave) : (x.hears cfg es).h = x.h := by
  induction es generalizing x with
  | nil => rfl
  | cons e es ih => exact (ih (x.react cfg e)).trans (Slave.react_h cfg e x)


theorem Slave.react_silent (cfg : Config) (b : Nat) (e : Event) (x : Slave)
    (he : ∀ h v, e ≠ .cs h v) (hx : x.silent cfg b = true) : (x.react cfg e).silent cfg b = true := by
  have hadv := Slave.advance_fields
  unfold Slave.react
  cases e with
  | cs h v => exact absurd rfl (he h v)
  | dir p d => exact hx
  | mosi b' v => dsimp only; split <;> exact hx
  | smp b' v => exact hx
  | xch b' t r => exact hx
  | sck b' v =>
    dsimp only
    split
    · split
      · unfold Slave.trailing
        split
        · simp only [Slave.silent, (hadv _).2.2.1, (hadv _).2.2.2.1]
          exact hx
        · show x.advance.silent cfg b = true
          simp only [Slave.silent, (hadv _).2.2.1, (hadv _).2.2.2.1]
          exact hx
      · unfold Slave.leading
        split <;> exact hx
    · exact hx

/-- Clock and data events leave the others unselected. -/
theorem hearAll_silent (cfg : Config) (b : Nat) (es : List Event) (xs : List Slave)
    (he : ∀ e ∈ es, ∀ h v, e ≠ .cs h v) (hx : ∀ x ∈ xs, x.silent cfg b = true) :
    ∀ x ∈ hearAll cfg es xs, x.silent cfg b = true := by
  induction es generalizing xs with
  | nil => exact hx
  | cons e es ih =>
    apply ih
    · exact fun e' h' => he e' (List.mem_cons_of_mem _ h')
    · intro y hy
      simp only [hear, List.mem_map] at hy
      obtain ⟨x, hxm, rfl⟩ := hy
      exact Slave.react_silent cfg b e x (he e List.mem_cons_self) (hx x hxm)

theorem mem_bitsEvents_not_cs (b : Nat) (mode : Mode) (order : Order) (v : Byte) (f : Nat → Level) (n : Nat) :
    ∀ e ∈ bitsEvents b mode order v f n, ∀ h w, e ≠ .cs h w := by
  intro e he h w
  simp only [bitsEvents, List.mem_flatMap] at he
  obtain ⟨k, _, hk⟩ := he
  unfold bitEvents at hk
  split at hk <;> simp at hk <;> rcases hk with rfl | rfl | rfl | rfl <;> simp

theorem mem_samplePrefix_not_cs (b : Nat) (mode : Mode) (bit : Level) :
    ∀ e ∈ samplePrefix b mode bit, ∀ h w, e ≠ .cs h w := by
  intro e he h w
  unfold samplePrefix at he
  split at he <;> simp at he
  · rcases he with rfl | rfl | rfl <;> simp
  · rcases he with rfl | rfl <;> simp

/-- Among silent chips one selected chip drives the line (R77). -/
theorem driven_one (cfg : Config) (b : Nat) (pre post : List Slave) (x : Slave)
    (hpre : ∀ y ∈ pre, y.silent cfg b = true) (hpost : ∀ y ∈ post, y.silent cfg b = true)
    (hs : x.sel = true) (hb : cfg.busOf x.h = b) : driven cfg b (pre ++ x :: post) = some x.q := by
  have hnil : ∀ ys : List Slave, (∀ y ∈ ys, y.silent cfg b = true) →
      ys.filter (fun y => y.sel && decide (cfg.busOf y.h = b)) = [] := by
    intro ys hys
    rw [List.filter_eq_nil_iff]
    intro y hy
    have := hys y hy
    simpa [Slave.silent, ← Bool.not_eq_true, imp_iff_not_or] using this
  have hf : (pre ++ x :: post).filter (fun y => y.sel && decide (cfg.busOf y.h = b)) = [x] := by
    rw [List.filter_append, List.filter_cons_of_pos (by simp [hs, hb]), hnil pre hpre, hnil post hpost]
    rfl
  unfold driven
  rw [hf]

end Sys2Proof.Machine
end

