-- ==== Sys2Proof/Laws/Backends.lean ====
section
/-! SUPPORT. One byte exchange with a selected reference slave on either backend (R78, R79, R147). -/

namespace Sys2Proof.Machine

open State

/-! ### One byte with a selected reference slave -/

theorem Selected.driven_sample {s : State} {b : Nat} {pre post : List Slave} {x : Slave}
    (h : Selected s b pre x post) (v : Byte) (f : Nat → Level) (k : Nat) (hk : k < 8) :
    driven s.cfg b (hearAll s.cfg (bitsEvents b (s.bus b).mode (s.bus b).order v f k ++
      samplePrefix b (s.bus b).mode (sentBit (s.bus b).order v k)) s.slaves) =
      some (sentBit (s.bus b).order x.tx k) := by
  have hcs : ∀ e ∈ bitsEvents b (s.bus b).mode (s.bus b).order v f k ++
      samplePrefix b (s.bus b).mode (sentBit (s.bus b).order v k), ∀ h w, e ≠ .cs h w := by
    intro e he
    rcases List.mem_append.1 he with he | he
    · exact mem_bitsEvents_not_cs _ _ _ _ _ _ e he
    · exact mem_samplePrefix_not_cs _ _ _ e he
  have hy := Slave.hears_sample s.cfg b x v f h.bus h.atByte k hk
  rw [h.mode, h.order] at hy
  obtain ⟨hq, hsel, hh⟩ := hy
  rw [h.slaves, hearAll_app, hearAll_cons_slave, driven_one _ _ _ _ _
    (hearAll_silent _ _ _ _ hcs h.pre) (hearAll_silent _ _ _ _ hcs h.post) hsel (by rw [hh, h.bus]), hq]

theorem miso_slaves {s : State} {b : Nat} {x : Level} (hl : s.line b = .slaves)
    (hd : driven s.cfg b s.slaves = some x) : s.miso b = x := by
  simp [miso, hl, hd]

/-- R78 on either backend: the master receives the byte the slave had loaded, the slave receives the byte
sent and loads its next one; the other chips stay unselected and the line stays so that the next byte can follow. -/
theorem exchange_selected {s : State} {b : Nat} {pre post : List Slave} {x : Slave}
    (h : Selected s b pre x post) (v : Byte) :
    ∃ f, (s.exchange b v).1 = x.tx ∧
      (s.exchange b v).2.slaves = hearAll s.cfg (byteEvents b (s.bus b).mode (s.bus b).order v f) s.slaves ∧
      Selected (s.exchange b v).2 b
        (hearAll s.cfg (byteEvents b (s.bus b).mode (s.bus b).order v f) pre) (x.afterByte v)
        (hearAll s.cfg (byteEvents b (s.bus b).mode (s.bus b).order v f) post) := by
  have hwire := wireOnly_exchange s b v
  have hlist : ∀ f, hearAll s.cfg (byteEvents b (s.bus b).mode (s.bus b).order v f) s.slaves =
      hearAll s.cfg (byteEvents b (s.bus b).mode (s.bus b).order v f) pre ++ x.afterByte v ::
        hearAll s.cfg (byteEvents b (s.bus b).mode (s.bus b).order v f) post := by
    intro f
    have hb := Slave.hears_byte s.cfg b x v f h.bus h.atByte
    rw [h.mode, h.order] at hb
    rw [h.slaves, hearAll_app, hearAll_cons_slave, hb]
  have hsil : ∀ (f : Nat → Level) (ys : List Slave), (∀ y ∈ ys, y.silent s.cfg b = true) →
      ∀ y ∈ hearAll s.cfg (byteEvents b (s.bus b).mode (s.bus b).order v f) ys, y.silent s.cfg b = true :=
    fun f ys => hearAll_silent s.cfg b _ ys (mem_bitsEvents_not_cs _ _ _ _ _ _)
  have hmake : ∀ f, (s.exchange b v).2.slaves =
      hearAll s.cfg (byteEvents b (s.bus b).mode (s.bus b).order v f) s.slaves →
      (∀ sck mosi miso, s.cfg.backend b = .sw sck mosi miso →
        sck ≠ mosi ∧ (s.exchange b v).2.lvl sck = (s.bus b).mode.cpol) →
      Selected (s.exchange b v).2 b
        (hearAll s.cfg (byteEvents b (s.bus b).mode (s.bus b).order v f) pre) (x.afterByte v)
        (hearAll s.cfg (byteEvents b (s.bus b).mode (s.bus b).order v f) post) := by
    intro f hs hclk
    refine ⟨(hwire.line b).trans h.line, hs.trans (hlist f), ?_, ?_, ?_, x.afterByte_atByte v h.atByte, ?_, ?_, ?_⟩
    · rw [hwire.cfg]; exact hsil f pre h.pre
    · rw [hwire.cfg]; exact hsil f post h.post
    · rw [hwire.cfg]; exact h.bus
    · rw [hwire.bus]; exact h.mode
    · rw [hwire.bus]; exact h.order
    · rw [hwire.cfg, hwire.bus]; exact hclk
  obtain ⟨f, hsamples, hr, hs⟩ := exchange_spec s b v fun sck mosi miso hb => h.clock sck mosi miso hb
  have hf : ∀ k, k < 8 → f k = sentBit (s.bus b).order x.tx k := by
    intro k hk
    rw [hsamples k hk]
    exact miso_slaves (s := s.after _) h.line (h.driven_sample v f k hk)
  refine ⟨f, by rw [hr, inAfter_congr _ _ hf, inAfter_sentBit], hs, hmake f hs ?_⟩
  intro sck mosi miso hb
  obtain ⟨hne, hc⟩ := h.clock _ _ _ hb
  have hpins := exchange_pins s b v fun sck' mosi' miso' hb' => (h.clock sck' mosi' miso' hb').1
  refine ⟨hne, (hpins.1 sck fun sck' mosi' miso' hb' => ?_).trans hc⟩
  rw [hb] at hb'
  cases hb'
  exact hne

end Sys2Proof.Machine
end

