-- ==== Sys2Proof/Laws/Configs.lean ====
section
/-! SUPPORT. What a well-formed configuration gives (R111): indices in range, pins pairwise distinct. -/

namespace Sys2Proof

namespace Config

variable {cfg : Config}

theorem backend_mem {b sck mosi miso : Nat} (h : cfg.backend b = .sw sck mosi miso) :
    b < cfg.buses.length ∧ cfg.buses[b]? = some (.sw sck mosi miso) := by
  unfold backend at h
  rw [List.getD_eq_getElem?_getD] at h
  cases hb : cfg.buses[b]? with
  | none => rw [hb] at h; cases h
  | some x =>
    rw [hb] at h
    simp only [Option.getD_some] at h
    exact ⟨(List.getElem?_eq_some_iff.1 hb).1, by rw [h]⟩

theorem dev_eq {h : Nat} (hh : h < cfg.devs.length) : cfg.devs[h]? = some (cfg.dev h) := by
  unfold dev
  rw [List.getD_eq_getElem?_getD, List.getElem?_eq_getElem hh]
  rfl

/-- The parts of R111. -/
theorem wf_parts (hw : cfg.wf = true) :
    cfg.buses ≠ [] ∧ 0 < cfg.ncaller ∧ (∀ x ∈ cfg.buses, x.wf = true) ∧
    (∀ d ∈ cfg.devs, d.bus < cfg.buses.length) ∧
    (∀ m ∈ cfg.mems, m.dev < cfg.devs.length ∧ 1 ≤ m.addrBits ∧ m.addrBits ≤ 24) ∧
    (∀ x ∈ cfg.strs, x.mem < cfg.mems.length) ∧ cfg.pinIds.Nodup ∧ (cfg.mems.map MemCfg.dev).Nodup ∧
    (cfg.empty < 0 ∨ 255 < cfg.empty) := by
  simp only [wf, Bool.and_eq_true, List.all_eq_true, decide_eq_true_eq, Bool.not_eq_true',
    List.isEmpty_eq_false_iff, Bool.or_eq_true] at hw
  obtain ⟨⟨⟨⟨⟨⟨⟨⟨h1, h2⟩, h3⟩, h4⟩, h5⟩, h6⟩, h7⟩, h8⟩, h9⟩ := hw
  exact ⟨h1, h2, h3, h4, fun m hm => ⟨(h5 m hm).1.1, (h5 m hm).1.2, (h5 m hm).2⟩, h6, h7, h8, h9⟩

theorem wf_bus_lt (hw : cfg.wf = true) {h : Nat} (hh : h < cfg.devs.length) : cfg.busOf h < cfg.buses.length :=
  (wf_parts hw).2.2.2.1 _ (List.mem_of_getElem? (dev_eq hh))

theorem wf_handle (hw : cfg.wf = true) {m : Nat} (hm : m < cfg.mems.length) :
    cfg.handleOf m < cfg.devs.length ∧ 1 ≤ (cfg.memDev m).addrBits ∧ (cfg.memDev m).addrBits ≤ 24 := by
  have : cfg.memDev m ∈ cfg.mems := by
    unfold memDev
    rw [List.getD_eq_getElem?_getD, List.getElem?_eq_getElem hm]
    exact List.getElem_mem hm
  exact (wf_parts hw).2.2.2.2.1 _ this

theorem wf_stream (hw : cfg.wf = true) {x : Nat} (hx : x < cfg.strs.length) :
    (cfg.stream x).mem < cfg.mems.length := by
  have : cfg.stream x ∈ cfg.strs := by
    unfold stream
    rw [List.getD_eq_getElem?_getD, List.getElem?_eq_getElem hx]
    exact List.getElem_mem hx
  exact (wf_parts hw).2.2.2.2.2.1 _ this

theorem wf_nodup (hw : cfg.wf = true) :
    (cfg.buses.flatMap backendPins).Nodup ∧ (cfg.devs.map DevCfg.csPin).Nodup ∧
    ∀ p ∈ cfg.buses.flatMap backendPins, p ∉ cfg.devs.map DevCfg.csPin := by
  have h := (wf_parts hw).2.2.2.2.2.2.1
  rw [pinIds, List.nodup_append] at h
  exact ⟨h.1, h.2.1, fun p hp hq => h.2.2 p hp p hq rfl⟩

/-- The three pins of a `sw` bus are pairwise distinct. -/
theorem wf_bus_pins (hw : cfg.wf = true) {b sck mosi miso : Nat} (hb : cfg.backend b = .sw sck mosi miso) :
    sck ≠ mosi ∧ sck ≠ miso ∧ mosi ≠ miso := by
  have h := (List.nodup_flatMap.1 (wf_nodup hw).1).1 _ (List.mem_of_getElem? (backend_mem hb).2)
  simp only [backendPins, List.nodup_cons, List.mem_cons, List.not_mem_nil, or_false, not_or] at h
  exact ⟨h.1.1, h.1.2, h.2.1⟩

theorem mem_bus_pins {b sck mosi miso : Nat} (hb : cfg.backend b = .sw sck mosi miso) {p : Nat}
    (hp : p = sck ∨ p = mosi ∨ p = miso) : p ∈ cfg.buses.flatMap backendPins :=
  List.mem_flatMap.2 ⟨_, List.mem_of_getElem? (backend_mem hb).2, by simpa [backendPins] using hp⟩

/-- A chip-select pin is no pin of a bus. -/
theorem wf_cs_pins (hw : cfg.wf = true) {h b sck mosi miso : Nat} (hh : h < cfg.devs.length)
    (hb : cfg.backend b = .sw sck mosi miso) :
    (cfg.dev h).csPin ≠ sck ∧ (cfg.dev h).csPin ≠ mosi ∧ (cfg.dev h).csPin ≠ miso := by
  have hmem : (cfg.dev h).csPin ∈ cfg.devs.map DevCfg.csPin :=
    List.mem_map.2 ⟨_, List.mem_of_getElem? (dev_eq hh), rfl⟩
  have key : ∀ p, (p = sck ∨ p = mosi ∨ p = miso) → (cfg.dev h).csPin ≠ p := by
    intro p hp he
    exact (wf_nodup hw).2.2 p (mem_bus_pins hb hp) (he ▸ hmem)
  exact ⟨key _ (.inl rfl), key _ (.inr (.inl rfl)), key _ (.inr (.inr rfl))⟩

/-- Distinct handles have distinct chip-select pins. -/
theorem wf_cs_inj (hw : cfg.wf = true) {h g : Nat} (hh : h < cfg.devs.length) (hg : g < cfg.devs.length)
    (he : (cfg.dev h).csPin = (cfg.dev g).csPin) : h = g := by
  have hn := (wf_nodup hw).2.1
  have h1 : (cfg.devs.map DevCfg.csPin)[h]? = some (cfg.dev h).csPin := by
    rw [List.getElem?_map, dev_eq hh]; rfl
  have h2 : (cfg.devs.map DevCfg.csPin)[g]? = some (cfg.dev h).csPin := by
    rw [List.getElem?_map, dev_eq hg, he]; rfl
  exact (List.getElem?_inj (by simpa using hh) hn).1 (h1.trans h2.symm)

/-- Two buses have no pin in common. -/
theorem wf_two_buses (hw : cfg.wf = true) {b b' sck mosi miso sck' mosi' miso' : Nat} (hne : b ≠ b')
    (hb : cfg.backend b = .sw sck mosi miso) (hb' : cfg.backend b' = .sw sck' mosi' miso') :
    ∀ p, (p = sck ∨ p = mosi ∨ p = miso) → ¬ (p = sck' ∨ p = mosi' ∨ p = miso') := by
  intro p hp hp'
  have hd := (List.nodup_flatMap.1 (wf_nodup hw).1).2
  obtain ⟨h1, h2⟩ := backend_mem hb
  obtain ⟨h1', h2'⟩ := backend_mem hb'
  have e1 : cfg.buses[b] = .sw sck mosi miso := by
    have := List.getElem?_eq_getElem h1; rw [this] at h2; exact Option.some.inj h2
  have e2 : cfg.buses[b'] = .sw sck' mosi' miso' := by
    have := List.getElem?_eq_getElem h1'; rw [this] at h2'; exact Option.some.inj h2'
  rw [List.pairwise_iff_getElem] at hd
  rcases Nat.lt_or_gt_of_ne hne with hlt | hlt
  · have := hd b b' h1 h1' hlt
    simp only [Function.onFun, e1, e2, backendPins] at this
    exact this (by simpa using hp) (by simpa using hp')
  · have := hd b' b h1' h1 hlt
    simp only [Function.onFun, e1, e2, backendPins] at this
    exact this (by simpa using hp') (by simpa using hp)

/-- R111 (`DIVSET` by R141): a `hw` bus has a positive clock and a non-empty set of positive divisors. -/
theorem wf_hw (hw : cfg.wf = true) {b sysclk : Nat} {divset : List Nat} (hlt : b < cfg.buses.length)
    (hb : cfg.backend b = .hw sysclk divset) : 0 < sysclk ∧ divset ≠ [] ∧ ∀ d ∈ divset, 0 < d := by
  have hm : Backend.hw sysclk divset ∈ cfg.buses := by
    rw [← hb]
    unfold backend
    rw [List.getD_eq_getElem?_getD, List.getElem?_eq_getElem hlt]
    exact List.getElem_mem hlt
  have := (wf_parts hw).2.2.1 _ hm
  simp only [Backend.wf, Bool.and_eq_true, decide_eq_true_eq, Bool.not_eq_true', List.isEmpty_eq_false_iff,
    List.all_eq_true] at this
  exact ⟨this.1.1, this.1.2, this.2⟩

end Config

end Sys2Proof
end

