-- ==== Sys2Proof/Laws/Rest.lean ====
section
/-! SUPPORT. The wire operations neither read nor change what is not wire: they commute with any change of streams,
faults, callers, buffers, schedule and current caller. -/

namespace Sys2Proof.Machine

open State

/-- The part of the state that no wire operation reads or writes. -/
structure Rest where
  strs : List Stream
  faults : List FaultRecord
  callers : List Caller
  bufs : List (Nat × List Byte)
  sched : List Nat
  cur : Nat

namespace State

/-- That part of a state. -/
def rest (s : State) : Rest := ⟨s.strs, s.faults, s.callers, s.bufs, s.sched, s.cur⟩

/-- The state with that part replaced. -/
def withRest (s : State) (r : Rest) : State :=
  { s with strs := r.strs, faults := r.faults, callers := r.callers, bufs := r.bufs, sched := r.sched, cur := r.cur }

end State

variable (s : State) (r : Rest)

@[simp] theorem withRest_cfg : (s.withRest r).cfg = s.cfg := rfl
@[simp] theorem withRest_buses : (s.withRest r).buses = s.buses := rfl
@[simp] theorem withRest_bus (b : Nat) : (s.withRest r).bus b = s.bus b := rfl
@[simp] theorem withRest_pins : (s.withRest r).pins = s.pins := rfl
@[simp] theorem withRest_pin (p : Nat) : (s.withRest r).pin p = s.pin p := rfl
@[simp] theorem withRest_lvl (p : Nat) : (s.withRest r).lvl p = s.lvl p := rfl
@[simp] theorem withRest_cs (h : Nat) : (s.withRest r).cs h = s.cs h := rfl
@[simp] theorem withRest_selected (h : Nat) : (s.withRest r).selected h = s.selected h := rfl
@[simp] theorem withRest_path : (s.withRest r).path = s.path := rfl
@[simp] theorem withRest_trace : (s.withRest r).trace = s.trace := rfl
@[simp] theorem withRest_slaves : (s.withRest r).slaves = s.slaves := rfl
@[simp] theorem withRest_lines : (s.withRest r).lines = s.lines := rfl
@[simp] theorem withRest_rest : (s.withRest r).rest = r := rfl
@[simp] theorem withRest_self : s.withRest s.rest = s := rfl
@[simp] theorem withRest_withRest (r' : Rest) : (s.withRest r).withRest r' = s.withRest r' := rfl
@[simp] theorem rest_cur : s.rest.cur = s.cur := rfl
@[simp] theorem rest_callers : s.rest.callers = s.callers := rfl
@[simp] theorem rest_bufs : s.rest.bufs = s.bufs := rfl
@[simp] theorem rest_strs : s.rest.strs = s.strs := rfl

theorem setCaller_eq_withRest (c : Nat) (x : Caller) :
    s.setCaller c x = s.withRest { s.rest with callers := setEntry Caller.idle s.callers c x } := rfl

theorem setBuf_eq_withRest (d : BufRef) (x : List Byte) :
    s.setBuf d x = s.withRest { s.rest with bufs := mapPut s.bufs d.toNat x } := rfl

theorem setStr_eq_withRest (i : Nat) (x : Stream) :
    s.setStr i x = s.withRest { s.rest with strs := setEntry Stream.empty s.strs i x } := rfl

theorem bitStep_withRest (cpha : Bool) (b sck mosi : Nat) (bit : Level) :
    (if cpha then (s.withRest r).bitStep1 b sck mosi bit else (s.withRest r).bitStep0 b sck mosi bit) =
      ((if cpha then s.bitStep1 b sck mosi bit else s.bitStep0 b sck mosi bit).1,
        (if cpha then s.bitStep1 b sck mosi bit else s.bitStep0 b sck mosi bit).2.withRest r) := by
  cases cpha <;> rfl

theorem swBitTime_withRest (b sck mosi : Nat) :
    (s.withRest r).swBitTime b sck mosi = (s.swBitTime b sck mosi).withRest r := by
  unfold swBitTime
  rw [withRest_path]
  split
  · rename_i b' out inn k _
    exact congrArg (fun z : Level × State => z.2.setPath (.sw b (shiftOutReg (s.bus b).order out)
      (shiftInReg (s.bus b).order inn z.1) (k + 1)))
      (bitStep_withRest s r (s.bus b).mode.cpha b sck mosi (outBit (s.bus b).order out))
  · rfl
  · rfl

theorem swBitTimes_withRest (b sck mosi n : Nat) (s : State) (r : Rest) :
    swBitTimes b sck mosi n (s.withRest r) = (swBitTimes b sck mosi n s).withRest r := by
  induction n generalizing s with
  | zero => rfl
  | succ n ih => simp only [swBitTimes, swBitTime_withRest, ih]

theorem received_withRest : (s.withRest r).received = s.received := rfl

theorem swExchange_withRest (b sck mosi : Nat) (v : Byte) :
    (s.withRest r).swExchange b sck mosi v =
      ((s.swExchange b sck mosi v).1, (s.swExchange b sck mosi v).2.withRest r) := by
  have h := swBitTimes_withRest b sck mosi 8 (s.setPath (.sw b v 0 0)) r
  have e : (s.withRest r).setPath (.sw b v 0 0) = (s.setPath (.sw b v 0 0)).withRest r := rfl
  unfold swExchange
  rw [e, h]
  generalize swBitTimes b sck mosi 8 (s.setPath (.sw b v 0 0)) = t
  rfl

theorem hwBitTime_withRest (b : Nat) (mode : Mode) (bit : Level) :
    (s.withRest r).hwBitTime b mode bit = ((s.hwBitTime b mode bit).1, (s.hwBitTime b mode bit).2.withRest r) := by
  unfold hwBitTime
  cases mode.cpha <;> rfl

theorem hwBitTimes_withRest (b : Nat) (mode : Mode) (order : Order) (n : Nat) (out inn : Byte) (s : State) (r : Rest) :
    hwBitTimes b mode order n out inn (s.withRest r) =
      ((hwBitTimes b mode order n out inn s).1, (hwBitTimes b mode order n out inn s).2.withRest r) := by
  induction n generalizing out inn s with
  | zero => rfl
  | succ n ih => simp only [hwBitTimes, hwBitTime_withRest, ih]

theorem hwExchange_withRest (b : Nat) (v : Byte) :
    (s.withRest r).hwExchange b v = ((s.hwExchange b v).1, (s.hwExchange b v).2.withRest r) := by
  have h : (s.withRest r).hwWire b v = ((s.hwWire b v).1, (s.hwWire b v).2.withRest r) :=
    hwBitTimes_withRest b _ _ 8 v 0 s r
  unfold hwExchange
  rw [h]
  rfl

theorem exchange_withRest (b : Nat) (v : Byte) :
    (s.withRest r).exchange b v = ((s.exchange b v).1, (s.exchange b v).2.withRest r) := by
  unfold exchange
  simp only [withRest_cfg]
  split
  · exact swExchange_withRest s r b _ _ v
  · exact hwExchange_withRest s r b v

theorem exchangeAll_withRest (b : Nat) (ts : List Byte) (s : State) (r : Rest) :
    exchangeAll b ts (s.withRest r) = ((exchangeAll b ts s).1, (exchangeAll b ts s).2.withRest r) := by
  induction ts generalizing s with
  | nil => rfl
  | cons t ts ih => simp only [exchangeAll, exchange_withRest, ih]

theorem toggleCs_withRest (h : Nat) : (s.withRest r).toggleCs h = (s.toggleCs h).withRest r := rfl

theorem closeBus_withRest (b : Nat) : (s.withRest r).closeBus b = (s.closeBus b).withRest r := rfl

theorem closeDev_withRest (h : Nat) : (s.withRest r).closeDev h = (s.closeDev h).withRest r := rfl

/-- The rest is what a wire operation leaves it. -/
theorem WireOnly.rest_eq {s t : State} (h : WireOnly s t) : t.rest = s.rest := by
  simp only [rest, h.strs, h.faults, h.callers, h.bufs, h.sched, h.cur]

end Sys2Proof.Machine
end

