-- ==== Sys2Proof/Laws/Sends.lean ====
section
/-! SUPPORT. What sending bytes on a bus does, on either backend: `SentBytes` for one exchange and for a block of
them (R124, R125, R147). -/

namespace Sys2Proof.Machine

open State

theorem clockIdle_iff (s : State) (b : Nat) : s.clockIdle b = true ↔
    ∀ sck mosi miso, s.cfg.backend b = .sw sck mosi miso → s.lvl sck = (s.bus b).mode.cpol := by
  unfold clockIdle
  constructor
  · intro h sck mosi miso hb
    rw [hb] at h
    simpa using h
  · intro h
    split
    · rename_i sck mosi miso hb
      simpa using h sck mosi miso hb
    · rfl

theorem pin_ext {p q : Pin} (hd : p.dir = q.dir) (hl : p.lvl = q.lvl) : p = q := by
  cases p; cases q; simp_all

/-! ### What the chips hear does not depend on the samples -/

theorem hearAll_bitEvents_congr (cfg : Config) (b : Nat) (mode : Mode) (bit s s' : Level) (xs : List Slave) :
    hearAll cfg (bitEvents b mode bit s) xs = hearAll cfg (bitEvents b mode bit s') xs := by
  rw [hearAll_bitEvents, hearAll_bitEvents]

theorem hearAll_bitsEvents_congr (cfg : Config) (b : Nat) (mode : Mode) (order : Order) (v : Byte)
    (f g : Nat → Level) (n : Nat) (xs : List Slave) :
    hearAll cfg (bitsEvents b mode order v f n) xs = hearAll cfg (bitsEvents b mode order v g n) xs := by
  induction n with
  | zero => rfl
  | succ n ih =>
    rw [bitsEvents_succ, bitsEvents_succ, hearAll_append, hearAll_append, ih,
      hearAll_bitEvents_congr cfg b mode _ (f n) (g n)]

theorem bytesHeard_cons (b : Nat) (mode : Mode) (order : Order) (v : Byte) (vs : List Byte) :
    bytesHeard b mode order (v :: vs) =
      byteEvents b mode order v (fun _ => false) ++ bytesHeard b mode order vs := rfl

theorem bytesHeard_append (b : Nat) (mode : Mode) (order : Order) (vs ws : List Byte) :
    bytesHeard b mode order (vs ++ ws) = bytesHeard b mode order vs ++ bytesHeard b mode order ws := by
  simp [bytesHeard]

/-! ### Exchanges of lists -/

theorem Exchanges.append {be : Backend} {b : Nat} {mode : Mode} {order : Order} {vs ws rs us : List Byte}
    {es fs : List Event} (h : Exchanges be b mode order vs rs es) (k : Exchanges be b mode order ws us fs) :
    Exchanges be b mode order (vs ++ ws) (rs ++ us) (es ++ fs) := by
  induction vs generalizing rs es with
  | nil =>
    cases rs with
    | nil => rw [show es = [] from h]; exact k
    | cons r rs => exact h.elim
  | cons v vs ih =>
    cases rs with
    | nil => exact h.elim
    | cons r rs =>
      obtain ⟨e1, e2, rfl, h1, h2⟩ := h
      exact ⟨e1, e2 ++ fs, by simp, h1, ih h2⟩

/-! ### One exchange and a block of them -/

/-- What sending `vs` and receiving `rs` on bus `b` does, with the parts a next exchange needs. -/
structure Sent (s t : State) (b : Nat) (vs rs : List Byte) : Prop where
  bytes : SentBytes s t b vs rs
  wire : WireOnly s t
  clock : t.clockIdle b = true
  dirs : ∀ p, (t.pin p).dir = (s.pin p).dir
  sorted : (s.pins.map Prod.fst).Pairwise (· < ·) → (t.pins.map Prod.fst).Pairwise (· < ·)

theorem sent_exchange (s : State) (b : Nat) (v : Byte) (hw : s.cfg.wf = true) (hc : s.clockIdle b = true) :
    Sent s (s.exchange b v).2 b [v] [(s.exchange b v).1] := by
  have hwire := wireOnly_exchange s b v
  obtain ⟨_, hdirs, hsorted, _⟩ := exchange_pins s b v fun sck mosi miso hb => (Config.wf_bus_pins hw hb).1
  rw [clockIdle_iff] at hc
  cases hb : s.cfg.backend b with
  | sw sck mosi miso =>
    have hne := (Config.wf_bus_pins hw hb).1
    obtain ⟨f, h⟩ := swExchange_spec s b sck mosi v hne (hc _ _ _ hb)
    have hex : s.exchange b v = s.swExchange b sck mosi v := by simp only [exchange, hb]
    rw [← hex] at h
    refine ⟨⟨⟨_, h.trace, ?_⟩, ?_, ?_, h.path⟩, hwire, ?_, hdirs, hsorted⟩
    · exact ⟨_, [], (List.append_nil _).symm, by rw [hb]; exact ⟨f, rfl, h.assembled⟩, rfl⟩
    · rw [h.slaves, bytesHeard_cons]
      simp only [bytesHeard, List.flatMap_nil, List.append_nil]
      exact hearAll_bitsEvents_congr _ _ _ _ _ _ _ _ _
    · intro p hp
      exact pin_ext (h.dir p) (by have := h.lvl p; rwa [if_neg (hp _ _ _ hb)] at this)
    · rw [clockIdle_iff, hwire.cfg, hwire.bus]
      intro sck' mosi' miso' hb'
      rw [hb] at hb'
      cases hb'
      rw [h.lvl, if_neg hne]
      exact hc _ _ _ hb
  | hw sysclk divset =>
    have hex : s.exchange b v = s.hwExchange b v := by simp only [exchange, hb]
    refine ⟨⟨⟨[.xch b v (s.exchange b v).1], ?_, ?_⟩, ?_, ?_, ?_⟩, hwire, ?_, hdirs, hsorted⟩
    · rw [hex]; rfl
    · exact ⟨_, [], (List.append_nil _).symm, by rw [hb]; rfl, rfl⟩
    · rw [hex, bytesHeard_cons]
      simp only [bytesHeard, List.flatMap_nil, List.append_nil]
      obtain ⟨f, -, -, hs⟩ := hwWire_spec s b v
      exact hs.trans (hearAll_bitsEvents_congr _ _ _ _ _ _ _ _ _)
    · intro p _; rw [hex]; rfl
    · rw [hex]; rfl
    · rw [clockIdle_iff, hwire.cfg]
      intro sck' mosi' miso' hb'
      rw [hb] at hb'
      cases hb'

/-- `n` exchanges in order (R125, R68): the bytes, the replies, and a line on which the next byte can follow. -/
theorem sent_exchangeAll (b : Nat) (vs : List Byte) (s : State) (hw : s.cfg.wf = true)
    (hc : s.clockIdle b = true) (hp : s.path = .idle) :
    Sent s (exchangeAll b vs s).2 b vs (exchangeAll b vs s).1 := by
  induction vs generalizing s with
  | nil => exact ⟨⟨⟨[], by simp [exchangeAll], rfl⟩, rfl, fun _ _ => rfl, hp⟩, WireOnly.refl s, hc, fun _ => rfl, id⟩
  | cons v vs ih =>
    have h1 := sent_exchange s b v hw hc
    have h2 := ih (s.exchange b v).2 (by rw [h1.wire.cfg]; exact hw) h1.clock h1.bytes.path
    obtain ⟨e1, ht1, hx1⟩ := h1.bytes.trace
    obtain ⟨e2, ht2, hx2⟩ := h2.bytes.trace
    rw [h1.wire.cfg, h1.wire.bus] at hx2
    refine ⟨⟨⟨e1 ++ e2, ?_, ?_⟩, ?_, ?_, h2.bytes.path⟩, h1.wire.trans h2.wire, h2.clock,
      fun p => (h2.dirs p).trans (h1.dirs p), fun hs => h2.sorted (h1.sorted hs)⟩
    · simp only [exchangeAll, ht2, ht1, List.append_assoc]
    · exact hx1.append hx2
    · simp only [exchangeAll]
      rw [h2.bytes.slaves, h1.wire.cfg, h1.wire.bus, h1.bytes.slaves, bytesHeard_cons, hearAll_append,
        bytesHeard_cons]
      simp [bytesHeard]
    · intro p hp
      simp only [exchangeAll]
      rw [h2.bytes.pins p (by rw [h1.wire.cfg]; exact hp), h1.bytes.pins p hp]

end Sys2Proof.Machine
end

