-- ==== Sys2Proof/Laws/Transactions.lean ====
section
/-! SUPPORT. What opening a session (R121), opening and closing a transaction (R181, R182) and one frame inside a
transaction (R203, R204, R187) can do. -/

namespace Sys2Proof.Machine

open State

/-! ### Pins -/

theorem selected_iff (s : State) (h : Nat) : s.selected h = true ↔ s.cs h ≠ (s.cfg.dev h).csIdle := by
  simp [selected]

theorem selected_eq_false (s : State) (h : Nat) : s.selected h = false ↔ s.cs h = (s.cfg.dev h).csIdle := by
  simp [selected]

theorem pin_setLvl_ne (s : State) {p k : Nat} (v : Level) (h : k ≠ p) : (s.setLvl p v).pin k = s.pin k := by
  simp [setLvl, pin_setPin, h]

theorem sorted_setLvl (s : State) (p : Nat) (v : Level) (h : (s.pins.map Prod.fst).Pairwise (· < ·)) :
    ((s.setLvl p v).pins.map Prod.fst).Pairwise (· < ·) := sorted_mapPut _ _ _ h

/-! ### Opening a session -/

/-- What the grant of `BACQ` on bus `b` has done (R121, R126). -/
structure SessionOpened (s t : State) (b : Nat) (mode : Mode) (order : Order) (freq : Word32) : Prop where
  cfg : t.cfg = s.cfg
  strs : t.strs = s.strs
  faults : t.faults = s.faults
  bufs : t.bufs = s.bufs
  lines : t.lines = s.lines
  sched : t.sched = s.sched
  cur : t.cur = s.cur
  path : t.path = s.path
  callers : t.callers = setEntry Caller.idle s.callers s.cur { s.caller s.cur with status := .running }
  buses : t.buses = setEntry Bus.free s.buses b ⟨true, some s.cur, mode, order, scaleOf s.cfg b freq⟩
  trace : t.trace = s.trace ++ (match s.cfg.backend b with
    | .sw _ _ _ => [.sck b mode.cpol]
    | .hw _ _ => [])
  slaves : t.slaves = hearAll s.cfg (match s.cfg.backend b with
    | .sw _ _ _ => [.sck b mode.cpol]
    | .hw _ _ => []) s.slaves
  pins : ∀ p, (∀ sck mosi miso, s.cfg.backend b = .sw sck mosi miso → p ≠ sck) → t.pin p = s.pin p
  clock : ∀ sck mosi miso, s.cfg.backend b = .sw sck mosi miso → t.lvl sck = mode.cpol
  dirs : ∀ p, (t.pin p).dir = (s.pin p).dir
  sorted : (s.pins.map Prod.fst).Pairwise (· < ·) → (t.pins.map Prod.fst).Pairwise (· < ·)

theorem openBus_spec (s : State) (b : Nat) (mode : Mode) (order : Order) (freq : Word32) :
    SessionOpened s (s.openBus b mode order freq) b mode order freq := by
  cases hb : s.cfg.backend b with
  | sw sck mosi miso =>
    have he : s.openBus b mode order freq =
        ((s.setBus b ⟨true, some s.cur, mode, order, scaleOf s.cfg b freq⟩).driveSck b sck mode.cpol).setStatus
          .running := by
      unfold openBus backendConfig
      rw [setBus_cfg, hb]
      simp
    rw [he]
    refine ⟨rfl, rfl, rfl, rfl, rfl, rfl, rfl, rfl, rfl, rfl, ?_, ?_, ?_, ?_, ?_, ?_⟩
    · rw [hb]; rfl
    · rw [hb]; rfl
    · intro p hp
      exact pin_setLvl_ne _ _ (hp _ _ _ hb)
    · intro sck' mosi' miso' hb'
      rw [hb] at hb'
      cases hb'
      exact lvl_setLvl_self _ _ _
    · intro p
      exact dir_setLvl _ _ _ _
    · intro h
      exact sorted_setLvl _ _ _ h
  | hw sysclk divset =>
    have he : s.openBus b mode order freq =
        (s.setBus b ⟨true, some s.cur, mode, order, scaleOf s.cfg b freq⟩).setStatus .running := by
      unfold openBus backendConfig
      rw [setBus_cfg, hb]
    rw [he]
    refine ⟨rfl, rfl, rfl, rfl, rfl, rfl, rfl, rfl, rfl, rfl, ?_, ?_, fun _ _ => rfl, ?_, fun _ => rfl, id⟩
    · rw [hb]; exact (List.append_nil _).symm
    · rw [hb]; rfl
    · intro sck' mosi' miso' hb'
      rw [hb] at hb'
      cases hb'

theorem SessionOpened.bus {s t : State} {b : Nat} {mode : Mode} {order : Order} {freq : Word32}
    (h : SessionOpened s t b mode order freq) : t.bus b = ⟨true, some s.cur, mode, order, scaleOf s.cfg b freq⟩ := by
  simp [State.bus, h.buses]

theorem SessionOpened.otherBus {s t : State} {b : Nat} {mode : Mode} {order : Order} {freq : Word32}
    (h : SessionOpened s t b mode order freq) {b' : Nat} (hne : b' ≠ b) : t.bus b' = s.bus b' := by
  simp only [State.bus, h.buses]
  exact entry_setEntry_ne _ _ _ hne

/-! ### The select -/

theorem toggleCs_eq (s : State) (h : Nat) :
    s.toggleCs h = (s.setLvl (s.cfg.dev h).csPin (!s.cs h)).emit (.cs h (!s.cs h)) := rfl

@[simp] theorem toggleCs_trace (s : State) (h : Nat) : (s.toggleCs h).trace = s.trace ++ [.cs h (!s.cs h)] := rfl

@[simp] theorem toggleCs_slaves (s : State) (h : Nat) :
    (s.toggleCs h).slaves = hear s.cfg (.cs h (!s.cs h)) s.slaves := rfl

@[simp] theorem toggleCs_path (s : State) (h : Nat) : (s.toggleCs h).path = s.path := rfl

theorem toggleCs_pin_ne (s : State) {h p : Nat} (hp : p ≠ (s.cfg.dev h).csPin) :
    (s.toggleCs h).pin p = s.pin p := pin_setLvl_ne _ _ hp

@[simp] theorem toggleCs_dir (s : State) (h p : Nat) : ((s.toggleCs h).pin p).dir = (s.pin p).dir :=
  dir_setLvl _ _ _ _

@[simp] theorem toggleCs_cs (s : State) (h : Nat) : (s.toggleCs h).cs h = !s.cs h := lvl_setLvl_self _ _ _

theorem toggleCs_sorted (s : State) (h : Nat) (hs : (s.pins.map Prod.fst).Pairwise (· < ·)) :
    ((s.toggleCs h).pins.map Prod.fst).Pairwise (· < ·) := sorted_setLvl _ _ _ hs

/-! ### A transaction -/

/-- What the grant of `DACQ h` has done (R181): the session of the handle's bus, then the select. -/
structure TransactionOpened (s t : State) (h : Nat) : Prop where
  cfg : t.cfg = s.cfg
  strs : t.strs = s.strs
  faults : t.faults = s.faults
  bufs : t.bufs = s.bufs
  lines : t.lines = s.lines
  sched : t.sched = s.sched
  cur : t.cur = s.cur
  path : t.path = s.path
  callers : t.callers = setEntry Caller.idle s.callers s.cur { s.caller s.cur with status := .running }
  buses : t.buses = setEntry Bus.free s.buses (s.cfg.busOf h)
    ⟨true, some s.cur, (s.cfg.dev h).mode, (s.cfg.dev h).order, scaleOf s.cfg (s.cfg.busOf h) (s.cfg.dev h).freq⟩
  trace : t.trace = s.trace ++ openEvents s.cfg h
  slaves : t.slaves = hearAll s.cfg (openEvents s.cfg h) s.slaves
  pins : ∀ p, p ≠ (s.cfg.dev h).csPin →
    (∀ sck mosi miso, s.cfg.backend (s.cfg.busOf h) = .sw sck mosi miso → p ≠ sck) → t.pin p = s.pin p
  cs : t.cs h = !(s.cfg.dev h).csIdle
  clock : t.clockIdle (s.cfg.busOf h) = true
  dirs : ∀ p, (t.pin p).dir = (s.pin p).dir
  sorted : (s.pins.map Prod.fst).Pairwise (· < ·) → (t.pins.map Prod.fst).Pairwise (· < ·)

theorem openDev_spec (s : State) (h : Nat) (hw : s.cfg.wf = true) (hh : h < s.cfg.devs.length)
    (hsel : s.selected h = false) : TransactionOpened s (s.openDev h) h := by
  have o := openBus_spec s (s.cfg.busOf h) (s.cfg.dev h).mode (s.cfg.dev h).order (s.cfg.dev h).freq
  have he : s.openDev h =
      (s.openBus (s.cfg.busOf h) (s.cfg.dev h).mode (s.cfg.dev h).order (s.cfg.dev h).freq).toggleCs h := rfl
  rw [he]
  generalize s.openBus (s.cfg.busOf h) (s.cfg.dev h).mode (s.cfg.dev h).order (s.cfg.dev h).freq = u at o
  have hcs : u.cs h = (s.cfg.dev h).csIdle := by
    rw [← (selected_eq_false s h).1 hsel]
    simp only [State.cs, State.lvl, o.cfg]
    rw [o.pins _ fun sck mosi miso hb => (Config.wf_cs_pins hw hh hb).1]
  refine ⟨o.cfg, o.strs, o.faults, o.bufs, o.lines, o.sched, o.cur, o.path, o.callers, o.buses, ?_, ?_, ?_, ?_, ?_,
    ?_, ?_⟩
  · rw [toggleCs_trace, hcs, o.trace, List.append_assoc]; rfl
  · rw [toggleCs_slaves, hcs, o.slaves, o.cfg, openEvents, hearAll_append]; rfl
  · intro p hp hp'
    rw [toggleCs_pin_ne u (by rw [o.cfg]; exact hp)]
    exact o.pins p hp'
  · rw [toggleCs_cs, hcs]
  · rw [clockIdle_iff]
    intro sck mosi miso hb
    have hb' : s.cfg.backend (s.cfg.busOf h) = .sw sck mosi miso :=
      (congrArg (fun c => Config.backend c (s.cfg.busOf h)) o.cfg).symm.trans hb
    have hne : sck ≠ (u.cfg.dev h).csPin := by
      rw [o.cfg]; exact fun e => (Config.wf_cs_pins hw hh hb').1 e.symm
    have hbus : (u.toggleCs h).bus (s.cfg.busOf h) = u.bus (s.cfg.busOf h) := rfl
    rw [hbus, o.bus]
    exact (congrArg Pin.lvl (toggleCs_pin_ne u hne)).trans (o.clock _ _ _ hb')
  · intro p; rw [toggleCs_dir]; exact o.dirs p
  · intro hs; exact toggleCs_sorted u h (o.sorted hs)

theorem TransactionOpened.bus {s t : State} {h : Nat} (o : TransactionOpened s t h) :
    t.bus (s.cfg.busOf h) = ⟨true, some s.cur, (s.cfg.dev h).mode, (s.cfg.dev h).order,
      scaleOf s.cfg (s.cfg.busOf h) (s.cfg.dev h).freq⟩ := by simp [State.bus, o.buses]

theorem TransactionOpened.otherBus {s t : State} {h : Nat} (o : TransactionOpened s t h) {b : Nat}
    (hne : b ≠ s.cfg.busOf h) : t.bus b = s.bus b := by
  simp only [State.bus, o.buses]
  exact entry_setEntry_ne _ _ _ hne

theorem closeDev_eq (s : State) (h : Nat) :
    s.closeDev h = (s.toggleCs h).setBus (s.cfg.busOf h)
      { s.bus (s.cfg.busOf h) with held := false, owner := none } := rfl

/-! ### A whole frame -/

/-- What a frame that starts with the grant of `DACQ h` and ends with `DREL h` has done (R187, R208). -/
structure FrameDone (s t : State) (h : Nat) (vs rs : List Byte) : Prop where
  framed : Framed s t h vs rs
  cfg : t.cfg = s.cfg
  strs : t.strs = s.strs
  faults : t.faults = s.faults
  bufs : t.bufs = s.bufs
  lines : t.lines = s.lines
  sched : t.sched = s.sched
  cur : t.cur = s.cur
  path : t.path = .idle
  callers : t.callers = setEntry Caller.idle s.callers s.cur { s.caller s.cur with status := .running }
  buses : t.buses = setEntry Bus.free s.buses (s.cfg.busOf h) ⟨false, none, (s.cfg.dev h).mode,
    (s.cfg.dev h).order, scaleOf s.cfg (s.cfg.busOf h) (s.cfg.dev h).freq⟩
  dirs : ∀ p, (t.pin p).dir = (s.pin p).dir
  sorted : (s.pins.map Prod.fst).Pairwise (· < ·) → (t.pins.map Prod.fst).Pairwise (· < ·)

/-- The replies to a header and a payload, the header's first. -/
def frameReplies (s : State) (h : Nat) (hdr payload : List Byte) : List Byte :=
  (exchangeAll (s.cfg.busOf h) hdr s).1 ++ (s.frame h hdr payload).1

theorem frame_spec (s : State) (h : Nat) (hdr payload : List Byte) (hw : s.cfg.wf = true)
    (hh : h < s.cfg.devs.length) (hsel : s.selected h = false) (hp : s.path = .idle) :
    FrameDone s ((s.openDev h).frame h hdr payload).2 h (hdr ++ payload)
      (frameReplies (s.openDev h) h hdr payload) := by
  have o := openDev_spec s h hw hh hsel
  generalize s.openDev h = u at o
  have hbo : u.cfg.busOf h = s.cfg.busOf h := by rw [o.cfg]
  have hu : u.cfg.wf = true := by rw [o.cfg]; exact hw
  have hall := sent_exchangeAll (s.cfg.busOf h) (hdr ++ payload) u hu o.clock (by rw [o.path]; exact hp)
  have hsplit := exchangeAll_append (s.cfg.busOf h) hdr payload u
  have hreplies : frameReplies u h hdr payload = (exchangeAll (s.cfg.busOf h) (hdr ++ payload) u).1 := by
    rw [hsplit]
    simp only [frameReplies, frame, hbo]
  have hfin : (u.frame h hdr payload).2 = (exchangeAll (s.cfg.busOf h) (hdr ++ payload) u).2.closeDev h := by
    rw [hsplit]
    simp only [frame, hbo]
  rw [hreplies, hfin]
  generalize exchangeAll (s.cfg.busOf h) (hdr ++ payload) u = z at hall ⊢
  obtain ⟨rs, w⟩ := z
  dsimp only at hall ⊢
  have hwc : w.cfg = s.cfg := hall.wire.cfg.trans o.cfg
  have hpins : ∀ p, (∀ sck mosi miso, s.cfg.backend (s.cfg.busOf h) = .sw sck mosi miso → p ≠ mosi) →
      w.pin p = u.pin p := fun p hq => hall.bytes.pins p (by rw [o.cfg]; exact hq)
  have hcspin : w.pin (s.cfg.dev h).csPin = u.pin (s.cfg.dev h).csPin :=
    hpins _ fun sck mosi miso hb => (Config.wf_cs_pins hw hh hb).2.1
  have hcs : w.cs h = !(s.cfg.dev h).csIdle := by
    rw [← o.cs]
    simp only [State.cs, State.lvl, hwc, o.cfg, hcspin]
  have hbusw : w.bus (s.cfg.busOf h) = ⟨true, some s.cur, (s.cfg.dev h).mode, (s.cfg.dev h).order,
      scaleOf s.cfg (s.cfg.busOf h) (s.cfg.dev h).freq⟩ := by rw [hall.wire.bus, o.bus]
  obtain ⟨es, hte, hxe⟩ := hall.bytes.trace
  rw [o.bus, o.cfg] at hxe
  have hbuses : (w.closeDev h).buses = setEntry Bus.free s.buses (s.cfg.busOf h) ⟨false, none,
      (s.cfg.dev h).mode, (s.cfg.dev h).order, scaleOf s.cfg (s.cfg.busOf h) (s.cfg.dev h).freq⟩ := by
    rw [closeDev_eq, setBus_buses, hwc, hbusw]
    show setEntry Bus.free w.buses (s.cfg.busOf h) _ = _
    rw [hall.wire.buses, o.buses, setEntry_setEntry]
  refine ⟨⟨⟨es, ?_, hxe⟩, ?_, ?_, ?_, ?_, ?_⟩, hwc, hall.wire.strs.trans o.strs, hall.wire.faults.trans o.faults,
    hall.wire.bufs.trans o.bufs, hall.wire.lines.trans o.lines, hall.wire.sched.trans o.sched,
    hall.wire.cur.trans o.cur, hall.bytes.path, ?_, hbuses, ?_, fun hs => toggleCs_sorted w h (hall.sorted (o.sorted hs))⟩
  · rw [closeDev_eq, setBus_trace, toggleCs_trace, hcs, hte, o.trace]
    simp
  · rw [closeDev_eq, setBus_slaves, toggleCs_slaves, hcs, hall.bytes.slaves, o.slaves, hwc, o.cfg, o.bus]
    simp [hearAll_append]
  · intro p hq
    by_cases hpc : p = (s.cfg.dev h).csPin
    · subst hpc
      refine pin_ext ?_ ?_
      · rw [closeDev_eq, setBus_pin, toggleCs_dir, hcspin, o.dirs]
      · have h1 : ((w.closeDev h).pin (s.cfg.dev h).csPin).lvl = (w.toggleCs h).cs h := by
          rw [← hwc]; rfl
        rw [h1, toggleCs_cs, hcs, Bool.not_not, ← (selected_eq_false s h).1 hsel]
        rfl
    · rw [closeDev_eq, setBus_pin, toggleCs_pin_ne w (by rw [hwc]; exact hpc),
        hpins p fun sck mosi miso hb => (hq _ _ _ hb).2,
        o.pins p hpc fun sck mosi miso hb => (hq _ _ _ hb).1]
  · intro sck mosi miso hb
    have hne : sck ≠ (w.cfg.dev h).csPin := by
      rw [hwc]; exact fun e => (Config.wf_cs_pins hw hh hb).1 e.symm
    have h1 : (w.closeDev h).lvl sck = w.lvl sck := congrArg Pin.lvl (toggleCs_pin_ne w hne)
    have hc := (clockIdle_iff _ _).1 hall.clock sck mosi miso (by rw [hwc]; exact hb)
    rw [h1, hc, hbusw]
  · simp [State.bus, hbuses]
  · intro b hne
    simp only [State.bus, hbuses]
    exact entry_setEntry_ne _ _ _ hne
  · exact hall.wire.callers.trans o.callers
  · intro p
    rw [closeDev_eq, setBus_pin, toggleCs_dir, hall.dirs, o.dirs]

theorem length_frameReplies (s : State) (h : Nat) (hdr payload : List Byte) :
    (frameReplies s h hdr payload).length = hdr.length + payload.length := by
  simp [frameReplies, frame]

theorem length_frame (s : State) (h : Nat) (hdr payload : List Byte) :
    (s.frame h hdr payload).1.length = payload.length := by simp [frame]

theorem frameReplies_drop (s : State) (h : Nat) (hdr payload : List Byte) :
    (frameReplies s h hdr payload).drop hdr.length = (s.frame h hdr payload).1 := by
  simp [frameReplies]

end Sys2Proof.Machine
end

