-- ==== Sys2Proof/Laws/Effects.lean ====
section
/-! SUPPORT. Everything an operation can do, said once (`Effect`), for every meaning and every grant piece; and
everything a step can do around it (`step_cases`). -/

namespace Sys2Proof.Machine

open State

/-- Everything operation `i` of the current caller can do to a state. -/
inductive Effect (s : State) (i : Instr) : State → Prop where
  /-- It answers and nothing else happens. -/
  | quiet (r : Result) : Effect s i (s.finish r)
  /-- A stream is emptied. -/
  | flush (x : Nat) : x < s.cfg.strs.length → Effect s i ((s.setStr x Stream.empty).finish .none)
  /-- A model fault is recorded. -/
  | fail (c : FaultCode) (op : Instr) : Effect s i (s.failWith c op)
  /-- It waits for a held bus. -/
  | wait (b : Nat) (a : Word32) : waitBus s.cfg i = some b →
      (s.bus b).held = true → Effect s i (s.wait b i a)
  /-- A session is opened on a free bus. -/
  | openBus (b : Nat) (mode : Mode) (order : Order) (freq : Word32) : b < s.cfg.buses.length →
      (s.bus b).held = false → Effect s i ((s.openBus b mode order freq).finish .none)
  /-- The holder closes its session, no handle of the bus being selected. -/
  | closeBus (b : Nat) : b < s.cfg.buses.length → (s.bus b).owner = some s.cur → s.anySelected b = false →
      Effect s i ((s.closeBus b).finish .none)
  /-- The holder exchanges bytes. -/
  | send (b : Nat) (vs : List Byte) (dest : Option BufRef) (out : List Byte) (r : Result) :
      b < s.cfg.buses.length → (s.bus b).owner = some s.cur →
      Effect s i (((exchangeAll b vs s).2.store dest out).finish r)
  /-- A transaction is opened on a free bus. -/
  | openDev (h : Nat) : h < s.cfg.devs.length → (s.bus (s.cfg.busOf h)).held = false → s.selected h = false →
      Effect s i ((s.openDev h).finish .none)
  /-- The holder closes its transaction. -/
  | closeDev (h : Nat) : h < s.cfg.devs.length → (s.bus (s.cfg.busOf h)).owner = some s.cur →
      s.selected h = true → Effect s i ((s.closeDev h).finish .none)
  /-- A whole frame on a free bus, then buffers and streams. -/
  | frame (h : Nat) (hdr payload : List Byte) (dest : Option BufRef) (out : List Byte) (strs : List Stream)
      (r : Result) : h < s.cfg.devs.length → (s.bus (s.cfg.busOf h)).held = false → s.selected h = false →
      (s.strs.length = s.cfg.strs.length → strs.length = s.strs.length) →
      Effect s i (((({ ((s.openDev h).frame h hdr payload).2 with strs := strs } : State).store dest out)).finish r)

/-! ### The preconditions -/

theorem holds_iff (s : State) (c b : Nat) : s.holds c b = true ↔ (s.bus b).owner = some c := by
  simp [holds]

theorem xferFault_none {s : State} {b : Nat} (h : s.xferFault b = none) : (s.bus b).owner = some s.cur := by
  unfold xferFault at h
  split at h
  · rwa [← holds_iff]
  · cases h

theorem relFault_none {s : State} {b : Nat} (h : s.relFault b = none) :
    (s.bus b).owner = some s.cur ∧ s.anySelected b = false := by
  unfold relFault at h
  split at h
  · cases h
  · rename_i h1
    split at h
    · cases h
    · rename_i h2
      exact ⟨(holds_iff _ _ _).1 (by simpa using h1), by simpa using h2⟩

theorem devFault_none {s : State} {h : Nat} (hf : s.devFault h = none) :
    (s.bus (s.cfg.busOf h)).owner = some s.cur ∧ s.selected h = true := by
  unfold devFault at hf
  split at hf
  · cases hf
  · rename_i h1
    split at hf
    · cases hf
    · rename_i h2
      exact ⟨(holds_iff _ _ _).1 (by simpa using h1), by simpa using h2⟩

theorem drelFault_none {s : State} {h : Nat} (hf : s.drelFault h = none) :
    (s.bus (s.cfg.busOf h)).owner = some s.cur ∧ s.selected h = true := by
  unfold drelFault at hf
  split at hf
  · cases hf
  · rename_i h1
    split at hf
    · cases hf
    · rename_i h2
      exact ⟨(holds_iff _ _ _).1 (by simpa using h1), by simpa using h2⟩

theorem orShort_none {s : State} {f : Option FaultCode} {d r : Option BufRef} {n : Word32}
    (h : s.orShort f d r n = none) : f = none ∧ s.short d n = false ∧ s.short r n = false := by
  unfold orShort at h
  cases f with
  | some c => cases h
  | none =>
    dsimp only at h
    split at h
    · cases h
    · rename_i h1
      simp only [Bool.not_eq_true, Bool.or_eq_false_iff] at h1
      exact ⟨rfl, h1⟩

theorem inRange_next {u n : Nat} {s t : State} (h : inRange u n s = .next t) : u < n ∧ t = s := by
  unfold inRange at h
  split at h
  · exact ⟨‹_›, by cases h; rfl⟩
  · cases h

@[simp] theorem finish_finish (s : State) (r r' : Result) : (s.finish r).finish r' = s.finish r' := by
  simp [finish]

theorem exchangeAll_one (b : Nat) (v : Byte) (s : State) : (exchangeAll b [v] s).2 = (s.exchange b v).2 := rfl

/-! ### Every meaning -/

/-- An operation that begins with `DACQ h`, granted: `F3`, or what its body makes of the open transaction. -/
theorem grantDev_cases {P : State → Prop} (s : State) (h : Nat) (op : Instr) (body : State → State)
    (hf : s.selected h = true → P (s.failWith .selectMismatch op))
    (hb : s.selected h = false → P (body (s.openDev h))) : P (s.grantDev h op body) := by
  unfold grantDev
  cases hs : s.selected h
  · simpa using hb hs
  · simpa using hf hs

theorem openDev_strs (s : State) (h : Nat) : (s.openDev h).strs = s.strs :=
  ((wireOnly_toggleCs _ h).strs).trans
    (openBus_spec s (s.cfg.busOf h) (s.cfg.dev h).mode (s.cfg.dev h).order (s.cfg.dev h).freq).strs

theorem openDev_cfg (s : State) (h : Nat) : (s.openDev h).cfg = s.cfg :=
  ((wireOnly_toggleCs _ h).cfg).trans
    (openBus_spec s (s.cfg.busOf h) (s.cfg.dev h).mode (s.cfg.dev h).order (s.cfg.dev h).freq).cfg

theorem frame_strs (s : State) (h : Nat) (hdr payload : List Byte) :
    ((s.openDev h).frame h hdr payload).2.strs = s.strs := by
  have h1 := (wireOnly_exchangeAll ((s.openDev h).cfg.busOf h) hdr (s.openDev h))
  have h2 := (wireOnly_exchangeAll ((s.openDev h).cfg.busOf h) payload
    (exchangeAll ((s.openDev h).cfg.busOf h) hdr (s.openDev h)).2)
  exact (h2.strs.trans h1.strs).trans (openDev_strs s h)

theorem frame_cfg (s : State) (h : Nat) (hdr payload : List Byte) :
    ((s.openDev h).frame h hdr payload).2.cfg = s.cfg := by
  have h1 := (wireOnly_exchangeAll ((s.openDev h).cfg.busOf h) hdr (s.openDev h))
  have h2 := (wireOnly_exchangeAll ((s.openDev h).cfg.busOf h) payload
    (exchangeAll ((s.openDev h).cfg.busOf h) hdr (s.openDev h)).2)
  exact (h2.cfg.trans h1.cfg).trans (openDev_cfg s h)

/-- The last effect, for a frame given by name. -/
theorem Effect.framed {s : State} {i : Instr} {h : Nat} {hdr payload : List Byte} {z : List Byte × State}
    (hz : (s.openDev h).frame h hdr payload = z) (dest : Option BufRef) (out : List Byte) (strs : List Stream)
    (r : Result) (hh : h < s.cfg.devs.length) (hheld : (s.bus (s.cfg.busOf h)).held = false)
    (hs : s.selected h = false) (hl : s.strs.length = s.cfg.strs.length → strs.length = s.strs.length) :
    Effect s i (((({ z.2 with strs := strs } : State).store dest out)).finish r) := by
  subst hz
  exact .frame h hdr payload dest out strs r hh hheld hs hl

/-- Every grant piece on a free bus is one of the effects. -/
theorem effect_of_grant {s : State} {i : Instr} {b : Nat} (a : Word32) (hw : s.cfg.wf = true)
    (hu : i.unitInRange s.cfg = true) (hb : waitBus s.cfg i = some b) (hheld : (s.bus b).held = false) :
    Effect s i (grantPiece i a s) := by
  have hm : ∀ m, m < s.cfg.mems.length → s.cfg.handleOf m < s.cfg.devs.length :=
    fun m hm => (Config.wf_handle hw hm).1
  have hx : ∀ x, x < s.cfg.strs.length → streamHandle s.cfg x < s.cfg.devs.length :=
    fun x hx => hm _ (Config.wf_stream hw hx)
  cases i <;> simp only [waitBus, Option.some.injEq, reduceCtorEq] at hb <;>
    simp only [Instr.unitInRange, unitOk, Bool.and_eq_true, decide_eq_true_eq] at hu <;>
    subst hb <;> simp only [grantPiece]
  case bacq b mode order freq => exact .openBus b mode order freq hu.1 hheld
  case dacq h =>
    exact grantDev_cases (P := Effect s _) s h _ _ (fun _ => .fail _ _) fun hs => .openDev h hu.1 hheld hs
  case mread m d a' n =>
    unfold grantMread
    dsimp only
    refine grantDev_cases (P := Effect s _) s _ _ _ (fun _ => .fail _ _) fun hs => ?_
    have hz := frame_strs s (s.cfg.handleOf m) (header opRead a)
      ((s.openDev (s.cfg.handleOf m)).blockOut d none n)
    generalize he : (s.openDev (s.cfg.handleOf m)).frame (s.cfg.handleOf m) (header opRead a)
      ((s.openDev (s.cfg.handleOf m)).blockOut d none n) = z at hz ⊢
    exact Effect.framed he d z.1 z.2.strs .none (hm _ hu.1) hheld hs fun _ => congrArg List.length hz
  case mwrite m a' r n =>
    unfold grantMwrite
    dsimp only
    refine grantDev_cases (P := Effect s _) s _ _ _ (fun _ => .fail _ _) fun hs => ?_
    have hz := frame_strs s (s.cfg.handleOf m) (header opWrite a)
      ((s.openDev (s.cfg.handleOf m)).blockOut none r n)
    generalize he : (s.openDev (s.cfg.handleOf m)).frame (s.cfg.handleOf m) (header opWrite a)
      ((s.openDev (s.cfg.handleOf m)).blockOut none r n) = z at hz ⊢
    exact Effect.framed he none [] z.2.strs .none (hm _ hu.1) hheld hs fun _ => congrArg List.length hz
  case sput x v =>
    unfold grantSput
    dsimp only
    refine grantDev_cases (P := Effect s _) s _ _ _ (fun _ => .fail _ _) fun hs => ?_
    have hz := frame_strs s (streamHandle s.cfg x) (header opWrite a) [v]
    generalize he : (s.openDev (streamHandle s.cfg x)).frame (streamHandle s.cfg x) (header opWrite a) [v] = z
      at hz ⊢
    refine Effect.framed he none [] (setEntry Stream.empty z.2.strs x _) .accepted (hx _ hu.1) hheld hs fun hl => ?_
    rw [length_setEntry _ _ _ _ (by rw [hz, hl]; exact hu.1), hz]
  case speek x =>
    unfold grantSpeek
    dsimp only
    refine grantDev_cases (P := Effect s _) s _ _ _ (fun _ => .fail _ _) fun hs => ?_
    have hz := frame_strs s (streamHandle s.cfg x) (header opRead a) [(s.openDev (streamHandle s.cfg x)).cfg.fill]
    generalize he : (s.openDev (streamHandle s.cfg x)).frame (streamHandle s.cfg x) (header opRead a)
      [(s.openDev (streamHandle s.cfg x)).cfg.fill] = z at hz ⊢
    exact Effect.framed he none [] z.2.strs _ (hx _ hu.1) hheld hs fun _ => congrArg List.length hz
  case sget x =>
    unfold grantSget
    dsimp only
    refine grantDev_cases (P := Effect s _) s _ _ _ (fun _ => .fail _ _) fun hs => ?_
    have hz := frame_strs s (streamHandle s.cfg x) (header opRead a) [(s.openDev (streamHandle s.cfg x)).cfg.fill]
    generalize he : (s.openDev (streamHandle s.cfg x)).frame (streamHandle s.cfg x) (header opRead a)
      [(s.openDev (streamHandle s.cfg x)).cfg.fill] = z at hz ⊢
    refine Effect.framed he none [] (setEntry Stream.empty z.2.strs x _) (.byte (z.1.headD 0)) (hx _ hu.1) hheld hs
      fun hl => ?_
    rw [length_setEntry _ _ _ _ (by rw [hz, hl]; exact hu.1), hz]

/-- The wait of an operation that begins with an acquire. -/
theorem effect_of_acquire {s t : State} {i : Instr} {b : Nat} {a : Word32} {grant : State → State}
    (hb : waitBus s.cfg i = some b) (hg : (s.bus b).held = false → Effect s i (grant s))
    (h : Host.Outcome.next (φ := Fault) (ρ := Refusal) (s.acquire b i a grant) = .next t) : Effect s i t := by
  cases h
  unfold acquire
  cases hh : (s.bus b).held
  · simpa using hg hh
  · simpa using Effect.wait (s := s) b a hb hh

/-- An exchange of bytes guarded by the preconditions of a transfer. -/
theorem effect_of_guarded {s t : State} {i : Instr} {u n : Nat} {f : Option FaultCode} {op : Instr} {body : State}
    (h : inRange u n (match f with
      | some c => s.failWith c op
      | none => body) = .next t) (hb : f = none → u < n → Effect s i body) : Effect s i t := by
  obtain ⟨hlt, rfl⟩ := inRange_next h
  cases f with
  | some c => exact .fail c op
  | none => exact hb rfl hlt

theorem effect_of_header {s t : State} {i op : Instr} {h : Nat} {opc : Byte} {a : BitVec 24} (hw : s.cfg.wf = true)
    (hx : sendHeader h opc a op s = .next t) : Effect s i t := by
  refine effect_of_guarded hx fun hf hlt => ?_
  exact .send (s.cfg.busOf h) (wireBytes opc a) none [] .none (Config.wf_bus_lt hw hlt) (devFault_none hf).1

/-- Every meaning is one of the effects. -/
theorem effect_of_exec {s t : State} {i : Instr} (hw : s.cfg.wf = true) (hu : i.unitInRange s.cfg = true)
    (h : exec i s = .next t) : Effect s i t := by
  have hgrant : ∀ {b : Nat} (a : Word32), waitBus s.cfg i = some b → (s.bus b).held = false →
      Effect s i (grantPiece i a s) := fun a hb hh => effect_of_grant a hw hu hb hh
  cases i with
  | bacq b mode order freq =>
    obtain ⟨_, rfl⟩ := inRange_next h
    exact effect_of_acquire (i := .bacq b mode order freq) (a := 0) (grant := grantBacq b mode order freq) rfl
      (hgrant 0 rfl) rfl
  | brel b =>
    exact effect_of_guarded h fun hf hlt => .closeBus b hlt (relFault_none hf).1 (relFault_none hf).2
  | bxfer b v =>
    exact effect_of_guarded h fun hf hlt => .send b [v] none [] _ hlt (xferFault_none hf)
  | bxblk b d r n =>
    exact effect_of_guarded h fun hf hlt => .send b _ d _ .none hlt (xferFault_none (orShort_none hf).1)
  | dacq g =>
    obtain ⟨_, rfl⟩ := inRange_next h
    exact effect_of_acquire (i := .dacq g) (a := 0) (grant := grantDacq g) rfl (hgrant 0 rfl) rfl
  | drel g =>
    exact effect_of_guarded h fun hf hlt => .closeDev g hlt (drelFault_none hf).1 (drelFault_none hf).2
  | dxfer g v =>
    exact effect_of_guarded h fun hf hlt =>
      .send (s.cfg.busOf g) [v] none [] _ (Config.wf_bus_lt hw hlt) (devFault_none hf).1
  | dxblk g d r n =>
    exact effect_of_guarded h fun hf hlt =>
      .send (s.cfg.busOf g) _ d _ .none (Config.wf_bus_lt hw hlt) (devFault_none (orShort_none hf).1).1
  | mread m d a n =>
    obtain ⟨_, rfl⟩ := inRange_next h
    split
    · exact .fail _ _
    · split
      · exact .quiet _
      · exact effect_of_acquire (grant := grantMread m d a n) rfl (hgrant a rfl) rfl
  | mwrite m a r n =>
    obtain ⟨_, rfl⟩ := inRange_next h
    split
    · exact .fail _ _
    · split
      · exact .quiet _
      · exact effect_of_acquire (grant := grantMwrite m a r n) rfl (hgrant a rfl) rfl
  | sput x v =>
    obtain ⟨_, rfl⟩ := inRange_next h
    split
    · exact .quiet _
    · exact effect_of_acquire (grant := grantSput x v _) rfl (hgrant _ rfl) rfl
  | savail x =>
    obtain ⟨_, rfl⟩ := inRange_next h
    exact .quiet _
  | speek x =>
    obtain ⟨_, rfl⟩ := inRange_next h
    split
    · exact .quiet _
    · exact effect_of_acquire (grant := grantSpeek x _) rfl (hgrant _ rfl) rfl
  | sget x =>
    obtain ⟨_, rfl⟩ := inRange_next h
    split
    · exact .quiet _
    · exact effect_of_acquire (grant := grantSget x _) rfl (hgrant _ rfl) rfl
  | sflush x =>
    obtain ⟨hlt, rfl⟩ := inRange_next h
    exact .flush x hlt
  | read g a => exact effect_of_header hw h
  | write g a => exact effect_of_header hw h
  | rdmr g a => exact effect_of_header hw h
  | wrmr g a => exact effect_of_header hw h

/-! ### What a step can do -/

/-- Everything a step can do: nobody moves, a schedule entry is dropped, a caller takes a hold step or has nothing
to issue, a waiting caller takes its grant piece, or a caller runs the operation its port delivers. -/
theorem step_cases {s t : State} (h : step s = .next t) :
    s.cfg.wf = true ∧ s.shapeOk = true ∧
    (t = s ∨ (∃ c rest, s.sched = c :: rest ∧ t = { s with sched := rest }) ∨
      ∃ c rest, s.sched = c :: rest ∧ c < s.cfg.ncaller ∧
        (t = s.turn c rest ∨
          (∃ b op a, (s.caller c).status = .waiting b op a ∧ (s.bus b).held = false ∧
            t = grantPiece op a (s.turn c rest)) ∨
          (∃ i ws, (∀ b op a, (s.caller c).status ≠ .waiting b op a) ∧
            decode s.cfg (s.caller c).port = .ok i ws ∧ exec i ((s.turn c rest).issue ws) = .next t))) := by
  unfold step at h
  split at h
  · cases h
  · rename_i hwf
    split at h
    · cases h
    · rename_i hsh
      refine ⟨by simpa using hwf, by simpa using hsh, ?_⟩
      have fetch : ∀ c rest, (∀ b op a, (s.caller c).status ≠ .waiting b op a) →
          fetchAndRun (s.turn c rest) = .next t → t = s.turn c rest ∨ ∃ i ws,
            (∀ b op a, (s.caller c).status ≠ .waiting b op a) ∧ decode s.cfg (s.caller c).port = .ok i ws ∧
              exec i ((s.turn c rest).issue ws) = .next t := by
        intro c rest hnw hf
        have hport : decode (s.turn c rest).cfg ((s.turn c rest).caller (s.turn c rest).cur).port =
            decode s.cfg (s.caller c).port := rfl
        unfold fetchAndRun at hf
        rw [hport] at hf
        cases hd : decode s.cfg (s.caller c).port with
        | empty => rw [hd] at hf; cases hf; exact .inl rfl
        | refused e => rw [hd] at hf; cases hf
        | ok i ws => rw [hd] at hf; exact .inr ⟨i, ws, hnw, rfl, hf⟩
      unfold runAccepted at h
      split at h
      · cases h
      unfold runScheduled at h
      cases hs : s.sched with
      | nil => rw [hs] at h; cases h; exact .inl rfl
      | cons c rest =>
        rw [hs] at h
        dsimp only at h
        split at h
        · rename_i hc
          refine .inr (.inr ⟨c, rest, rfl, hc, ?_⟩)
          unfold runPiece at h
          have hst : ((s.turn c rest).caller (s.turn c rest).cur).status = (s.caller c).status := rfl
          rw [hst] at h
          cases hcs : (s.caller c).status with
          | waiting b op a =>
            rw [hcs] at h
            cases h
            unfold resume
            have hbus : (s.turn c rest).bus b = s.bus b := rfl
            rw [hbus]
            cases hh : (s.bus b).held
            · exact .inr (.inl ⟨b, op, a, rfl, hh, by simp⟩)
            · exact .inl (by simp)
          | idle =>
            rw [hcs] at h
            have hnw : ∀ b op a, (s.caller c).status ≠ .waiting b op a := by rw [hcs]; intros; simp
            rcases fetch c rest hnw h with hq | hq
            · exact .inl hq
            · rw [← hcs]; exact .inr (.inr hq)
          | running =>
            rw [hcs] at h
            have hnw : ∀ b op a, (s.caller c).status ≠ .waiting b op a := by rw [hcs]; intros; simp
            rcases fetch c rest hnw h with hq | hq
            · exact .inl hq
            · rw [← hcs]; exact .inr (.inr hq)
        · cases h
          exact .inr (.inl ⟨c, rest, rfl, rfl⟩)

end Sys2Proof.Machine
end

