-- ==== Sys2Proof/Laws/Answers.lean ====
section
/-! SUPPORT. When the checks of an operation pass, what it answers (R249), and how the parts of the state that a piece leaves
alone carry over (`Answered`, `Framed`). -/

namespace Sys2Proof.Machine

open State

theorem finish_setStatus (s : State) (st : Status) (r : Result) : (s.setStatus st).finish r = s.finish r := by
  simp [setStatus, finish]

theorem answered_of_running {s t : State} (r : Result) (hcfg : t.cfg = s.cfg) (hf : t.faults = s.faults)
    (hl : t.lines = s.lines) (hs : t.sched = s.sched) (hc : t.cur = s.cur)
(hca : t.callers = setEntry Caller.idle s.callers s.cur { s.caller s.cur with status := .running }) : Answered s
    (t.finish r) r := by
  refine ⟨?_, ?_, hcfg, hf, hl, hs, hc⟩
  · simp [finish, hc, caller, hca]
  · intro c hne; simp [finish, hc, caller, hca, entry_setEntry_ne _ _ _ hne]

theorem answered_of_same {s t : State} (r : Result) (hcfg : t.cfg = s.cfg) (hf : t.faults = s.faults)
    (hl : t.lines = s.lines) (hs : t.sched = s.sched) (hc : t.cur = s.cur)
    (hca : t.callers = s.callers) : Answered s (t.finish r) r := by
  refine ⟨?_, ?_, hcfg, hf, hl, hs, hc⟩
  · simp [finish, hc, caller, hca]
  · intro c hne; simp [finish, hc, caller, hca, entry_setEntry_ne _ _ _ hne]

theorem answered_finish {s t : State} (h : WireOnly s t) (r : Result) : Answered s (t.finish r) r :=
  answered_of_same r h.cfg h.faults h.lines h.sched h.cur h.callers

theorem drelFault_ready {s : State} {h : Nat} (d : DevReady s h) : s.drelFault h = none := by
  simp [drelFault, holds, d.owner, (selected_iff s h).2 d.selected]

theorem devFault_ready {s : State} {h : Nat} (d : DevReady s h) : s.devFault h = none := by
  simp [devFault, holds, d.owner, (selected_iff s h).2 d.selected]

theorem not_eq_of_ne {x y : Level} (h : x ≠ y) : (!x) = y := by cases x <;> cases y <;> simp_all

theorem xferFault_holder {s : State} {b : Nat} (ho : (s.bus b).owner = some s.cur) : s.xferFault b = none := by
  simp [xferFault, holds, ho]

theorem exec_bxfer {s : State} {b : Nat} (v : Byte) (hl : b < s.cfg.buses.length)
    (ho : (s.bus b).owner = some s.cur) :
    exec (.bxfer b v) s = .next ((s.exchange b v).2.finish (.byte (s.exchange b v).1)) := by
  simp [exec, execBxfer, inRange, hl, xferFault_holder ho]

theorem exec_dacq {s : State} {h : Nat} (d : DevFree s h) : exec (.dacq h) s = .next ((s.openDev h).finish .none) :=
    by
  simp [exec, execDacq, inRange, d.inRange, acquire, d.free, grantDacq, grantDev, (selected_eq_false s h).2 d.idle]

theorem exec_drel {s : State} {h : Nat} (d : DevReady s h) : exec (.drel h) s = .next ((s.closeDev h).finish .none)
    := by
  simp [exec, execDrel, inRange, d.inRange, drelFault_ready d]

theorem grantMread_eq (s : State) (m : Nat) (d : Option BufRef) (a n : Word32)
    (hs : s.selected (s.cfg.handleOf m) = false) :
grantMread m d a n s =
    ((((s.openDev (s.cfg.handleOf m)).frame (s.cfg.handleOf m) (header opRead a) (s.blockOut d none n)).2).store d
      ((s.openDev (s.cfg.handleOf m)).frame (s.cfg.handleOf m) (header opRead a) (s.blockOut d none n)).1).finish .none := by
  have : (s.openDev (s.cfg.handleOf m)).blockOut d none n = s.blockOut d none n := by
    cases d <;> simp [blockOut, openDev_cfg]
  simp only [grantMread, grantDev, hs, Bool.false_eq_true, if_false, this]

theorem openDev_bufs (s : State) (h : Nat) : (s.openDev h).bufs = s.bufs := by
  have := (wireOnly_toggleCs (s.openBus (s.cfg.dev h).bus (s.cfg.dev h).mode (s.cfg.dev h).order (s.cfg.dev h).freq) h).bufs
  exact this.trans (openBus_spec s _ _ _ _).bufs

theorem openDev_buf (s : State) (h : Nat) (k : BufRef) : (s.openDev h).buf k = s.buf k := by simp [buf, openDev_bufs]

theorem grantMwrite_eq (s : State) (m : Nat) (d : Option BufRef) (a n : Word32)
    (hs : s.selected (s.cfg.handleOf m) = false) :
grantMwrite m a d n s =
    ((s.openDev (s.cfg.handleOf m)).frame (s.cfg.handleOf m) (header opWrite a) (s.blockOut none d n)).2.finish
    .none := by
  have : (s.openDev (s.cfg.handleOf m)).blockOut none d n = s.blockOut none d n := by
    cases d <;> simp [blockOut, openDev_buf]
  simp only [grantMwrite, grantDev, hs, Bool.false_eq_true, if_false, this]

theorem exec_mread {s : State} {m : Nat} {d : Option BufRef} {a n : Word32} (hm : m < s.cfg.mems.length)
    (f : DevFree s (s.cfg.handleOf m))
    (h1 : s.short d n = false) (h2 : shortCircuit s.cfg d n = false) :
exec (.mread m d a n) s = .next
    (((((s.openDev (s.cfg.handleOf m)).frame (s.cfg.handleOf m) (header opRead a) (s.blockOut d none n)).2).store d
      ((s.openDev (s.cfg.handleOf m)).frame (s.cfg.handleOf m) (header opRead a) (s.blockOut d none n)).1).finish .none) := by
  rw [← grantMread_eq s m d a n ((selected_eq_false _ _).2 f.idle)]
  simp [exec, execMread, inRange, hm, h1, h2, acquire, f.free]

theorem exec_mwrite {s : State} {m : Nat} {d : Option BufRef} {a n : Word32} (hm : m < s.cfg.mems.length)
    (f : DevFree s (s.cfg.handleOf m))
    (h1 : s.short d n = false) (h2 : shortCircuit s.cfg d n = false) :
exec (.mwrite m a d n) s = .next
    (((s.openDev (s.cfg.handleOf m)).frame (s.cfg.handleOf m) (header opWrite a) (s.blockOut none d n)).2.finish .none)
    := by
  rw [← grantMwrite_eq s m d a n ((selected_eq_false _ _).2 f.idle)]
  simp [exec, execMwrite, inRange, hm, h1, h2, acquire, f.free]

theorem not_short {s : State} {d : BufRef} {n : Word32} (h : n.toNat ≤ (s.buf d).length) : s.short (some d) n =
    false := by
  simp [short]; omega

theorem not_circuit {cfg : Config} {d : BufRef} {n : Word32} (h : n ≠ 0) : shortCircuit cfg (some d) n = false := by
  have h' : ¬ n = 0#32 := h
  simp [shortCircuit, h']

theorem frame_at {s : State} {h : Nat} (f : DevFree s h) (hdr payload : List Byte) :
    FrameDone s ((s.openDev h).frame h hdr payload).2 h (hdr ++ payload) (frameReplies (s.openDev h) h hdr payload) :=
  frame_spec s h hdr payload f.wf f.inRange ((selected_eq_false _ _).2 f.idle) f.path

theorem FrameDone.answered {s t : State} {h : Nat} {vs rs : List Byte} (f : FrameDone s t h vs rs) (r : Result) :
    Answered s (t.finish r) r :=
  answered_of_running r f.cfg f.faults f.lines f.sched f.cur f.callers

theorem Framed.congr {s t t' : State} {h : Nat} {vs rs : List Byte} (f : Framed s t h vs rs)
    (h1 : t'.trace = t.trace) (h2 : t'.slaves = t.slaves) (h3 : t'.pins = t.pins) (h4 : t'.buses = t.buses) : Framed
    s t' h vs rs := by
  have hp : ∀ p, t'.pin p = t.pin p := fun p => by simp [State.pin, h3]
  have hb : ∀ p, t'.bus p = t.bus p := fun p => by simp [State.bus, h4]
  obtain ⟨a, b, c, d, e, g⟩ := f
  exact ⟨by rw [h1]; exact a, by rw [h2]; exact b, by intro p hq; rw [hp]; exact c p hq, by intro x y z hq; simp only [State.lvl, hp]; exact d x y z hq, by rw [hb]; exact e, by intro p hq; rw [hb]; exact g p hq⟩

theorem devFree_after {s t : State} {h : Nat} {vs rs : List Byte} (f : DevFree s h) (k : FrameDone s t h vs rs) :
    DevFree t h := by
  refine ⟨by rw [k.cfg]; exact f.wf, by rw [k.cfg]; exact f.inRange, ?_, ?_, k.path⟩
  · rw [k.cfg, k.framed.bus]
  · rw [k.cfg]
    have := k.framed.pins (s.cfg.dev h).csPin (fun sck mosi miso hb => by
      obtain ⟨h1, h2, _⟩ := Config.wf_cs_pins f.wf f.inRange hb; exact ⟨h1, h2⟩)
    simp only [cs, lvl, k.cfg, this]; exact f.idle

theorem devFree_congr {s t : State} {h : Nat} (f : DevFree s h) (h1 : t.cfg = s.cfg) (h2 : t.buses = s.buses)
    (h3 : t.pins = s.pins) (h4 : t.path = s.path) : DevFree t h := by
  obtain ⟨a, b, c, d, e⟩ := f
  refine ⟨by rw [h1]; exact a, by rw [h1]; exact b, ?_, ?_, by rw [h4]; exact e⟩
  · simp only [bus, h1, h2]; exact c
  · simp only [cs, lvl, pin, h1, h3]; exact d

theorem exec_wire {s : State} {h : Nat} (d : DevReady s h) (a : BitVec 24) (i : Instr) (opc : Byte)
    (hi : i = .read h a ∧ opc = 0x03#8 ∨ i = .write h a ∧ opc = 0x02#8 ∨ i = .rdmr h a ∧ opc = 0x05#8 ∨
      i = .wrmr h a ∧ opc = 0x01#8) : exec i s = .next ((exchangeAll (s.cfg.busOf h) (wireBytes opc a) s).2.finish .none) := by
  have : exec i s = sendHeader h opc a i s := by rcases hi with ⟨rfl, rfl⟩ | ⟨rfl, rfl⟩ | ⟨rfl, rfl⟩ | ⟨rfl, rfl⟩ <;> rfl
  rw [this]; simp [sendHeader, inRange, d.inRange, devFault_ready d]

theorem wireBytes_eq (opc : Byte) (a : BitVec 24) : wireBytes opc a =
    [opc, a.extractLsb' 16 8, a.extractLsb' 8 8, a.extractLsb' 0 8] := by
  simp only [wireBytes, header]
  have : ∀ i n, i + n ≤ 24 → (a.setWidth 32).extractLsb' i n = a.extractLsb' i n := by
    intro i n h
    apply BitVec.eq_of_getLsbD_eq
    intro j hj
    simp [hj]; omega
  rw [this 16 8 (by omega), this 8 8 (by omega), this 0 8 (by omega)]

theorem wireBytes_low (o : Byte) (a : Word32) : wireBytes o (a.extractLsb' 0 24) = header o a := by
  simp only [wireBytes, header]
  have : ∀ i n, i + n ≤ 24 → ((a.extractLsb' 0 24).setWidth 32).extractLsb' i n = a.extractLsb' i n := by
    intro i n h
    apply BitVec.eq_of_getLsbD_eq
    intro j hj
    simp [hj, show i + j < 24 by omega]; omega
  rw [this 16 8 (by omega), this 8 8 (by omega), this 0 8 (by omega)]

theorem exchangeAll_setCaller (s : State) (c : Nat) (x : Caller) (b : Nat) (vs : List Byte) :
    exchangeAll b vs (s.setCaller c x) = ((exchangeAll b vs s).1, (exchangeAll b vs s).2.setCaller c x) := by
  have hw := wireOnly_exchangeAll b vs s
  rw [setCaller_eq_withRest, exchangeAll_withRest, setCaller_eq_withRest (s := (exchangeAll b vs s).2), hw.rest_eq, hw.callers]

theorem closeDev_setCaller (s : State) (c : Nat) (x : Caller) (h : Nat) : (s.setCaller c x).closeDev h =
    (s.closeDev h).setCaller c x := rfl

theorem closeDev_setBuf (s : State) (d : BufRef) (x : List Byte) (h : Nat) : (s.setBuf d x).closeDev h =
    (s.closeDev h).setBuf d x := rfl

theorem closeDev_bufs (s : State) (h : Nat) : (s.closeDev h).bufs = s.bufs := rfl

theorem closeDev_cur (s : State) (h : Nat) : (s.closeDev h).cur = s.cur := rfl

/-- The divisor selected is in the set; it is the least that keeps the clock at or below the request, if there is one
(R142), else the largest (R143). -/
theorem selectDivisor_spec (c f : Nat) (l : List Nat) (hl : l ≠ []) :
    selectDivisor c l f ∈ l ∧
    ((∃ e ∈ l, c ≤ f * e) → c ≤ f * selectDivisor c l f ∧ ∀ e ∈ l, c ≤ f * e → selectDivisor c l f ≤ e) ∧
    ((∀ e ∈ l, f * e < c) → ∀ e ∈ l, e ≤ selectDivisor c l f) := by
  unfold selectDivisor
  cases hm : (l.filter (fun d => decide (c ≤ f * d))).min? with
  | some d =>
    rw [List.min?_eq_some_iff] at hm
    obtain ⟨h1, h2⟩ := hm
    simp only [List.mem_filter, decide_eq_true_eq] at h1 h2
    exact ⟨h1.1, fun _ => ⟨h1.2, fun e he hc => h2 e ⟨he, hc⟩⟩, fun h => absurd (h d h1.1) (by omega)⟩
  | none =>
    rw [List.min?_eq_none_iff, List.filter_eq_nil_iff] at hm
    simp only [decide_eq_true_eq] at hm
    cases hx : l.max? with
    | none => rw [List.max?_eq_none_iff] at hx; exact absurd hx hl
    | some d =>
      rw [List.max?_eq_some_iff] at hx
      simp only [Option.getD_some]
      exact ⟨hx.1, fun ⟨e, he, hc⟩ => absurd hc (hm e he), fun _ => hx.2⟩

end Sys2Proof.Machine
end

