-- ==== Sys2Proof/Laws/Pieces.lean ====
section
/-! SUPPORT. What one indivisible piece of a caller leaves alone, for every operation (`Piece`): other callers, other
buses and their pins, the directions of all pins, the configuration (R8, R40, R69, R129, R174, R246). -/

namespace Sys2Proof.Machine

open State

/-- A pin that belongs to bus `b`: its own lines and the selects of its handles. -/
def busPin (cfg : Config) (b p : Nat) : Prop :=
  (∃ sck mosi miso, cfg.backend b = .sw sck mosi miso ∧ (p = sck ∨ p = mosi)) ∨
  ∃ h, h < cfg.devs.length ∧ cfg.busOf h = b ∧ p = (cfg.dev h).csPin

/-- What a piece of the current caller has done to the one bus it uses. -/
structure OnBus (s t : State) (b : Nat) : Prop where
  trace : ∃ es, t.trace = s.trace ++ es ∧ ∀ e ∈ es, eventBus s.cfg e = some b
  slaves : ∃ es, t.slaves = hearAll s.cfg es s.slaves ∧ ∀ e ∈ es, eventBus s.cfg e = some b
  otherBuses : ∀ b', b' ≠ b → t.bus b' = s.bus b'
  pins : ∀ p, ¬ busPin s.cfg b p → t.pin p = s.pin p
  access : (s.bus b).owner = some s.cur ∨ (s.bus b).held = false ∨
    (t.bus b = s.bus b ∧ t.trace = s.trace ∧ t.pins = s.pins ∧ t.slaves = s.slaves)
  after : t.bus b = s.bus b ∨
    ((s.bus b).owner = some s.cur ∧ t.bus b = { s.bus b with held := false, owner := none }) ∨
    ((s.bus b).held = false ∧ ((t.bus b).held = true ∧ (t.bus b).owner = some s.cur ∨
      (t.bus b).held = false ∧ (t.bus b).owner = none))

/-- What one piece of the current caller leaves alone. -/
structure Piece (s t : State) : Prop where
  cfg : t.cfg = s.cfg
  lines : t.lines = s.lines
  sched : t.sched = s.sched
  cur : t.cur = s.cur
  faults : ∃ fs, t.faults = s.faults ++ fs ∧ fs.length ≤ 1
  others : ∀ c, c ≠ s.cur → t.caller c = s.caller c
  ncaller : s.cur < s.callers.length → t.callers.length = s.callers.length
  nbus : s.buses.length = s.cfg.buses.length → t.buses.length = s.buses.length
  nstr : s.strs.length = s.cfg.strs.length → t.strs.length = s.strs.length
  dirs : ∀ p, (t.pin p).dir = (s.pin p).dir
  one : ∃ b, OnBus s t b

/-! ### The events of a bus -/

theorem eventBus_bitEvents (cfg : Config) (b : Nat) (mode : Mode) (bit x : Level) :
    ∀ e ∈ bitEvents b mode bit x, eventBus cfg e = some b := by
  intro e he
  unfold bitEvents at he
  split at he <;> simp at he <;> rcases he with rfl | rfl | rfl | rfl <;> rfl

theorem eventBus_byteEvents (cfg : Config) (b : Nat) (mode : Mode) (order : Order) (v : Byte) (f : Nat → Level) :
    ∀ e ∈ byteEvents b mode order v f, eventBus cfg e = some b := by
  intro e he
  simp only [byteEvents, bitsEvents, List.mem_flatMap] at he
  obtain ⟨k, _, hk⟩ := he
  exact eventBus_bitEvents cfg b mode _ _ e hk

theorem eventBus_bytesHeard (cfg : Config) (b : Nat) (mode : Mode) (order : Order) (vs : List Byte) :
    ∀ e ∈ bytesHeard b mode order vs, eventBus cfg e = some b := by
  intro e he
  simp only [bytesHeard, List.mem_flatMap] at he
  obtain ⟨v, _, hv⟩ := he
  exact eventBus_byteEvents cfg b mode order v _ e hv

theorem eventBus_exchanges (cfg : Config) {be : Backend} {b : Nat} {mode : Mode} {order : Order}
    {vs rs : List Byte} {es : List Event} (h : Exchanges be b mode order vs rs es) :
    ∀ e ∈ es, eventBus cfg e = some b := by
  induction vs generalizing rs es with
  | nil =>
    cases rs with
    | nil => rw [show es = [] from h]; simp
    | cons r rs => exact h.elim
  | cons v vs ih =>
    cases rs with
    | nil => exact h.elim
    | cons r rs =>
      obtain ⟨e1, e2, rfl, h1, h2⟩ := h
      intro e he
      rcases List.mem_append.1 he with he | he
      · unfold exchangeEvents at h1
        split at h1
        · obtain ⟨f, rfl, _⟩ := h1
          exact eventBus_byteEvents cfg b mode order v f e he
        · subst h1
          simp only [List.mem_singleton] at he
          subst he
          rfl
      · exact ih h2 e he

theorem eventBus_openEvents (cfg : Config) (h : Nat) : ∀ e ∈ openEvents cfg h, eventBus cfg e = some (cfg.busOf h) := by
  intro e he
  simp only [openEvents, List.mem_append, List.mem_singleton] at he
  rcases he with he | rfl
  · split at he
    · simp only [List.mem_singleton] at he; subst he; rfl
    · simp at he
  · rfl

/-! ### Ending -/

theorem finish_others (s : State) (r : Result) {c : Nat} (h : c ≠ s.cur) : (s.finish r).caller c = s.caller c := by
  simp [finish, caller_setCaller, h]

theorem Piece.finish {s t : State} (h : Piece s t) (r : Result) : Piece s (t.finish r) := by
  obtain ⟨b, hb⟩ := h.one
  refine ⟨h.cfg, h.lines, h.sched, h.cur, h.faults, ?_, ?_, h.nbus, h.nstr, h.dirs,
    b, hb.trace, hb.slaves, hb.otherBuses, hb.pins, hb.access, hb.after⟩
  · intro c hc
    rw [finish_others t r (by rw [h.cur]; exact hc), h.others c hc]
  · intro hl
    have h1 := h.ncaller hl
    show (setEntry Caller.idle t.callers t.cur _).length = _
    rw [length_setEntry _ _ _ _ (by rw [h1, h.cur]; exact hl), h1]

theorem Piece.refl (s : State) : Piece s s :=
  ⟨rfl, rfl, rfl, rfl, ⟨[], by simp⟩, fun _ _ => rfl, fun _ => rfl, fun _ => rfl, fun _ => rfl, fun _ => rfl,
    0, ⟨[], by simp⟩, ⟨[], rfl, by simp⟩, fun _ _ => rfl, fun _ _ => rfl, .inr (.inr ⟨rfl, rfl, rfl, rfl⟩), .inl rfl⟩

/-! ### Buffers -/

theorem store_fields (s : State) (d : Option BufRef) (bs : List Byte) :
    ∃ bufs, s.store d bs = { s with bufs := bufs } ∧
      ((s.bufs.map Prod.fst).Pairwise (· < ·) → (bufs.map Prod.fst).Pairwise (· < ·)) := by
  unfold State.store
  split
  · exact ⟨_, rfl, id⟩
  · split
    · exact ⟨_, rfl, id⟩
    · exact ⟨_, rfl, sorted_mapPut _ _ _⟩

theorem store_cur (s : State) (d : Option BufRef) (ys : List Byte) : (s.store d ys).cur = s.cur := by
  obtain ⟨b, h, -⟩ := store_fields s d ys; rw [h]

theorem store_caller (s : State) (d : Option BufRef) (ys : List Byte) (c : Nat) : (s.store d ys).caller c = s.caller
    c := by
  obtain ⟨b, h, -⟩ := store_fields s d ys; rw [h]; rfl

theorem store_callers (s : State) (d : Option BufRef) (ys : List Byte) : (s.store d ys).callers = s.callers := by
  obtain ⟨b, h, -⟩ := store_fields s d ys; rw [h]

/-- Buffers and streams do not matter. -/
theorem Piece.store {s t : State} (h : Piece s t) (d : Option BufRef) (bs : List Byte) : Piece s (t.store d bs) := by
  obtain ⟨bufs, he, -⟩ := store_fields t d bs
  rw [he]
  obtain ⟨b, hb⟩ := h.one
  exact ⟨h.cfg, h.lines, h.sched, h.cur, h.faults, h.others, h.ncaller, h.nbus, h.nstr, h.dirs,
    b, hb.trace, hb.slaves, hb.otherBuses, hb.pins, hb.access, hb.after⟩

theorem raise_faults (s : State) (c : FaultCode) (op : Instr) :
    ∃ fs, (s.raise c op).faults = s.faults ++ fs ∧ fs.length ≤ 1 := by
  unfold raise
  dsimp only
  split
  · exact ⟨[], by simp⟩
  · exact ⟨[_], rfl, le_refl 1⟩

theorem raise_fields (s : State) (c : FaultCode) (op : Instr) :
    ∃ fs, s.raise c op = { s with faults := fs } := by
  unfold raise
  dsimp only
  split
  · exact ⟨_, rfl⟩
  · exact ⟨_, rfl⟩

theorem Piece.raise (s : State) (c : FaultCode) (op : Instr) : Piece s (s.raise c op) := by
  obtain ⟨fs, hf⟩ := raise_faults s c op
  obtain ⟨fs', he⟩ := raise_fields s c op
  rw [he] at hf ⊢
  exact ⟨rfl, rfl, rfl, rfl, ⟨fs, hf⟩, fun _ _ => rfl, fun _ => rfl, fun _ => rfl, fun _ => rfl, fun _ => rfl,
    0, ⟨[], by simp⟩, ⟨[], rfl, by simp⟩, fun _ _ => rfl, fun _ _ => rfl, .inr (.inr ⟨rfl, rfl, rfl, rfl⟩), .inl rfl⟩

/-! ### The caller that has moved -/

theorem finish_caller {s u : State} (r : Result) (hc : u.cur = s.cur)
    (hp : (u.caller s.cur).port = (s.caller s.cur).port) :
    (u.finish r).caller s.cur = ⟨.idle, (s.caller s.cur).port, r⟩ := by
  simp [State.finish, hc, hp]

/-- After an operation its caller has the words it had left and is idle, unless the operation waits for a held bus. -/
theorem effect_caller {s t : State} {i : Instr} (hi : Inv s) (e : Effect s i t) :
    (t.caller s.cur).port = (s.caller s.cur).port ∧
    ((t.caller s.cur).status = .idle ∨ ∃ b a, waitBus s.cfg i = some b ∧ (s.bus b).held = true ∧
      (t.caller s.cur).status = .waiting b i a) := by
  have hw := hi.base.cfgWf
  have key : ∀ (u : State) (r : Result), u.cur = s.cur → (u.caller s.cur).port = (s.caller s.cur).port →
      ((u.finish r).caller s.cur).port = (s.caller s.cur).port ∧ (((u.finish r).caller s.cur).status = .idle ∨
        ∃ b a, waitBus s.cfg i = some b ∧ (s.bus b).held = true ∧
          ((u.finish r).caller s.cur).status = .waiting b i a) := by
    intro u r hc hp
    rw [finish_caller r hc hp]
    exact ⟨rfl, .inl rfl⟩
  cases e with
  | quiet r => exact key _ r rfl rfl
  | flush x hx => exact key _ .none rfl rfl
  | fail c op =>
    obtain ⟨fs, he⟩ := raise_fields s c op
    exact key _ .none (by rw [he]) (by rw [he]; rfl)
  | wait b a hb hh =>
    simp only [State.wait, caller_setCaller_self]
    exact ⟨trivial, .inr ⟨b, a, hb, hh, rfl⟩⟩
  | openBus b mode order freq hlt hh =>
    have o := openBus_spec s b mode order freq
    exact key _ .none o.cur (by simp [State.caller, o.callers])
  | closeBus b hlt ho hsel => exact key _ .none rfl rfl
  | send b vs dest out r hlt ho =>
    have h := wireOnly_exchangeAll b vs s
    exact key _ r ((store_cur _ _ _).trans h.cur) (by simp [State.caller, store_callers, h.callers])
  | openDev h hh hheld hsel =>
    have o := openDev_spec s h hw hh hsel
    exact key _ .none o.cur (by simp [State.caller, o.callers])
  | closeDev h hh ho hsel => exact key _ .none rfl rfl
  | frame h hdr payload dest out strs r hh hheld hsel hl =>
    have f := frame_spec s h hdr payload hw hh hsel hi.canon.path
    exact key _ r ((store_cur _ _ _).trans f.cur) (by simp [State.caller, store_callers, f.callers])

/-! ### Every effect is a piece -/

theorem busOther {s : State} {b b' : Nat} (x : Bus) (h : b' ≠ b) : (s.setBus b x).bus b' = s.bus b' := by
  simp [bus_setBus, h]

theorem piece_of_effect {s t : State} {i : Instr} (hi : Inv s) (e : Effect s i t) : Piece s t := by
  have hw := hi.base.cfgWf
  cases e with
  | quiet r => exact (Piece.refl s).finish r
  | flush x hx =>
    refine Piece.finish ?_ .none
    refine ⟨rfl, rfl, rfl, rfl, ⟨[], by simp⟩, fun _ _ => rfl, fun _ => rfl, fun _ => rfl, ?_, fun _ => rfl,
      0, ⟨[], by simp⟩, ⟨[], rfl, by simp⟩, fun _ _ => rfl, fun _ _ => rfl, .inr (.inr ⟨rfl, rfl, rfl, rfl⟩), .inl rfl⟩
    intro hl
    exact length_setEntry _ _ _ _ (by rw [hl]; exact hx)
  | fail c op => exact (Piece.raise s c op).finish .none
  | wait b a hb hh =>
    refine ⟨rfl, rfl, rfl, rfl, ⟨[], (List.append_nil _).symm, Nat.zero_le 1⟩, ?_, ?_, fun _ => rfl, fun _ => rfl, fun _ => rfl,
      0, ⟨[], (List.append_nil _).symm, by simp⟩, ⟨[], rfl, by simp⟩, fun _ _ => rfl, fun _ _ => rfl, .inr (.inr ⟨rfl, rfl, rfl, rfl⟩), .inl rfl⟩
    · intro c hc
      simp [State.wait, caller_setCaller, hc]
    · intro hl
      exact length_setEntry _ _ _ _ hl
  | openBus b mode order freq hlt hh =>
    refine Piece.finish ?_ .none
    have o := openBus_spec s b mode order freq
    generalize s.openBus b mode order freq = u at o
    have hopen : ∀ e ∈ (match s.cfg.backend b with
        | .sw _ _ _ => [Event.sck b mode.cpol]
        | .hw _ _ => []), eventBus s.cfg e = some b := by
      intro e he
      split at he
      · simp only [List.mem_singleton] at he; subst he; rfl
      · simp at he
    refine ⟨o.cfg, o.lines, o.sched, o.cur, ⟨[], by simp [o.faults]⟩, ?_, ?_, ?_, fun _ => by rw [o.strs], o.dirs,
      b, ⟨_, o.trace, hopen⟩, ⟨_, o.slaves, hopen⟩, fun b' hne => o.otherBus hne, ?_, .inr (.inl hh),
      .inr (.inr ⟨hh, .inl ?_⟩)⟩
    · intro c hc
      simp only [State.caller, o.callers]
      exact entry_setEntry_ne _ _ _ hc
    · intro hl; rw [o.callers, length_setEntry _ _ _ _ hl]
    · intro hl; rw [o.buses, length_setEntry _ _ _ _ (by rw [hl]; exact hlt)]
    · intro p hp
      exact o.pins p fun sck mosi miso hb he => hp (.inl ⟨_, _, _, hb, .inl he⟩)
    · rw [o.bus]; exact ⟨rfl, rfl⟩
  | closeBus b hlt ho hsel =>
    refine Piece.finish ?_ .none
    refine ⟨rfl, rfl, rfl, rfl, ⟨[], by simp [closeBus]⟩, fun _ _ => rfl, fun _ => rfl, ?_, fun _ => rfl,
      fun _ => rfl, b, ⟨[], by simp [closeBus]⟩, ⟨[], rfl, by simp⟩, fun b' hne => busOther _ hne, fun _ _ => rfl, .inl ho,
      .inr (.inl ⟨ho, bus_setBus_self _ _ _⟩)⟩
    intro hl
    exact length_setEntry _ _ _ _ (by rw [hl]; exact hlt)
  | send b vs dest out r hlt ho =>
    refine Piece.finish (Piece.store ?_ dest out) r
    have h := sent_exchangeAll b vs s hw (hi.pin.clock b hlt) hi.canon.path
    obtain ⟨es, ht, hx⟩ := h.bytes.trace
    refine ⟨h.wire.cfg, h.wire.lines, h.wire.sched, h.wire.cur, ⟨[], by simp [h.wire.faults]⟩,
      fun c _ => h.wire.caller c, fun _ => by rw [h.wire.callers], fun _ => by rw [h.wire.buses],
      fun _ => by rw [h.wire.strs], h.dirs, b, ⟨es, ht, eventBus_exchanges s.cfg hx⟩,
      ⟨_, h.bytes.slaves, eventBus_bytesHeard s.cfg b _ _ vs⟩, fun b' _ => h.wire.bus b', ?_, .inl ho, .inl (h.wire.bus b)⟩
    intro p hp
    exact h.bytes.pins p fun sck mosi miso hb he => hp (.inl ⟨_, _, _, hb, .inr he⟩)
  | openDev h hh hheld hsel =>
    refine Piece.finish ?_ .none
    have o := openDev_spec s h hw hh hsel
    generalize s.openDev h = u at o
    have hlt := Config.wf_bus_lt hw hh
    refine ⟨o.cfg, o.lines, o.sched, o.cur, ⟨[], by simp [o.faults]⟩, ?_, ?_, ?_, fun _ => by rw [o.strs], o.dirs,
      s.cfg.busOf h, ⟨_, o.trace, eventBus_openEvents s.cfg h⟩, ⟨_, o.slaves, eventBus_openEvents s.cfg h⟩,
      fun b' hne => o.otherBus hne, ?_, .inr (.inl hheld),
      .inr (.inr ⟨hheld, .inl ?_⟩)⟩
    · intro c hc
      simp only [State.caller, o.callers]
      exact entry_setEntry_ne _ _ _ hc
    · intro hl; rw [o.callers, length_setEntry _ _ _ _ hl]
    · intro hl; rw [o.buses, length_setEntry _ _ _ _ (by rw [hl]; exact hlt)]
    · intro p hp
      exact o.pins p (fun he => hp (.inr ⟨h, hh, rfl, he⟩))
        fun sck mosi miso hb he => hp (.inl ⟨_, _, _, hb, .inl he⟩)
    · rw [o.bus]; exact ⟨rfl, rfl⟩
  | closeDev h hh ho hsel =>
    refine Piece.finish ?_ .none
    have hlt := Config.wf_bus_lt hw hh
    have hev : ∀ e ∈ [Event.cs h (!s.cs h)], eventBus s.cfg e = some (s.cfg.busOf h) := by
      intro e he
      simp only [List.mem_singleton] at he
      subst he
      rfl
    refine ⟨rfl, rfl, rfl, rfl, ⟨[], by simp [closeDev, closeBus, toggleCs, driveCs, emit]⟩, fun _ _ => rfl,
      fun _ => rfl, ?_, fun _ => rfl, fun p => toggleCs_dir s h p, s.cfg.busOf h, ⟨[.cs h (!s.cs h)], rfl, hev⟩,
      ⟨[.cs h (!s.cs h)], rfl, hev⟩, fun b' hne => busOther _ hne, ?_, .inl ho, .inr (.inl ⟨ho, bus_setBus_self _ _ _⟩)⟩
    · intro hl
      exact length_setEntry _ _ _ _ (by rw [show (s.toggleCs h).buses = s.buses from rfl, hl]; exact hlt)
    · intro p hp
      exact toggleCs_pin_ne s fun he => hp (.inr ⟨h, hh, rfl, he⟩)
  | frame h hdr payload dest out strs r hh hheld hsel hl =>
    refine Piece.finish (Piece.store ?_ dest out) r
    have f := frame_spec s h hdr payload hw hh hsel hi.canon.path
    generalize ((s.openDev h).frame h hdr payload).2 = u at f
    have hlt := Config.wf_bus_lt hw hh
    obtain ⟨es, ht, hx⟩ := f.framed.trace
    refine ⟨f.cfg, f.lines, f.sched, f.cur, ⟨[], by simp [f.faults]⟩, ?_, ?_, ?_, hl, f.dirs,
      s.cfg.busOf h, ⟨openEvents s.cfg h ++ es ++ [.cs h (s.cfg.dev h).csIdle], ?_, ?_⟩,
      ⟨_, f.framed.slaves, ?_⟩, f.framed.otherBuses, ?_,
      .inr (.inl hheld), .inr (.inr ⟨hheld, .inr ?_⟩)⟩
    · intro c hc
      simp only [State.caller, f.callers]
      exact entry_setEntry_ne _ _ _ hc
    · intro hl; rw [f.callers, length_setEntry _ _ _ _ hl]
    · intro hl; rw [f.buses, length_setEntry _ _ _ _ (by rw [hl]; exact hlt)]
    · simpa using ht
    · intro e he
      simp only [List.mem_append, List.mem_singleton] at he
      rcases he with (he | he) | rfl
      · exact eventBus_openEvents s.cfg h e he
      · exact eventBus_exchanges s.cfg hx e he
      · rfl
    · intro e he
      simp only [List.mem_append, List.mem_singleton] at he
      rcases he with (he | he) | rfl
      · exact eventBus_openEvents s.cfg h e he
      · exact eventBus_bytesHeard s.cfg _ _ _ _ e he
      · rfl
    · intro p hp
      refine f.framed.pins p fun sck mosi miso hb => ⟨fun he => hp (.inl ⟨_, _, _, hb, .inl he⟩),
        fun he => hp (.inl ⟨_, _, _, hb, .inr he⟩)⟩
    · show (u.bus (s.cfg.busOf h)).held = false ∧ (u.bus (s.cfg.busOf h)).owner = none
      rw [f.framed.bus]
      exact ⟨rfl, rfl⟩

end Sys2Proof.Machine
end

