-- ==== Sys2Proof/Laws/Invariants.lean ====
section
/-! SUPPORT. Every effect of an operation keeps the invariants of Safety.lean (R32, R33, R52). -/

namespace Sys2Proof.Machine

open State

/-! ### Hearing keeps the chips' memories in canonical form -/

theorem RefMem.step_wf (m : RefMem) (x : Byte) (h : m.mem.wf = true) : (m.step x).mem.wf = true := by
  unfold RefMem.step
  split
  · exact h
  · exact h
  · exact h
  · exact h
  · exact h
  · split
    · exact h
    · split
      · exact Memory.wf_write _ _ _ h
      · exact h

theorem Slave.load_memOk (x : Slave) (h : x.memOk = true) : x.load.memOk = true := by
  unfold Slave.memOk at h ⊢
  cases hc : x.chip with
  | mem m =>
    have he : x.load.chip = .mem m := by simp [Slave.load, hc, Chip.afterTx]
    rw [he]; rw [hc] at h; exact h
  | script tx rx =>
    have he : x.load.chip = .script tx.tail rx := by simp [Slave.load, hc, Chip.afterTx]
    rw [he]

theorem Slave.advance_memOk (x : Slave) (h : x.memOk = true) : x.advance.memOk = true := by
  unfold Slave.advance
  split
  · refine Slave.load_memOk _ ?_
    unfold Slave.memOk at h ⊢
    cases hc : x.chip with
    | mem m =>
      rw [hc] at h
      simpa [hc, Chip.step] using RefMem.step_wf m x.rx h
    | script tx rx => simp [Chip.step]
  · exact h

theorem Slave.select_memOk (x : Slave) (h : x.memOk = true) : x.select.memOk = true := by
  have h1 : ({ x with sel := true, k := 0, chip := x.chip.select } : Slave).memOk = true := by
    unfold Slave.memOk at h ⊢
    cases hc : x.chip with
    | mem m => rw [hc] at h; exact h
    | script tx rx => rfl
  have h2 := Slave.load_memOk _ h1
  unfold Slave.select
  dsimp only
  split
  · exact h2
  · exact h2

theorem Slave.react_memOk (cfg : Config) (e : Event) (x : Slave) (h : x.memOk = true) :
    (x.react cfg e).memOk = true := by
  unfold Slave.react
  cases e with
  | dir p d => exact h
  | smp b v => exact h
  | xch b t r => exact h
  | mosi b v => dsimp only; split <;> exact h
  | cs g v =>
    dsimp only
    split
    · split
      · unfold Slave.deselect Slave.memOk
        unfold Slave.memOk at h
        cases hc : x.chip with
        | mem m => rw [hc] at h; exact h
        | script tx rx => rfl
      · exact Slave.select_memOk x h
    · exact h
  | sck b v =>
    dsimp only
    split
    · split
      · unfold Slave.trailing
        split
        · exact Slave.advance_memOk _ h
        · exact Slave.advance_memOk x h
      · unfold Slave.leading
        split <;> exact h
    · exact h

theorem hearAll_memOk (cfg : Config) (es : List Event) (xs : List Slave) (h : ∀ x ∈ xs, x.memOk = true) :
    ∀ x ∈ hearAll cfg es xs, x.memOk = true := by
  induction es generalizing xs with
  | nil => exact h
  | cons e es ih =>
    refine ih _ ?_
    intro y hy
    simp only [hear, List.mem_map] at hy
    obtain ⟨x, hx, rfl⟩ := hy
    exact Slave.react_memOk cfg e x (h x hx)

/-! ### States that agree where an invariant looks -/

theorem BusInv.congr {s t : State} (h : BusInv s) (hc : t.cfg = s.cfg)
    (hb : ∀ b, (t.bus b).owner = (s.bus b).owner ∧ (t.bus b).held = (s.bus b).held)
    (hs : ∀ g, g < s.cfg.devs.length → t.selected g = s.selected g) : BusInv t := by
  refine ⟨?_, ?_, ?_⟩
  · intro b hlt
    rw [hc] at hlt
    rw [(hb b).1, (hb b).2]
    exact h.owner b hlt
  · intro g hg hsel
    rw [hc] at hg
    rw [hs g hg] at hsel
    rw [hc, (hb _).2]
    exact h.selHeld g hg hsel
  · intro g hg g' hg' he h1 h2
    rw [hc] at hg hg' he
    rw [hs g hg] at h1
    rw [hs g' hg'] at h2
    exact h.oneSel g hg g' hg' he h1 h2

theorem selected_of_pin {s t : State} (hc : t.cfg = s.cfg) {g : Nat}
    (hp : t.pin (s.cfg.dev g).csPin = s.pin (s.cfg.dev g).csPin) : t.selected g = s.selected g := by
  simp only [State.selected, State.cs, State.lvl, hc, hp]

theorem clockIdle_congr {s t : State} {b : Nat} (hc : t.cfg = s.cfg) (hb : (t.bus b).mode = (s.bus b).mode)
    (hp : ∀ sck mosi miso, s.cfg.backend b = .sw sck mosi miso → t.pin sck = s.pin sck)
    (h : s.clockIdle b = true) : t.clockIdle b = true := by
  rw [clockIdle_iff] at h ⊢
  intro sck mosi miso hbk
  rw [hc] at hbk
  rw [hb, ← h _ _ _ hbk]
  simp only [State.lvl, hp _ _ _ hbk]

theorem busDirs_iff (s : State) (b : Nat) : s.busDirs b = true ↔
    ∀ sck mosi miso, s.cfg.backend b = .sw sck mosi miso →
      (s.pin sck).dir = .out ∧ (s.pin mosi).dir = .out ∧ (s.pin miso).dir = .inp := by
  unfold State.busDirs
  constructor
  · intro h sck mosi miso hb
    rw [hb] at h
    simpa [and_assoc] using h
  · intro h
    split
    · rename_i sck mosi miso hb
      simpa [and_assoc] using h sck mosi miso hb
    · rfl

/-- The directions never change, so the part of the invariant that speaks of them is kept. -/
theorem PinInv.of_clock {s t : State} (h : PinInv s) (hc : t.cfg = s.cfg)
    (hd : ∀ p, (t.pin p).dir = (s.pin p).dir) (hk : ∀ b, b < s.cfg.buses.length → t.clockIdle b = true) :
    PinInv t := by
  refine ⟨fun b hb => hk b (by rw [hc] at hb; exact hb), ?_, ?_⟩
  · intro b hb
    rw [hc] at hb
    have := (busDirs_iff s b).1 (h.busDirs b hb)
    rw [busDirs_iff]
    intro sck mosi miso hbk
    rw [hc] at hbk
    rw [hd, hd, hd]
    exact this _ _ _ hbk
  · intro g hg
    rw [hc] at hg
    rw [hc, hd]
    exact h.csDirs g hg

/-! ### Waits -/

theorem waitOk_of_status {s : State} {c : Nat}
    (h : ∀ b op a, (s.caller c).status = .waiting b op a → op.wf s.cfg = true ∧ waitBus s.cfg op = some b) :
    s.waitOk c = true := by
  unfold State.waitOk
  split
  · rename_i b op a hs
    obtain ⟨h1, h2⟩ := h b op a hs
    simp [h1, h2]
  · rfl
  · rfl

theorem waitOk_congr {s t : State} {c : Nat} (hc : t.cfg = s.cfg) (h : t.caller c = s.caller c)
    (hs : s.waitOk c = true) : t.waitOk c = true := by
  unfold State.waitOk at hs ⊢
  rw [h, hc]
  exact hs

theorem shapeOk_iff (s : State) : s.shapeOk = true ↔ s.buses.length = s.cfg.buses.length ∧
    s.strs.length = s.cfg.strs.length ∧ s.callers.length = s.cfg.ncaller ∧ s.lines.length = s.cfg.buses.length := by
  simp [State.shapeOk, and_assoc]

/-- What an effect leaves as the current caller's status. -/
theorem status_of_effect {s t : State} {i : Instr} (hi : Inv s) (e : Effect s i t) :
    (t.caller s.cur).status = .idle ∨ ∃ b a, (t.caller s.cur).status = .waiting b i a ∧ waitBus s.cfg i = some b :=
  (effect_caller hi e).2.imp_right fun ⟨b, a, hb, _, hst⟩ => ⟨b, a, hst, hb⟩

theorem base_of_effect {s t : State} {i : Instr} (hi : Inv s) (hcur : s.cur < s.cfg.ncaller)
    (hwf : i.wf s.cfg = true) (e : Effect s i t) : Base t := by
  have p := piece_of_effect hi e
  obtain ⟨h1, h2, h3, h4⟩ := (shapeOk_iff s).1 hi.base.shape
  refine ⟨by rw [p.cfg]; exact hi.base.cfgWf, ?_, ?_⟩
  · rw [shapeOk_iff, p.cfg, p.nbus h1, p.nstr h2, p.ncaller (by rw [h3]; exact hcur), p.lines]
    exact ⟨h1, h2, h3, h4⟩
  · intro c hc
    rw [p.cfg] at hc
    by_cases he : c = s.cur
    · subst he
      refine waitOk_of_status ?_
      intro b op a hs
      rw [p.cfg]
      rcases status_of_effect hi e with hst | ⟨b', a', hst, hb⟩
      · rw [hst] at hs; cases hs
      · rw [hst] at hs; cases hs; exact ⟨hwf, hb⟩
    · exact waitOk_congr p.cfg (p.others c he) (hi.base.waits c hc)

/-! ### Buses and selects -/

theorem anySelected_false {s : State} {b : Nat} (h : s.anySelected b = false) {g : Nat}
    (hg : g < s.cfg.devs.length) (hb : s.cfg.busOf g = b) : s.selected g = false := by
  unfold State.anySelected at h
  rw [List.any_eq_false] at h
  have := h g (List.mem_range.2 hg)
  simpa [hb] using this

/-- A session opened on a free bus. -/
theorem BusInv.opened {s t : State} (h : BusInv s) {b : Nat} (hc : t.cfg = s.cfg)
    (hb : (t.bus b).owner ≠ none ∧ (t.bus b).held = true) (ho : ∀ b', b' ≠ b → t.bus b' = s.bus b')
    (hfree : (s.bus b).held = false)
    (hs : ∀ g, g < s.cfg.devs.length → s.cfg.busOf g ≠ b → t.selected g = s.selected g)
    (hone : ∀ g, g < s.cfg.devs.length → ∀ g', g' < s.cfg.devs.length → s.cfg.busOf g = b → s.cfg.busOf g' = b →
      t.selected g = true → t.selected g' = true → g = g') : BusInv t := by
  refine ⟨?_, ?_, ?_⟩
  · intro b' hlt
    by_cases he : b' = b
    · subst he; simp [hb.1, hb.2]
    · rw [ho b' he]; exact h.owner b' (by rw [hc] at hlt; exact hlt)
  · intro g hg hsel
    rw [hc] at hg ⊢
    by_cases he : s.cfg.busOf g = b
    · rw [he]; exact hb.2
    · rw [hs g hg he] at hsel
      rw [ho _ he]
      exact h.selHeld g hg hsel
  · intro g hg g' hg' he h1 h2
    rw [hc] at hg hg' he
    by_cases hgb : s.cfg.busOf g = b
    · exact hone g hg g' hg' hgb (he ▸ hgb) h1 h2
    · rw [hs g hg hgb] at h1
      rw [hs g' hg' (he ▸ hgb)] at h2
      exact h.oneSel g hg g' hg' he h1 h2

/-- A session closed with no handle of the bus selected. -/
theorem BusInv.closed {s t : State} (h : BusInv s) {b : Nat} (hc : t.cfg = s.cfg)
    (hb : (t.bus b).owner = none ∧ (t.bus b).held = false) (ho : ∀ b', b' ≠ b → t.bus b' = s.bus b')
    (hs : ∀ g, g < s.cfg.devs.length → s.cfg.busOf g ≠ b → t.selected g = s.selected g)
    (hnone : ∀ g, g < s.cfg.devs.length → s.cfg.busOf g = b → t.selected g = false) : BusInv t := by
  refine ⟨?_, ?_, ?_⟩
  · intro b' hlt
    by_cases he : b' = b
    · subst he; simp [hb.1, hb.2]
    · rw [ho b' he]; exact h.owner b' (by rw [hc] at hlt; exact hlt)
  · intro g hg hsel
    rw [hc] at hg ⊢
    by_cases he : s.cfg.busOf g = b
    · rw [hnone g hg he] at hsel; cases hsel
    · rw [hs g hg he] at hsel
      rw [ho _ he]
      exact h.selHeld g hg hsel
  · intro g hg g' hg' he h1 h2
    rw [hc] at hg hg' he
    by_cases hgb : s.cfg.busOf g = b
    · rw [hnone g hg hgb] at h1; cases h1
    · rw [hs g hg hgb] at h1
      rw [hs g' hg' (he ▸ hgb)] at h2
      exact h.oneSel g hg g' hg' he h1 h2

theorem busInv_of_effect {s t : State} {i : Instr} (hi : Inv s) (e : Effect s i t) : BusInv t := by
  have hw := hi.base.cfgWf
  have same : ∀ {u : State}, u.cfg = s.cfg → u.buses = s.buses → u.pins = s.pins → BusInv u := by
    intro u hc hb hp
    refine hi.bus.congr hc (fun b => by constructor <;> simp only [State.bus, hb]) fun g _ => ?_
    exact selected_of_pin hc (by simp only [State.pin, hp])
  have notcs : ∀ {g h : Nat}, g < s.cfg.devs.length → h < s.cfg.devs.length → g ≠ h →
      (s.cfg.dev g).csPin ≠ (s.cfg.dev h).csPin := fun hg hh hne he => hne (Config.wf_cs_inj hw hg hh he)
  cases e with
  | quiet r => exact same rfl rfl rfl
  | flush x hx => exact same rfl rfl rfl
  | fail c op =>
    obtain ⟨fs, he⟩ := raise_fields s c op
    unfold failWith
    rw [he]
    exact same rfl rfl rfl
  | wait b a hb hh => exact same rfl rfl rfl
  | openBus b mode order freq hlt hh =>
    have o := openBus_spec s b mode order freq
    generalize s.openBus b mode order freq = u at o
    have hsel : ∀ g, g < s.cfg.devs.length → u.selected g = s.selected g := fun g hg =>
      selected_of_pin o.cfg (o.pins _ fun sck mosi miso hb => (Config.wf_cs_pins hw hg hb).1)
    refine hi.bus.opened (t := u.finish .none) (b := b) o.cfg
      (by show (u.bus b).owner ≠ none ∧ (u.bus b).held = true; rw [o.bus]; simp)
      (fun b' hne => o.otherBus hne) hh (fun g hg _ => hsel g hg) ?_
    intro g hg g' hg' hgb hgb' h1 h2
    rw [show (u.finish .none).selected g = u.selected g from rfl, hsel g hg] at h1
    have := hi.bus.selHeld g hg h1
    rw [hgb, hh] at this
    cases this
  | closeBus b hlt ho hsel =>
    refine hi.bus.closed (t := (s.closeBus b).finish .none) (b := b) rfl ?_ (fun b' hne => busOther _ hne)
      (fun _ _ _ => rfl) ?_
    · show ((s.setBus b _).bus b).owner = none ∧ ((s.setBus b _).bus b).held = false
      rw [bus_setBus_self]
      exact ⟨rfl, rfl⟩
    · intro g hg hgb
      exact anySelected_false hsel hg hgb
  | send b vs dest out r hlt ho =>
    have h := sent_exchangeAll b vs s hw (hi.pin.clock b hlt) hi.canon.path
    generalize (exchangeAll b vs s).2 = u at h ⊢
    obtain ⟨bufs, he, _⟩ := store_fields u dest out
    rw [he]
    refine hi.bus.congr (t := ({ u with bufs := bufs } : State).finish r) h.wire.cfg
      (fun b => by
        show (u.bus b).owner = _ ∧ (u.bus b).held = _
        rw [h.wire.bus]; exact ⟨rfl, rfl⟩) fun g hg => ?_
    exact selected_of_pin (t := u) h.wire.cfg
      (h.bytes.pins _ fun sck mosi miso hb => (Config.wf_cs_pins hw hg hb).2.1)
  | openDev h hh hheld hsel =>
    have o := openDev_spec s h hw hh hsel
    generalize s.openDev h = u at o
    have hother : ∀ g, g < s.cfg.devs.length → g ≠ h → u.selected g = s.selected g := fun g hg hne =>
      selected_of_pin o.cfg (o.pins _ (notcs hg hh hne) fun sck mosi miso hb => (Config.wf_cs_pins hw hg hb).1)
    have hlow : ∀ g, g < s.cfg.devs.length → s.cfg.busOf g = s.cfg.busOf h → u.selected g = true → g = h := by
      intro g hg hgb h1
      by_contra hne
      rw [hother g hg hne] at h1
      have := hi.bus.selHeld g hg h1
      rw [hgb, hheld] at this
      cases this
    refine hi.bus.opened (t := u.finish .none) (b := s.cfg.busOf h) o.cfg
      (by show (u.bus (s.cfg.busOf h)).owner ≠ none ∧ (u.bus (s.cfg.busOf h)).held = true; rw [o.bus]; simp)
      (fun b' hne => o.otherBus hne) hheld
      (fun g hg hne => hother g hg fun e => hne (by rw [e])) ?_
    intro g hg g' hg' hgb hgb' h1 h2
    rw [hlow g hg hgb h1, hlow g' hg' hgb' h2]
  | closeDev h hh ho hsel =>
    have hcs : (s.toggleCs h).selected h = false := by
      rw [selected_eq_false]
      have h1 := (selected_iff s h).1 hsel
      rw [toggleCs_cs]
      show (!s.cs h) = (s.cfg.dev h).csIdle
      cases hx : s.cs h <;> cases hy : (s.cfg.dev h).csIdle <;> simp_all
    have hother : ∀ g, g < s.cfg.devs.length → g ≠ h → (s.toggleCs h).selected g = s.selected g := fun g hg hne =>
      selected_of_pin (s := s) (t := s.toggleCs h) rfl (toggleCs_pin_ne s (notcs hg hh hne))
    refine hi.bus.closed (t := (s.closeDev h).finish .none) (b := s.cfg.busOf h) rfl ?_
      (fun b' hne => busOther _ hne) (fun g hg hne => hother g hg fun e => hne (by rw [e])) ?_
    · show (((s.toggleCs h).setBus (s.cfg.busOf h) _).bus (s.cfg.busOf h)).owner = none ∧
        (((s.toggleCs h).setBus (s.cfg.busOf h) _).bus (s.cfg.busOf h)).held = false
      rw [bus_setBus_self]
      exact ⟨rfl, rfl⟩
    · intro g hg hgb
      show (s.toggleCs h).selected g = false
      by_cases hne : g = h
      · rw [hne]; exact hcs
      · rw [hother g hg hne]
        by_contra hx
        exact hne (hi.bus.oneSel g hg h hh hgb (by simpa using hx) hsel)
  | frame h hdr payload dest out strs r hh hheld hsel hl =>
    have f := frame_spec s h hdr payload hw hh hsel hi.canon.path
    generalize ((s.openDev h).frame h hdr payload).2 = u at f
    obtain ⟨bufs, he, _⟩ := store_fields ({ u with strs := strs } : State) dest out
    rw [he]
    have hs : ∀ g, g < s.cfg.devs.length → u.selected g = s.selected g := fun g hg =>
      selected_of_pin f.cfg (f.framed.pins _ fun sck mosi miso hb =>
        ⟨(Config.wf_cs_pins hw hg hb).1, (Config.wf_cs_pins hw hg hb).2.1⟩)
    refine hi.bus.closed (b := s.cfg.busOf h)
      (t := ({ ({ u with strs := strs } : State) with bufs := bufs } : State).finish r) f.cfg
      (by
        show (u.bus (s.cfg.busOf h)).owner = none ∧ (u.bus (s.cfg.busOf h)).held = false
        rw [f.framed.bus]; exact ⟨rfl, rfl⟩)
      (fun b' hne => f.framed.otherBuses b' hne) (fun g hg _ => hs g hg) ?_
    intro g hg hgb
    show u.selected g = false
    rw [hs g hg]
    by_contra hx
    have := hi.bus.selHeld g hg (by simpa using hx)
    rw [hgb, hheld] at this
    cases this

/-! ### Clocks -/

theorem pinInv_of_effect {s t : State} {i : Instr} (hi : Inv s) (e : Effect s i t) : PinInv t := by
  have hw := hi.base.cfgWf
  have p := piece_of_effect hi e
  have same : t.buses = s.buses → t.pins = s.pins → PinInv t := by
    intro hb hp
    refine hi.pin.of_clock p.cfg p.dirs fun b hlt => ?_
    exact clockIdle_congr p.cfg (by simp only [State.bus, hb]) (fun _ _ _ _ => by simp only [State.pin, hp])
      (hi.pin.clock b hlt)
  have key : ∀ b, (∀ b', b' ≠ b → t.bus b' = s.bus b') → (∀ q, ¬ busPin s.cfg b q → t.pin q = s.pin q) →
      t.clockIdle b = true → PinInv t := by
    intro b ho hp hk
    refine hi.pin.of_clock p.cfg p.dirs fun b' hlt => ?_
    by_cases he : b' = b
    · rw [he]; exact hk
    · refine clockIdle_congr p.cfg (by rw [ho b' he]) ?_ (hi.pin.clock b' hlt)
      intro sck mosi miso hbk
      refine hp sck ?_
      rintro (⟨sck', mosi', miso', hbk', hq⟩ | ⟨g, hg, _, hq⟩)
      · exact Config.wf_two_buses hw (Ne.symm he) hbk' hbk sck
          (hq.elim (fun e => .inl e) fun e => .inr (.inl e)) (.inl rfl)
      · exact (Config.wf_cs_pins hw hg hbk).1 hq.symm
  cases e with
  | quiet r => exact same rfl rfl
  | flush x hx => exact same rfl rfl
  | fail c op =>
    obtain ⟨fs, he⟩ := raise_fields s c op
    unfold failWith at same ⊢
    rw [he] at same ⊢
    exact same rfl rfl
  | wait b a hb hh => exact same rfl rfl
  | openBus b mode order freq hlt hh =>
    have o := openBus_spec s b mode order freq
    generalize s.openBus b mode order freq = u at o p key
    refine key b (fun b' hne => o.otherBus hne)
      (fun q hq => o.pins q fun sck mosi miso hb he => hq (.inl ⟨_, _, _, hb, .inl he⟩)) ?_
    rw [clockIdle_iff]
    intro sck mosi miso hb
    have hb' : s.cfg.backend b = .sw sck mosi miso := (congrArg (fun c => Config.backend c b) o.cfg).symm.trans hb
    show u.lvl sck = (u.bus b).mode.cpol
    rw [o.clock _ _ _ hb', o.bus]
  | closeBus b hlt ho hsel =>
    refine key b (fun b' hne => busOther _ hne) (fun _ _ => rfl) ?_
    refine clockIdle_congr (s := s) rfl ?_ (fun _ _ _ _ => rfl) (hi.pin.clock b hlt)
    show ((s.setBus b _).bus b).mode = _
    rw [bus_setBus_self]
  | send b vs dest out r hlt ho =>
    have h := sent_exchangeAll b vs s hw (hi.pin.clock b hlt) hi.canon.path
    generalize (exchangeAll b vs s).2 = u at h p key ⊢
    obtain ⟨bufs, he, _⟩ := store_fields u dest out
    rw [he] at p key ⊢
    exact key b (fun b' _ => h.wire.bus b')
      (fun q hq => h.bytes.pins q fun sck mosi miso hb e => hq (.inl ⟨_, _, _, hb, .inr e⟩)) h.clock
  | openDev h hh hheld hsel =>
    have o := openDev_spec s h hw hh hsel
    generalize s.openDev h = u at o p key
    exact key _ (fun b' hne => o.otherBus hne) (fun q hq => o.pins q (fun e => hq (.inr ⟨h, hh, rfl, e⟩))
      fun sck mosi miso hb e => hq (.inl ⟨_, _, _, hb, .inl e⟩)) o.clock
  | closeDev h hh ho hsel =>
    have hlt := Config.wf_bus_lt hw hh
    refine key (s.cfg.busOf h) (fun b' hne => busOther _ hne)
      (fun q hq => toggleCs_pin_ne s fun e => hq (.inr ⟨h, hh, rfl, e⟩)) ?_
    refine clockIdle_congr (s := s) rfl ?_ ?_ (hi.pin.clock _ hlt)
    · show (((s.toggleCs h).setBus (s.cfg.busOf h) _).bus (s.cfg.busOf h)).mode = _
      rw [bus_setBus_self]
      rfl
    · intro sck mosi miso hb
      exact toggleCs_pin_ne s fun e => (Config.wf_cs_pins hw hh hb).1 e.symm
  | frame h hdr payload dest out strs r hh hheld hsel hl =>
    have f := frame_spec s h hdr payload hw hh hsel hi.canon.path
    generalize ((s.openDev h).frame h hdr payload).2 = u at f p key
    obtain ⟨bufs, he, _⟩ := store_fields ({ u with strs := strs } : State) dest out
    rw [he] at p key ⊢
    refine key (s.cfg.busOf h) (fun b' hne => f.framed.otherBuses b' hne)
      (fun q hq => f.framed.pins q fun sck mosi miso hb =>
        ⟨fun e => hq (.inl ⟨_, _, _, hb, .inl e⟩), fun e => hq (.inl ⟨_, _, _, hb, .inr e⟩)⟩) ?_
    rw [clockIdle_iff]
    intro sck mosi miso hb
    have hb' : s.cfg.backend (s.cfg.busOf h) = .sw sck mosi miso :=
      (congrArg (fun c => Config.backend c (s.cfg.busOf h)) f.cfg).symm.trans hb
    show u.lvl sck = (u.bus (s.cfg.busOf h)).mode.cpol
    rw [f.framed.clock _ _ _ hb', f.framed.bus]

/-! ### Plain data stays in canonical form -/

theorem canonInv_of_effect {s t : State} {i : Instr} (hi : Inv s) (e : Effect s i t) : CanonInv t := by
  have hw := hi.base.cfgWf
  have hk := hi.canon
  cases e with
  | quiet r => exact ⟨hk.pins, hk.bufs, hk.mems, hk.path⟩
  | flush x hx => exact ⟨hk.pins, hk.bufs, hk.mems, hk.path⟩
  | fail c op =>
    obtain ⟨fs, he⟩ := raise_fields s c op
    unfold failWith
    rw [he]
    exact ⟨hk.pins, hk.bufs, hk.mems, hk.path⟩
  | wait b a hb hh => exact ⟨hk.pins, hk.bufs, hk.mems, hk.path⟩
  | openBus b mode order freq hlt hh =>
    have o := openBus_spec s b mode order freq
    refine ⟨o.sorted hk.pins, ?_, ?_, o.path.trans hk.path⟩
    · show ((s.openBus b mode order freq).bufs.map Prod.fst).Pairwise (· < ·)
      rw [o.bufs]; exact hk.bufs
    · show ∀ x ∈ (s.openBus b mode order freq).slaves, x.memOk = true
      rw [o.slaves]; exact hearAll_memOk _ _ _ hk.mems
  | closeBus b hlt ho hsel => exact ⟨hk.pins, hk.bufs, hk.mems, hk.path⟩
  | send b vs dest out r hlt ho =>
    have h := sent_exchangeAll b vs s hw (hi.pin.clock b hlt) hi.canon.path
    generalize (exchangeAll b vs s).2 = u at h ⊢
    obtain ⟨bufs, he, hs⟩ := store_fields u dest out
    rw [he]
    refine ⟨h.sorted hk.pins, hs (by rw [h.wire.bufs]; exact hk.bufs), ?_, h.bytes.path⟩
    show ∀ x ∈ u.slaves, x.memOk = true
    rw [h.bytes.slaves]; exact hearAll_memOk _ _ _ hk.mems
  | openDev h hh hheld hsel =>
    have o := openDev_spec s h hw hh hsel
    refine ⟨o.sorted hk.pins, ?_, ?_, o.path.trans hk.path⟩
    · show ((s.openDev h).bufs.map Prod.fst).Pairwise (· < ·)
      rw [o.bufs]; exact hk.bufs
    · show ∀ x ∈ (s.openDev h).slaves, x.memOk = true
      rw [o.slaves]; exact hearAll_memOk _ _ _ hk.mems
  | closeDev h hh ho hsel =>
    exact ⟨toggleCs_sorted s h hk.pins, hk.bufs, hearAll_memOk s.cfg [.cs h (!s.cs h)] _ hk.mems, hk.path⟩
  | frame h hdr payload dest out strs r hh hheld hsel hl =>
    have f := frame_spec s h hdr payload hw hh hsel hi.canon.path
    generalize ((s.openDev h).frame h hdr payload).2 = u at f
    obtain ⟨bufs, he, hs⟩ := store_fields ({ u with strs := strs } : State) dest out
    rw [he]
    refine ⟨f.sorted hk.pins, hs ?_, ?_, f.path⟩
    · show (u.bufs.map Prod.fst).Pairwise (· < ·)
      rw [f.bufs]; exact hk.bufs
    · show ∀ x ∈ u.slaves, x.memOk = true
      rw [f.framed.slaves]; exact hearAll_memOk _ _ _ hk.mems

/-- Every effect of a well-formed operation keeps the invariant. -/
theorem inv_of_effect {s t : State} {i : Instr} (hi : Inv s) (hcur : s.cur < s.cfg.ncaller)
    (hwf : i.wf s.cfg = true) (e : Effect s i t) : Inv t :=
  ⟨base_of_effect hi hcur hwf e, busInv_of_effect hi e, pinInv_of_effect hi e, canonInv_of_effect hi e⟩

/-! ### Around an operation -/

theorem inv_turn {s : State} (hi : Inv s) (c : Nat) (rest : List Nat) : Inv (s.turn c rest) :=
  ⟨⟨hi.base.cfgWf, hi.base.shape, hi.base.waits⟩, ⟨hi.bus.owner, hi.bus.selHeld, hi.bus.oneSel⟩,
    ⟨hi.pin.clock, hi.pin.busDirs, hi.pin.csDirs⟩, ⟨hi.canon.pins, hi.canon.bufs, hi.canon.mems, hi.canon.path⟩⟩

theorem inv_issue {s : State} (hi : Inv s) (hcur : s.cur < s.cfg.ncaller) (port : List PortWord) :
    Inv (s.issue port) := by
  obtain ⟨h1, h2, h3, h4⟩ := (shapeOk_iff s).1 hi.base.shape
  refine ⟨⟨hi.base.cfgWf, ?_, ?_⟩, ⟨hi.bus.owner, hi.bus.selHeld, hi.bus.oneSel⟩,
    ⟨hi.pin.clock, hi.pin.busDirs, hi.pin.csDirs⟩, ⟨hi.canon.pins, hi.canon.bufs, hi.canon.mems, hi.canon.path⟩⟩
  · rw [shapeOk_iff]
    exact ⟨h1, h2, (length_setEntry _ _ _ _ (by rw [h3]; exact hcur)).trans h3, h4⟩
  · intro c hc
    by_cases he : c = s.cur
    · subst he
      refine waitOk_of_status ?_
      intro b op a hs
      have : ((s.issue port).caller s.cur).status = .running := by simp [State.issue]
      rw [this] at hs
      cases hs
    · refine waitOk_congr (s := s) rfl ?_ (hi.base.waits c hc)
      simp [State.issue, caller_setCaller, he]

end Sys2Proof.Machine
end

