-- ==== Sys2Proof/Laws/Blocks.lean ====
section
/-! SUPPORT. Caller buffers as sources and destinations: a block transfer is the byte-wise loop of R125 step by step (R63). -/

namespace Sys2Proof.Machine

open State

theorem mapPut_absorb {α : Type} (m : List (Nat × α)) (a : Nat) (x y : α) : mapPut (mapPut m a x) a y = mapPut m a y
    := by
  induction m with
  | nil => simp [mapPut]
  | cons e m ih =>
    obtain ⟨k, v⟩ := e
    simp only [mapPut]
    split
    · simp [mapPut]
    · split
      · simp [mapPut]
      · rename_i h1 h2; simp [mapPut, h1, h2, ih]

theorem setBuf_setBuf (s : State) (d : BufRef) (x y : List Byte) : (s.setBuf d x).setBuf d y = s.setBuf d y := by
  simp [setBuf, mapPut_absorb]

theorem exec_bxblk {s : State} {b : Nat} {d r : Option BufRef} {n : Word32} (hl : b < s.cfg.buses.length)
    (ho : (s.bus b).owner = some s.cur)
    (hd : s.short d n = false) (hr : s.short r n = false) :
    exec (.bxblk b d r n) s = .next ((s.transferBlock b d r n).finish .none) := by
  simp [exec, execBxblk, inRange, hl, xferFault, holds, ho, orShort, hd, hr]

theorem devFault_open {s : State} {h : Nat} (ho : (s.bus (s.cfg.busOf h)).owner = some s.cur)
    (hs : s.cs h ≠ (s.cfg.dev h).csIdle) : s.devFault h = none := by
  simp [devFault, holds, ho, (selected_iff s h).2 hs]

theorem exec_dxblk {s : State} {h : Nat} {d r : Option BufRef} {n : Word32} (hl : h < s.cfg.devs.length)
    (ho : (s.bus (s.cfg.busOf h)).owner = some s.cur)
    (hs : s.cs h ≠ (s.cfg.dev h).csIdle)
    (hd : s.short d n = false) (hr : s.short r n = false) :
    exec (.dxblk h d r n) s = .next ((s.transferBlock (s.cfg.busOf h) d r n).finish .none) := by
  simp [exec, execDxblk, inRange, hl, devFault_open ho hs, orShort, hd, hr]

theorem short_zero (s : State) (d : Option BufRef) : s.short d 0 = false := by cases d <;> simp [short]

theorem exchange_setBuf (s : State) (b : Nat) (v : Byte) (d : BufRef) (x : List Byte) :
    (s.setBuf d x).exchange b v = ((s.exchange b v).1, (s.exchange b v).2.setBuf d x) := by
  have hw := wireOnly_exchange s b v
  rw [setBuf_eq_withRest, exchange_withRest, setBuf_eq_withRest (s := (s.exchange b v).2), hw.rest_eq, hw.bufs]

theorem blockOut_length (s : State) (d r : Option BufRef) (n : Word32) (hr : s.short r n = false)
    (h : d ≠ none ∨ r ≠ none) :
    (s.blockOut d r n).length = n.toNat := by
  cases r with
  | none => cases d <;> simp_all [blockOut]
  | some r => simp [short] at hr; simp [blockOut]; omega

theorem blockOut_get (s : State) (d r : Option BufRef) (n : Word32) (h : d ≠ none ∨ r ≠ none)
    (hr : s.short r n = false) (i : Nat) (hi : i < n.toNat) :
    (s.blockOut d r n)[i]? = some (s.sourceByte r i) := by
  cases r with
  | none =>
    cases d with
    | none => rcases h with h | h <;> exact absurd rfl h
    | some d => simp [blockOut, hi, sourceByte]
  | some r =>
    simp [short] at hr
    simp [sourceByte, bufRead, blockOut, hi, List.getElem?_eq_getElem (show i < (s.buf r).length by omega)]

theorem store_eq (s : State) (d : BufRef) (x : List Byte) (hx : x ≠ []) : s.store (some d) x = s.setBuf d
    (x ++ (s.buf d).drop x.length) := by
  cases x <;> simp_all [store]

theorem store_nil (s : State) (d : Option BufRef) : s.store d [] = s := by cases d <;> rfl

theorem store_none (s : State) (x : List Byte) : s.store none x = s := rfl

theorem store_buf (s : State) (d k : BufRef) (x : List Byte) : (s.store (some d) x).buf k = if k = d then x ++
    (s.buf d).drop x.length else s.buf k := by
  cases x with
  | nil => simp [store_nil]; rintro rfl; rfl
  | cons y ys => rw [store_eq _ _ _ (by simp), buf_setBuf]

theorem transferBlock_noop (s : State) (b : Nat) (d r : Option BufRef) (n : Word32)
    (h : n = 0 ∨ (d = none ∧ r = none)) :
    s.transferBlock b d r n = s := by
  have : s.blockOut d r n = [] := by
    rcases h with rfl | ⟨rfl, rfl⟩
    · cases r <;> cases d <;> rfl
    · rfl
  simp only [transferBlock, this, exchangeAll, store]
  cases d <;> rfl

/-- One more round of the loop is one more byte of the block. -/
theorem blockBody_step (s : State) (b : Nat) (d r : Option BufRef) (n : Word32) (hd : s.short d n = false)
    (hr : s.short r n = false) (h : d ≠ none ∨ r ≠ none)
    (i : Nat) (hi : i < n.toNat) :
blockBody b d r i
    ((exchangeAll b ((s.blockOut d r n).take i) s).2.store d (exchangeAll b ((s.blockOut d r n).take i) s).1) =
      (exchangeAll b ((s.blockOut d r n).take (i + 1)) s).2.store d (exchangeAll b ((s.blockOut d r n).take (i+1)) s).1 := by
  have hlen := blockOut_length s d r n hr h
  have hget := blockOut_get s d r n h hr i hi
  have htake : (s.blockOut d r n).take (i + 1) = (s.blockOut d r n).take i ++ [s.sourceByte r i] := by
    rw [List.take_add_one, hget]; rfl
  rw [htake, exchangeAll_append]
  have hl : ((exchangeAll b ((s.blockOut d r n).take i) s).1).length = i := by simp [hlen]; omega
  have hw := wireOnly_exchangeAll b ((s.blockOut d r n).take i) s
  generalize exchangeAll b ((s.blockOut d r n).take i) s = z at *
  obtain ⟨rs, u⟩ := z
  simp only at hl hw
  have hbyte : (u.store d rs).sourceByte r i = s.sourceByte r i := by
    cases r with
    | none =>
      obtain ⟨bufs, hb, -⟩ := store_fields u d rs
      simp [hb, hw.cfg, sourceByte]
    | some q =>
      simp only [bufRead, sourceByte]
      cases d with
      | none => rw [store_none, hw.buf]
      | some d =>
        rw [store_buf, hw.buf, hw.buf]
        split
        · rename_i hq; subst hq
          rw [List.getD_eq_getElem?_getD, List.getD_eq_getElem?_getD, List.getElem?_append_right (by omega), hl]
          simp
        · rfl
  unfold blockBody
  rw [hbyte]
  generalize s.sourceByte r i = v
  clear htake hget hlen hbyte h hr
  simp only [exchangeAll]
  cases d with
  | none => rfl
  | some d =>
    simp only [short, decide_eq_false_iff_not, not_lt] at hd
    have hw2 := wireOnly_exchange u b v
    have hdl : i < (s.buf d).length := by omega
    rw [store_eq _ d (rs ++ _) (by simp), hw2.buf, hw.buf]
    cases rs with
    | nil =>
      simp only [List.length_nil] at hl
      subst hl
      rw [store_nil]
      simp only [bufWrite, hw2.buf, hw.buf]
      congr 1
      cases hb : s.buf d with
      | nil => rw [hb] at hdl; simp at hdl
      | cons y ys => simp
    | cons y ys =>
      rw [store_eq _ d (y :: ys) (by simp), exchange_setBuf]
      simp only [bufWrite, buf_setBuf_self, setBuf_setBuf, hw.buf]
      congr 1
      rw [List.set_append_right _ _ (by simp only [List.length_cons] at hl ⊢; omega)]
      rw [List.append_assoc]; congr 1
      rw [hl, Nat.sub_self, List.drop_eq_getElem_cons hdl]
      simp only [List.set_cons_zero, List.singleton_append, List.length_append, hl, List.length_singleton]

theorem closeDev_store (s : State) (d : Option BufRef) (x : List Byte) (h : Nat) : (s.store d x).closeDev h =
    (s.closeDev h).store d x := by
  cases d with
  | none => rfl
  | some d => cases x with
    | nil => rfl
    | cons y ys => rfl

theorem store_setCaller (s : State) (c : Nat) (x : Caller) (d : Option BufRef) (ys : List Byte) :
    (s.setCaller c x).store d ys = (s.store d ys).setCaller c x := by
  cases d with
  | none => rfl
  | some d => cases ys with
    | nil => rfl
    | cons y ys => rfl

end Sys2Proof.Machine
end

