-- ==== Sys2Proof/Laws/Boot.lean ====
section
/-! SUPPORT. The pins, registers and events of `State.resetWith` under a well-formed configuration (R50, R271). -/

namespace Sys2Proof.Machine

open State

theorem mapGet_bootInsert (x : Nat × Pin) (m : List (Nat × Pin)) (c : Nat) :
    mapGet (bootInsert x m) c = if c = x.1 then some x.2 else mapGet m c := by
  obtain ⟨a, v⟩ := x
  induction m with
  | nil => simp [bootInsert, mapGet, eq_comm]
  | cons y ys ih =>
    obtain ⟨k, w⟩ := y
    simp only [bootInsert]
    split
    · simp only [mapGet, eq_comm]
    · split
      · rename_i h1 h2; subst h2; by_cases hc : c = a <;> simp [mapGet, hc] <;> simp_all [eq_comm]
      · rename_i h1 h2
        simp only [mapGet, ih]
        split <;> split <;> simp_all

theorem keys_bootInsert (x : Nat × Pin) (m : List (Nat × Pin)) (k : Nat) :
    k ∈ (bootInsert x m).map Prod.fst ↔ k = x.1 ∨ k ∈ m.map Prod.fst := by
  induction m with
  | nil => simp [bootInsert]
  | cons y ys ih =>
    simp only [bootInsert]
    split
    · simp
    · split
      · rename_i h1 h2; simp only [List.map_cons, List.mem_cons, h2]; tauto
      · simp only [List.map_cons, List.mem_cons, ih]; tauto

theorem sorted_bootInsert (x : Nat × Pin) (m : List (Nat × Pin))
    (h : (m.map Prod.fst).Pairwise (· < ·)) : ((bootInsert x m).map Prod.fst).Pairwise (· < ·) := by
  induction m with
  | nil => simp [bootInsert]
  | cons y ys ih =>
    simp only [List.map_cons, List.pairwise_cons] at h
    simp only [bootInsert]
    split
    · rename_i h1
      simp only [List.map_cons, List.pairwise_cons, List.mem_cons]
      refine ⟨?_, h.1, h.2⟩
      rintro k (rfl | hk)
      · exact h1
      · exact lt_trans h1 (h.1 k hk)
    · split
      · rename_i h1 h2
        simp only [List.map_cons, List.pairwise_cons]
        exact ⟨by rw [h2]; exact h.1, h.2⟩
      · rename_i h1 h2
        simp only [List.map_cons, List.pairwise_cons]
        refine ⟨fun k hk => ?_, ih h.2⟩
        rcases (keys_bootInsert x ys k).1 hk with rfl | hk
        · omega
        · exact h.1 k hk

/-- Inserting pins with distinct identifiers keeps each of them, and nothing else changes. -/
theorem foldl_bootInsert (l : List (Nat × Pin)) (hn : (l.map Prod.fst).Nodup) (m : List (Nat × Pin)) :
    ((m.map Prod.fst).Pairwise (· < ·) → ((l.foldl (fun ps x => bootInsert x ps) m).map Prod.fst).Pairwise (· < ·)) ∧
    (∀ x ∈ l, mapGet (l.foldl (fun ps x => bootInsert x ps) m) x.1 = some x.2) ∧
    (∀ k, k ∉ l.map Prod.fst → mapGet (l.foldl (fun ps x => bootInsert x ps) m) k = mapGet m k) := by
  induction l generalizing m with
  | nil => simp
  | cons y ys ih =>
    simp only [List.map_cons, List.nodup_cons] at hn
    obtain ⟨h1, h2, h3⟩ := ih hn.2 (bootInsert y m)
    refine ⟨fun h => h1 (sorted_bootInsert y m h), ?_, ?_⟩
    · intro x hx
      rcases List.mem_cons.1 hx with rfl | hx
      · simp only [List.foldl_cons]
        rw [h3 _ hn.1, mapGet_bootInsert]; simp
      · exact h2 x hx
    · intro k hk
      simp only [List.map_cons, List.mem_cons, not_or] at hk
      simp only [List.foldl_cons]
      rw [h3 k hk.2, mapGet_bootInsert, if_neg hk.1]

theorem keys_bootPins (cfg : Config) :
    ((cfg.buses.flatMap bootBusPins ++ cfg.devs.map (fun d : DevCfg => (d.csPin, (⟨.out, d.csIdle⟩ : Pin)))).map Prod.fst)
    = cfg.pinIds := by
  simp only [Config.pinIds, List.map_append, List.map_flatMap, List.map_map]
  congr 1
  · congr 1; funext x; cases x <;> rfl

theorem bootPins_sorted (cfg : Config) (hw : cfg.wf = true) : ((bootPins cfg).map Prod.fst).Pairwise (· < ·) := by
  obtain ⟨_, _, _, _, _, _, hn, _⟩ := Config.wf_parts hw
  exact (foldl_bootInsert _ (by rw [keys_bootPins]; exact hn) []).1 (by simp)

theorem reset_pin (cfg : Config) (hw : cfg.wf = true) (x : Nat × Pin)
    (hx : x ∈ cfg.buses.flatMap bootBusPins ++ cfg.devs.map (fun d : DevCfg => (d.csPin, (⟨.out, d.csIdle⟩ : Pin))))
    :
    (resetWith cfg).pin x.1 = x.2 := by
  obtain ⟨_, _, _, _, _, _, hn, _⟩ := Config.wf_parts hw
  have := (foldl_bootInsert _ (by rw [keys_bootPins]; exact hn) []).2.1 x hx
  simp only [pin, resetWith, bootPins, this, Option.getD_some]

/-- A chip-select pin after reset. -/
theorem bootPins_cs {cfg : Config} (hw : cfg.wf = true) {h : Nat} (hh : h < cfg.devs.length) :
    (resetWith cfg).pin (cfg.dev h).csPin = ⟨.out, (cfg.dev h).csIdle⟩ := by
  refine reset_pin cfg hw ((cfg.dev h).csPin, ⟨.out, (cfg.dev h).csIdle⟩) ?_
  rw [List.mem_append]; right
  rw [List.mem_map]
  exact ⟨cfg.dev h, List.mem_of_getElem? (Config.dev_eq hh), rfl⟩

/-- The pins of a `sw` bus after reset. -/
theorem bootPins_bus {cfg : Config} (hw : cfg.wf = true) {b sck mosi miso : Nat}
    (hb : cfg.backend b = .sw sck mosi miso) :
(resetWith cfg).pin sck = ⟨.out, false⟩ ∧ (resetWith cfg).pin mosi = ⟨.out, false⟩ ∧ (resetWith cfg).pin miso =
    ⟨.inp, false⟩ := by
  have hm : Backend.sw sck mosi miso ∈ cfg.buses := List.mem_of_getElem? (Config.backend_mem hb).2
  refine ⟨reset_pin cfg hw (sck, ⟨.out, false⟩) ?_, reset_pin cfg hw (mosi, ⟨.out, false⟩) ?_, reset_pin cfg hw (miso, ⟨.inp, false⟩) ?_⟩
  all_goals
    rw [List.mem_append, List.mem_flatMap]; left
    exact ⟨_, hm, by simp [bootBusPins, Pin.unused]⟩

theorem entry_map_const {α β : Type} (d : β) (l : List α) (i : Nat) : entry d (l.map fun _ => d) i = d := by
  simp [entry, List.getD_eq_getElem?_getD]

theorem reset_bus (cfg : Config) (b : Nat) : (resetWith cfg).bus b = Bus.free := entry_map_const _ _ _

theorem reset_caller (cfg : Config) (c : Nat) : (resetWith cfg).caller c = Caller.idle := by
  simp [caller, resetWith, entry, List.getD_eq_getElem?_getD]

theorem bootDevEvents_eq (cfg : Config) : bootDevEvents 0 cfg.devs = (List.range cfg.devs.length).flatMap
        (fun h => [.dir (cfg.dev h).csPin .out, .cs h (cfg.dev h).csIdle]) := by
  have gen : ∀ (l : List DevCfg) (k : Nat) (f : Nat → DevCfg), (∀ i, i < l.length → l[i]? = some (f (k + i))) →
      bootDevEvents k l = (List.range' k l.length).flatMap (fun h => [.dir (f h).csPin .out, .cs h (f h).csIdle]) := by
    intro l
    induction l with
    | nil => intros; rfl
    | cons d ds ih =>
      intro k f hf
      have h0 := hf 0 (by simp)
      simp at h0
      rw [bootDevEvents, ih (k + 1) f]
      · simp [List.range'_succ, h0]
      · intro i hi
        have := hf (i + 1) (by simpa using hi)
        simpa [Nat.add_assoc, Nat.add_comm 1] using this
  rw [List.range_eq_range']
  exact gen _ _ _ (fun i hi => by simpa using Config.dev_eq hi)

end Sys2Proof.Machine
end

