-- ==== Sys2Proof/Laws/ChipFrames.lean ====
section
/-! SUPPORT. A whole frame with a reference memory chip behind the handle (R77, R78, R80): what the chip stores, what
it answers, and that it is deselected again afterwards. -/

namespace Sys2Proof.Machine

open State

/-! ### REFMEM byte by byte -/

theorem header_bytes (a : Word32) : ((a.extractLsb' 16 8).toNat * 256 + (a.extractLsb' 8 8).toNat) * 256 +
    (a.extractLsb' 0 8).toNat = a.toNat % 2 ^ 24 := by
  simp only [BitVec.extractLsb'_toNat, Nat.shiftRight_eq_div_pow]
  omega

theorem RefMem.trunc_trunc (m : RefMem) (a : Nat) : m.trunc (m.trunc a) = m.trunc a := by simp [RefMem.trunc]

theorem RefMem.trunc_add (m : RefMem) (a i : Nat) : m.trunc (m.trunc a + i) = m.trunc (a + i) := by
  simp [RefMem.trunc]

theorem RefMem.trunc_low (m : RefMem) (a : Nat) (h : m.bits ≤ 24) : m.trunc (a % 2 ^ 24) = m.trunc a := by
  simp only [RefMem.trunc]
  exact Nat.mod_mod_of_dvd a (Nat.pow_dvd_pow 2 h)

theorem RefMem.peek_trunc (m : RefMem) (h a : Nat) : m.peek h (m.trunc a) = m.peek h a := by
  simp only [RefMem.peek, RefMem.trunc_trunc]

/-- A selected chip after the four bytes of a header. -/
theorem RefMem.header_steps (m : RefMem) (opc : Byte) (a : Word32) (hb : m.bits ≤ 24) :
    (header opc a).foldl RefMem.step { m with phase := .op } =
      { m with phase := .data, op := opc, addr := m.trunc a.toNat } := by
  have h := header_bytes a
  simp only [header, List.foldl, RefMem.step]
  have e : ∀ x, ({ m with phase := Phase.a0, op := opc, addr := x } : RefMem).trunc = m.trunc := fun _ => rfl
  simp only [e, h, RefMem.trunc_low m _ hb]

/-- READ data: the address advances, the bytes received are ignored (R80). -/
theorem RefMem.read_steps (m : RefMem) (hp : m.phase = .data) (ho : m.op = opRead) (hz : m.trunc m.addr = m.addr)
    (vs : List Byte) : vs.foldl RefMem.step m = { m with addr := m.trunc (m.addr + vs.length) } := by
  induction vs generalizing m with
  | nil => simp [hz]
  | cons v vs ih =>
    have h1 : m.step v = { m with addr := m.trunc (m.addr + 1) } := by simp [RefMem.step, hp, ho]
    rw [List.foldl_cons, h1, ih { m with addr := m.trunc (m.addr + 1) } hp ho (RefMem.trunc_trunc m _)]
    have e : ({ m with addr := m.trunc (m.addr + 1) } : RefMem).trunc = m.trunc := rfl
    simp only [e, List.length_cons, RefMem.trunc_add]
    rw [show m.addr + 1 + vs.length = m.addr + (vs.length + 1) by omega]

/-- WRITE data: for at most as many bytes as the chip has, byte `i` stands at its address modulo the chip's size and every
other address reads as before (R80). -/
theorem RefMem.write_steps (m : RefMem) (hp : m.phase = .data) (ho : m.op = opWrite) (vs : List Byte)
    (hn : vs.length ≤ 2 ^ m.bits) :
    (vs.foldl RefMem.step m).bits = m.bits ∧
    (m.mem.wf = true → (vs.foldl RefMem.step m).mem.wf = true) ∧
    (∀ i, i < vs.length → (vs.foldl RefMem.step m).mem.read (m.trunc (m.addr + i)) = vs[i]?) ∧
    ∀ c, (∀ i, i < vs.length → c ≠ m.trunc (m.addr + i)) →
      (vs.foldl RefMem.step m).mem.read c = m.mem.read c := by
  induction vs generalizing m with
  | nil => simp
  | cons v vs ih =>
    have h1 : m.step v = { m with mem := m.mem.write (m.trunc m.addr) v, addr := m.trunc (m.addr + 1) } := by
      simp [RefMem.step, hp, ho, opRead, opWrite]
    simp only [List.length_cons] at hn
    rw [List.foldl_cons, h1]
    obtain ⟨hb, hw, hr, hf⟩ := ih { m with mem := m.mem.write (m.trunc m.addr) v, addr := m.trunc (m.addr + 1) } hp ho
      (by show vs.length ≤ 2 ^ m.bits; omega)
    have hnext : ∀ i, ({ m with mem := m.mem.write (m.trunc m.addr) v, addr := m.trunc (m.addr + 1) } : RefMem).trunc
        (m.trunc (m.addr + 1) + i) = m.trunc (m.addr + (i + 1)) := by
      intro i
      show m.trunc (m.trunc (m.addr + 1) + i) = _
      rw [RefMem.trunc_add]
      congr 1
      omega
    simp only [hnext] at hr hf
    refine ⟨hb, fun hm => hw (Memory.wf_write _ _ _ hm), ?_, ?_⟩
    · intro i hi
      cases i with
      | zero =>
        rw [hf, Memory.read_write, Nat.add_zero, if_pos rfl]
        · rfl
        · intro i hi h
          have hm : m.addr + 0 ≡ m.addr + (i + 1) [MOD 2 ^ m.bits] := h
          have := Nat.ModEq.add_left_cancel' _ hm
          unfold Nat.ModEq at this
          rw [Nat.zero_mod, Nat.mod_eq_of_lt (by omega)] at this
          omega
      | succ i =>
        rw [hr i (by simpa using hi), List.getElem?_cons_succ]
    · intro c hc
      rw [hf c fun i hi => hc (i + 1) (by simpa using hi), Memory.read_write, if_neg]
      have := hc 0 (by simp)
      rwa [Nat.add_zero] at this

/-! ### A selected chip under several bytes -/

/-- The bytes a selected slave presents while the given ones are sent. -/
def chipReplies : Slave → List Byte → List Byte
  | _, [] => []
  | x, v :: vs => x.tx :: chipReplies (x.afterByte v) vs

theorem exchangeAll_selected {s : State} {b : Nat} {pre post : List Slave} {x : Slave}
    (h : Selected s b pre x post) (hp : ∀ y ∈ pre ++ post, y.h ≠ x.h) (vs : List Byte) :
    (exchangeAll b vs s).1 = chipReplies x vs ∧
    ∃ pre' post', Selected (exchangeAll b vs s).2 b pre' (vs.foldl Slave.afterByte x) post' ∧
      ∀ y ∈ pre' ++ post', y.h ≠ x.h := by
  induction vs generalizing s pre post x with
  | nil => exact ⟨rfl, pre, post, h, hp⟩
  | cons v vs ih =>
    obtain ⟨f, hr, _, hs⟩ := exchange_selected h v
    have hh : ∀ (es : List Event) (ys : List Slave), (∀ y ∈ ys, y.h ≠ x.h) →
        ∀ y ∈ hearAll s.cfg es ys, y.h ≠ x.h := by
      intro es ys hy
      rw [hearAll_map]
      intro y hm
      obtain ⟨z, hz, rfl⟩ := List.mem_map.1 hm
      rw [Slave.hears_h]
      exact hy z hz
    obtain ⟨h1, pre', post', h2, h3⟩ := ih hs (by
      intro y hy
      show y.h ≠ x.h
      rcases List.mem_append.1 hy with hy | hy
      · exact hh _ _ (fun z hz => hp z (List.mem_append_left _ hz)) y hy
      · exact hh _ _ (fun z hz => hp z (List.mem_append_right _ hz)) y hy)
    refine ⟨?_, pre', post', h2, h3⟩
    simp only [exchangeAll, hr, h1, chipReplies]

/-! ### The memory chip behind a selected slave -/

/-- `x` is REFMEM `m`, presenting the byte `chip_tx` gives where R80 fixes it. -/
structure IsMem (x : Slave) (m : RefMem) : Prop where
  chip : x.chip = .mem m
  tx : m.phase = .data → m.op = opRead → x.tx = m.peek x.h m.addr

theorem IsMem.afterByte {x : Slave} {m : RefMem} (h : IsMem x m) (v : Byte) : IsMem (x.afterByte v) (m.step v) := by
  have hc : (x.afterByte v).chip = .mem (m.step v) := by
    simp [Slave.afterByte, Slave.byteStep, Slave.load, h.chip, Chip.step, Chip.afterTx]
  refine ⟨hc, fun hp ho => ?_⟩
  simp [Slave.afterByte, Slave.byteStep, Slave.load, h.chip, Chip.step, Chip.tx, hp, ho]

theorem Slave.afterByte_h (x : Slave) (v : Byte) : (x.afterByte v).h = x.h := rfl

theorem afterBytes_h (x : Slave) (vs : List Byte) : (vs.foldl Slave.afterByte x).h = x.h := by
  induction vs generalizing x with
  | nil => rfl
  | cons v vs ih => exact (ih _).trans rfl

theorem afterBytes_mode (x : Slave) (vs : List Byte) :
    (vs.foldl Slave.afterByte x).mode = x.mode ∧ (vs.foldl Slave.afterByte x).order = x.order := by
  induction vs generalizing x with
  | nil => exact ⟨rfl, rfl⟩
  | cons v vs ih => exact ih _

theorem IsMem.afterBytes {x : Slave} {m : RefMem} (h : IsMem x m) (vs : List Byte) :
    IsMem (vs.foldl Slave.afterByte x) (vs.foldl RefMem.step m) := by
  induction vs generalizing x m with
  | nil => exact h
  | cons v vs ih => exact ih (h.afterByte v)

theorem chipReplies_append (x : Slave) (vs ws : List Byte) :
    chipReplies x (vs ++ ws) = chipReplies x vs ++ chipReplies (vs.foldl Slave.afterByte x) ws := by
  induction vs generalizing x with
  | nil => rfl
  | cons v vs ih => simp [chipReplies, ih]

theorem length_chipReplies (x : Slave) (vs : List Byte) : (chipReplies x vs).length = vs.length := by
  induction vs generalizing x with
  | nil => rfl
  | cons v vs ih => simp [chipReplies, ih]

/-- READ data: the chip answers the bytes at consecutive addresses (R80). -/
theorem IsMem.reads {x : Slave} {m : RefMem} (h : IsMem x m) (hp : m.phase = .data) (ho : m.op = opRead)
    (vs : List Byte) : chipReplies x vs = (List.range vs.length).map (fun i => m.peek x.h (m.addr + i)) := by
  induction vs generalizing x m with
  | nil => rfl
  | cons v vs ih =>
    have h1 : m.step v = { m with addr := m.trunc (m.addr + 1) } := by simp [RefMem.step, hp, ho]
    have h2 := h.afterByte v
    rw [h1] at h2
    rw [chipReplies, ih h2 hp ho, h.tx hp ho, List.length_cons, List.range_succ_eq_map, List.map_cons,
      List.map_map]
    congr 1
    apply List.map_congr_left
    intro i _
    show m.peek x.h (m.trunc (m.addr + 1) + i) = m.peek x.h (m.addr + (i + 1))
    rw [← RefMem.peek_trunc, RefMem.trunc_add, RefMem.peek_trunc]
    congr 1
    omega

/-! ### Opening and closing a transaction with the chip on the handle -/

theorem Slave.react_other (cfg : Config) (h : Nat) (v : Level) (y : Slave) (hy : y.h ≠ h) :
    y.react cfg (.cs h v) = y := by
  unfold Slave.react
  simp [Ne.symm hy]

theorem hear_others (cfg : Config) (h : Nat) (v : Level) (ys : List Slave) (hy : ∀ y ∈ ys, y.h ≠ h) :
    hear cfg (.cs h v) ys = ys := by
  unfold hear
  conv_rhs => rw [← List.map_id ys]
  exact List.map_congr_left fun y hm => Slave.react_other cfg h v y (hy y hm)

theorem Slave.react_clock_unselected (cfg : Config) (b : Nat) (v : Level) (x : Slave) (hs : x.sel = false) :
    x.react cfg (.sck b v) = x := by
  unfold Slave.react
  simp [hs]

theorem chip_opened {s u : State} {h : Nat} {pre post : List Slave} {x : Slave} {m : RefMem}
    (c : ChipAt s h pre x post m) (hw : s.cfg.wf = true)
    (o : TransactionOpened s u h) :
    ∃ pre' post', Selected u (s.cfg.busOf h) pre' x.select post' ∧ (∀ y ∈ pre' ++ post', y.h ≠ h) ∧
      IsMem x.select { m with phase := .op } ∧ x.select.h = h ∧ x.select.mode = (s.cfg.dev h).mode ∧
      x.select.order = (s.cfg.dev h).order := by
  -- the clock event, if there is one, reaches no selected chip of the bus
  have hclk : ∀ e ∈ (match s.cfg.backend (s.cfg.busOf h) with
      | .sw _ _ _ => [Event.sck (s.cfg.busOf h) (s.cfg.dev h).mode.cpol]
      | .hw _ _ => []), e = .sck (s.cfg.busOf h) (s.cfg.dev h).mode.cpol := by
    intro e he
    split at he
    · simpa using he
    · simp at he
  have hopen : openEvents s.cfg h = (match s.cfg.backend (s.cfg.busOf h) with
      | .sw _ _ _ => [Event.sck (s.cfg.busOf h) (s.cfg.dev h).mode.cpol]
      | .hw _ _ => []) ++ [.cs h (!(s.cfg.dev h).csIdle)] := rfl
  have hsl := o.slaves
  rw [hopen, hearAll_append, c.slaves] at hsl
  generalize (match s.cfg.backend (s.cfg.busOf h) with
      | .sw _ _ _ => [Event.sck (s.cfg.busOf h) (s.cfg.dev h).mode.cpol]
      | .hw _ _ => []) = es at hclk hsl
  have hnc : ∀ e ∈ es, ∀ g v, e ≠ .cs g v := by
    intro e he g v
    rw [hclk e he]
    simp
  have hx : x.hears s.cfg es = x := by
    clear hsl hnc
    induction es with
    | nil => rfl
    | cons e es ih =>
      have he := hclk e List.mem_cons_self
      subst he
      show (x.react s.cfg _).hears s.cfg es = x
      rw [Slave.react_clock_unselected s.cfg _ _ x c.sel]
      exact ih fun e he => hclk e (List.mem_cons_of_mem _ he)
  have hpre : ∀ ys : List Slave, (∀ y ∈ ys, y.h ≠ h ∧ y.silent s.cfg (s.cfg.busOf h) = true) →
      ∀ y ∈ hearAll s.cfg es ys, y.h ≠ h ∧ y.silent s.cfg (s.cfg.busOf h) = true := by
    intro ys hys y hy
    refine ⟨?_, hearAll_silent s.cfg _ es ys hnc (fun z hz => (hys z hz).2) y hy⟩
    rw [hearAll_map] at hy
    obtain ⟨z, hz, rfl⟩ := List.mem_map.1 hy
    rw [Slave.hears_h]
    exact (hys z hz).1
  have hp := hpre pre c.pre
  have hq := hpre post c.post
  have hsel : x.react s.cfg (.cs h (!(s.cfg.dev h).csIdle)) = x.select := by
    unfold Slave.react
    have : ¬ (!(s.cfg.dev h).csIdle) = (s.cfg.dev h).csIdle := by cases (s.cfg.dev h).csIdle <;> simp
    simp [c.handle, this]
  have hlist : u.slaves = hearAll s.cfg es pre ++ x.select :: hearAll s.cfg es post := by
    rw [hsl, hearAll_app, hearAll_cons_slave, hx, hearAll_cons, hearAll_nil, hear_append, hear_cons, hsel,
      hear_others s.cfg h _ _ (fun y hy => (hp y hy).1), hear_others s.cfg h _ _ (fun y hy => (hq y hy).1)]
  have hfields : x.select.h = x.h ∧ x.select.mode = x.mode ∧ x.select.order = x.order ∧ x.select.sel = true ∧
      x.select.k = 0 ∧ x.select.chip = .mem { m with phase := .op } := by
    unfold Slave.select
    dsimp only
    split <;> simp [Slave.load, Slave.shiftOut, c.chip, Chip.select, Chip.afterTx]
  have hat : x.select.atByte = true := by
    simp only [Slave.atByte, Bool.and_eq_true, decide_eq_true_eq, Bool.or_eq_true]
    refine ⟨⟨hfields.2.2.2.1, hfields.2.2.2.2.1⟩, ?_⟩
    cases hm : x.mode.cpha
    · right
      unfold Slave.select
      simp [hm, Slave.shiftOut, Slave.load, Slave.pos]
    · left
      rw [hfields.2.1]; exact hm
  refine ⟨_, _, ⟨?_, hlist, ?_, ?_, ?_, hat, ?_, ?_, ?_⟩, ?_, ⟨hfields.2.2.2.2.2, ?_⟩, hfields.1.trans c.handle,
    hfields.2.1.trans c.mode, hfields.2.2.1.trans c.order⟩
  · show entry Line.free u.lines _ = _
    rw [o.lines]; exact c.line
  · rw [o.cfg]; exact fun y hy => (hp y hy).2
  · rw [o.cfg]; exact fun y hy => (hq y hy).2
  · rw [o.cfg, hfields.1, c.handle]
  · rw [hfields.2.1, c.mode, o.bus]
  · rw [hfields.2.2.1, c.order, o.bus]
  · intro sck mosi miso hb
    refine ⟨(Config.wf_bus_pins (by rw [o.cfg]; exact hw) hb).1, (clockIdle_iff _ _).1 o.clock _ _ _ hb⟩
  · intro y hy
    rcases List.mem_append.1 hy with hy | hy
    · exact (hp y hy).1
    · exact (hq y hy).1
  · intro hph
    cases hph

theorem chip_closed {s u : State} {h : Nat} {pre post : List Slave} {x : Slave} {m : RefMem}
    (hs : Selected u (s.cfg.busOf h) pre x post) (hc : u.cfg = s.cfg) (hn : ∀ y ∈ pre ++ post, y.h ≠ h)
    (hx : x.h = h) (hmode : x.mode = (s.cfg.dev h).mode) (horder : x.order = (s.cfg.dev h).order)
    (hmem : x.chip = .mem m) (hcs : u.cs h = !(s.cfg.dev h).csIdle) :
    HasChip (u.closeDev h) h { m with phase := .idle } := by
  have hev : (u.closeDev h).slaves = hear s.cfg (.cs h (s.cfg.dev h).csIdle) u.slaves := by
    rw [closeDev_eq, setBus_slaves, toggleCs_slaves, hcs, hc, Bool.not_not]
  have hd : x.react s.cfg (.cs h (s.cfg.dev h).csIdle) = x.deselect := by
    unfold Slave.react
    simp [hx]
  have hcl : (u.closeDev h).cfg = s.cfg := hc
  refine ⟨pre, x.deselect, post, ?_, ?_, ?_, ?_, hx, by rw [hcl]; exact hmode, by rw [hcl]; exact horder, rfl, ?_⟩
  · rw [hcl]; exact hs.line
  · rw [hev, hs.slaves, hear_append, hear_cons, hd,
      hear_others s.cfg h _ _ (fun y hy => hn y (List.mem_append_left _ hy)),
      hear_others s.cfg h _ _ (fun y hy => hn y (List.mem_append_right _ hy))]
  · intro y hy
    rw [hcl]
    exact ⟨hn y (List.mem_append_left _ hy), (congrArg (fun k => Slave.silent k (s.cfg.busOf h) y) hc).symm.trans (hs.pre y hy)⟩
  · intro y hy
    rw [hcl]
    exact ⟨hn y (List.mem_append_right _ hy), (congrArg (fun k => Slave.silent k (s.cfg.busOf h) y) hc).symm.trans (hs.post y hy)⟩
  · simp [Slave.deselect, hmem, Chip.deselect]

/-- A whole frame with a memory chip on the handle: the replies are the chip's, and afterwards the chip, which has
taken all the bytes, is deselected. -/
theorem chip_frame {s : State} {h : Nat} {m : RefMem} (c : HasChip s h m) (hw : s.cfg.wf = true)
    (hh : h < s.cfg.devs.length) (hsel : s.selected h = false) (hp : s.path = .idle) (hdr payload : List Byte) :
    ∃ x, IsMem x { m with phase := .op } ∧ x.h = h ∧
      ((s.openDev h).frame h hdr payload).1 = chipReplies (hdr.foldl Slave.afterByte x) payload ∧
      HasChip ((s.openDev h).frame h hdr payload).2 h
        { (hdr ++ payload).foldl RefMem.step { m with phase := .op } with phase := .idle } := by
  obtain ⟨pre, x, post, c⟩ := c
  have o := openDev_spec s h hw hh hsel
  generalize s.openDev h = u at o
  have hbo : u.cfg.busOf h = s.cfg.busOf h := by rw [o.cfg]
  obtain ⟨pre', post', hS, hn, hM, hxh, hxm, hxo⟩ := chip_opened c hw o
  have hu : u.cfg.wf = true := by rw [o.cfg]; exact hw
  have hall := sent_exchangeAll (s.cfg.busOf h) (hdr ++ payload) u hu o.clock (by rw [o.path]; exact hp)
  obtain ⟨hr, p2, q2, hS2, hn2⟩ := exchangeAll_selected hS (by rw [hxh]; exact hn) (hdr ++ payload)
  have hsplit := exchangeAll_append (s.cfg.busOf h) hdr payload u
  have hrep : (u.frame h hdr payload).1 = chipReplies (hdr.foldl Slave.afterByte x.select) payload := by
    have h1 : (exchangeAll (s.cfg.busOf h) (hdr ++ payload) u).1 =
        (exchangeAll (s.cfg.busOf h) hdr u).1 ++ (u.frame h hdr payload).1 := by
      rw [hsplit]; simp only [frame, hbo]
    rw [hr, chipReplies_append] at h1
    exact (List.append_inj_right h1 (by rw [length_chipReplies, length_exchangeAll])).symm
  have hfin : (u.frame h hdr payload).2 = (exchangeAll (s.cfg.busOf h) (hdr ++ payload) u).2.closeDev h := by
    rw [hsplit]; simp only [frame, hbo]
  refine ⟨x.select, hM, hxh, hrep, ?_⟩
  rw [hfin]
  have hwc := hall.wire.cfg.trans o.cfg
  have hcs : (exchangeAll (s.cfg.busOf h) (hdr ++ payload) u).2.cs h = !(s.cfg.dev h).csIdle := by
    rw [← o.cs]
    simp only [State.cs, State.lvl, hwc, o.cfg]
    rw [hall.bytes.pins _ fun sck mosi miso hb => (Config.wf_cs_pins hu (by rw [o.cfg]; exact hh) hb).2.1 ∘
      fun e => by rw [o.cfg]; exact e]
  exact chip_closed hS2 hwc (by rw [hxh] at hn2; exact hn2) ((afterBytes_h _ _).trans hxh)
    ((afterBytes_mode _ _).1.trans hxm) ((afterBytes_mode _ _).2.trans hxo) (hM.afterBytes _).chip hcs

/-! ### Reading and writing the chip -/

/-- A read frame (R203, R80): the replies to the payload are the bytes at consecutive addresses and the array is as
before. -/
theorem chip_read {s : State} {h : Nat} {m : RefMem} (c : HasChip s h m) (hw : s.cfg.wf = true)
    (hh : h < s.cfg.devs.length) (hsel : s.selected h = false) (hp : s.path = .idle) (hb : m.bits ≤ 24)
    (a : Word32) (payload : List Byte) :
    ((s.openDev h).frame h (header opRead a) payload).1 =
      (List.range payload.length).map (fun i => m.peek h (a.toNat + i)) ∧
    ∃ m', HasChip ((s.openDev h).frame h (header opRead a) payload).2 h m' ∧ m'.bits = m.bits ∧ m'.mem = m.mem := by
  obtain ⟨x, hM, hxh, hr, hc⟩ := chip_frame c hw hh hsel hp (header opRead a) payload
  have hM2 := hM.afterBytes (header opRead a)
  rw [show ({ m with phase := Phase.op } : RefMem) = { m with phase := .op } from rfl,
    RefMem.header_steps m opRead a hb] at hM2
  refine ⟨?_, _, hc, ?_, ?_⟩
  · rw [hr, hM2.reads rfl rfl]
    apply List.map_congr_left
    intro i _
    rw [afterBytes_h, hxh]
    show m.peek h (m.trunc a.toNat + i) = _
    rw [← RefMem.peek_trunc, RefMem.trunc_add, RefMem.peek_trunc]
  · rw [List.foldl_append, RefMem.header_steps m opRead a hb,
      RefMem.read_steps _ rfl rfl (RefMem.trunc_trunc m _)]
  · rw [List.foldl_append, RefMem.header_steps m opRead a hb,
      RefMem.read_steps _ rfl rfl (RefMem.trunc_trunc m _)]

/-- A write frame (R204, R80) with at most as many bytes as the chip has: byte `i` of the payload stands at `A + i` modulo
the chip's size and the array is otherwise as before. -/
theorem chip_write {s : State} {h : Nat} {m : RefMem} (c : HasChip s h m) (hw : s.cfg.wf = true)
    (hh : h < s.cfg.devs.length) (hsel : s.selected h = false) (hp : s.path = .idle) (hb : m.bits ≤ 24)
    (a : Word32) (payload : List Byte) (hn : payload.length ≤ 2 ^ m.bits) :
    ∃ m', HasChip ((s.openDev h).frame h (header opWrite a) payload).2 h m' ∧ m'.bits = m.bits ∧
      (m.mem.wf = true → m'.mem.wf = true) ∧
      (∀ i, i < payload.length → m'.mem.read (m.trunc (a.toNat + i)) = payload[i]?) ∧
      ∀ c, (∀ i, i < payload.length → c ≠ m.trunc (a.toNat + i)) → m'.mem.read c = m.mem.read c := by
  obtain ⟨x, hM, hxh, hr, hc⟩ := chip_frame c hw hh hsel hp (header opWrite a) payload
  rw [List.foldl_append, RefMem.header_steps m opWrite a hb] at hc
  obtain ⟨h1, h2, h3, h4⟩ := RefMem.write_steps
    { m with phase := .data, op := opWrite, addr := m.trunc a.toNat } rfl rfl payload hn
  have ht : ∀ i, ({ m with phase := .data, op := opWrite, addr := m.trunc a.toNat } : RefMem).trunc
      (m.trunc a.toNat + i) = m.trunc (a.toNat + i) := fun i => RefMem.trunc_add m _ i
  simp only [ht] at h3 h4
  exact ⟨_, hc, h1, h2, h3, h4⟩

end Sys2Proof.Machine
end

