-- ==== Sys2Proof/Laws/Encoding.lean ====
section
/-! SUPPORT. The fields of the encoding tables read back what was put into them, and what each part of the decoder has
accepted (R91, R92, R94, R101, R102). -/

namespace Sys2Proof

theorem op_opWord (op u : Nat) (h : op < 256) : opOf (opWord op u) = op := by
  unfold opOf opWord
  rw [BitVec.extractLsb'_append_eq_left]; simp; omega

theorem unit_opWord (op u : Nat) (h : u < 256) : unitOf (opWord op u) = u := by
  unfold unitOf opWord
  rw [BitVec.extractLsb'_append_eq_right]; simp; omega

theorem refOfWord_wordOfRef (r : Option BufRef) (h : refOk r = true) : refOfWord (wordOfRef r) = r := by
  cases r <;> simp_all [refOfWord, wordOfRef, refOk]

theorem byteWord_hi (v : Byte) : (byteWord v).extractLsb' 8 24 = 0 := by
  apply BitVec.eq_of_getLsbD_eq; intro i hi; simp [byteWord]

theorem byteWord_lo (v : Byte) : (byteWord v).extractLsb' 0 8 = v := by
  apply BitVec.eq_of_getLsbD_eq; intro i hi; simp [byteWord, hi]; omega

theorem headerWord_hi (o : Byte) (a : BitVec 24) : (headerWord o a).extractLsb' 24 8 = o := by
  unfold headerWord; exact BitVec.extractLsb'_append_eq_left

theorem headerWord_lo (o : Byte) (a : BitVec 24) : (headerWord o a).extractLsb' 0 24 = a := by
  unfold headerWord; exact BitVec.extractLsb'_append_eq_right

theorem cfgWord_hi (m : Mode) (o : Order) : (cfgWord m o).extractLsb' 3 29 = 0 := by
  cases m <;> cases o <;> decide

theorem cfgWord_mode (m : Mode) (o : Order) : modeOfBits ((cfgWord m o).extractLsb' 0 2) = m := by
  cases m <;> cases o <;> decide

theorem cfgWord_order (m : Mode) (o : Order) : orderOfBit (cfgWord m o)[2] = o := by
  cases m <;> cases o <;> decide

theorem unitOk_lt {u n : Nat} (h : unitOk u n = true) : u < 256 := by simp [unitOk] at h; exact h.2

/-- An operation word is its two fields. -/
theorem opWord_parts (w : BitVec 16) : opWord (opOf w) (unitOf w) = w := by
  apply BitVec.eq_of_getLsbD_eq; intro i hi
  simp only [opWord, opOf, unitOf, BitVec.ofNat_toNat, BitVec.setWidth_eq, BitVec.getLsbD_append]
  split
  · simp [*]
  · simp; rw [decide_eq_true (by omega)]; simp; congr 1; omega

theorem byteWord_parts (w : Word32) (h : w.extractLsb' 8 24 = 0) : byteWord (w.extractLsb' 0 8) = w := by
  have h' := h
  apply BitVec.eq_of_getLsbD_eq; intro i hi
  have : ∀ j < 24, w.getLsbD (8 + j) = false := fun j hj => by
    have := congrArg (·.getLsbD j) h; simpa [hj] using this
  by_cases h8 : i < 8
  · simp [byteWord, h8, hi]
  · have := this (i - 8) (by omega)
    rw [show 8 + (i - 8) = i by omega] at this
    simp [byteWord, h8, this]

theorem headerWord_parts (w : Word32) : headerWord (w.extractLsb' 24 8) (w.extractLsb' 0 24) = w := by
  apply BitVec.eq_of_getLsbD_eq; intro i hi
  simp only [headerWord, BitVec.getLsbD_append]
  split
  · simp [*]
  · simp; rw [decide_eq_true (by omega)]; simp; congr 1; omega

theorem bits_modeOfBits (x : BitVec 2) : (modeOfBits x).bits = x := by revert x; decide

theorem bit_orderOfBit (x : Bool) : (orderOfBit x).bit = x := by revert x; decide

/-- A `CFGW` without reserved bits is its two fields. -/
theorem cfgWord_parts (c : Word32) (h : c.extractLsb' 3 29 = 0) :
    cfgWord (modeOfBits (c.extractLsb' 0 2)) (orderOfBit (c.getLsbD 2)) = c := by
  have h3 : ∀ j < 29, c.getLsbD (3 + j) = false := fun j hj => by
    have := congrArg (·.getLsbD j) h; simpa [hj] using this
  have hc : c.toNat < 8 := by
    have := congrArg BitVec.toNat h
    simp [BitVec.extractLsb'_toNat, Nat.shiftRight_eq_div_pow] at this
    omega
  have : c = BitVec.ofNat 32 c.toNat := by simp
  rw [this]
  generalize c.toNat = n at hc
  interval_cases n <;> decide

theorem wordOfRef_refOfWord (w : Word32) : wordOfRef (refOfWord w) = w := by
  unfold refOfWord wordOfRef; split <;> simp_all

theorem refOk_refOfWord (w : Word32) : refOk (refOfWord w) = true := by
  unfold refOfWord refOk; split <;> simp_all

theorem noOperand_ok {i j : Instr} {ws rest} (h : noOperand j ws = .ok i rest) : i = j ∧ ws = rest := by
  simp [noOperand] at h; exact ⟨h.1.symm, h.2⟩

theorem byteOperand_ok {f : Byte → Instr} {i : Instr} {ws rest} (h : byteOperand f ws = .ok i rest) :
    ∃ v, i = f v ∧ ws = .opnd (byteWord v) :: rest := by
  unfold byteOperand at h
  split at h
  · split at h
    · rename_i hz
      injection h with h1 h2
      exact ⟨_, h1.symm, by rw [byteWord_parts _ hz, h2]⟩
    · simp at h
  · simp at h

theorem cfgOperands_ok {f : Mode → Order → Word32 → Instr} {i : Instr} {ws rest} (h : cfgOperands f ws = .ok i rest) :
    ∃ m o fr, i = f m o fr ∧ ws = .opnd (cfgWord m o) :: .opnd fr :: rest := by
  unfold cfgOperands at h
  split at h
  · split at h
    · rename_i hz
      injection h with h1 h2
      exact ⟨_, _, _, h1.symm, by rw [cfgWord_parts _ hz, h2]⟩
    · simp at h
  · simp at h

theorem threeOperands_ok {f : Word32 → Word32 → Word32 → Instr} {i : Instr} {ws rest}
    (h : threeOperands f ws = .ok i rest) :
    ∃ x y z, i = f x y z ∧ ws = .opnd x :: .opnd y :: .opnd z :: rest := by
  unfold threeOperands at h
  split at h
  · injection h with h1 h2
    exact ⟨_, _, _, h1.symm, by rw [h2]⟩
  · simp at h

/-- What `decodeOp` accepts is the operation word and the operand words of the operation it answers. -/
theorem decodeOp_ok {op unit : Nat} {ws rest : List PortWord} {i : Instr} (h : decodeOp op unit ws = .ok i rest) :
    i.refsOk = true ∧ PortWord.opw (opWord op unit) :: ws = encode i ++ rest := by
  unfold decodeOp at h
  split at h
  all_goals first
    | (obtain ⟨rfl, rfl⟩ := noOperand_ok h; exact ⟨rfl, rfl⟩)
    | (obtain ⟨v, rfl, rfl⟩ := byteOperand_ok h; exact ⟨rfl, rfl⟩)
    | (obtain ⟨m, o, fr, rfl, rfl⟩ := cfgOperands_ok h; exact ⟨rfl, rfl⟩)
    | (obtain ⟨x, y, z, rfl, rfl⟩ := threeOperands_ok h
       exact ⟨by simp [Instr.refsOk, refOk_refOfWord], by simp [encode, wordOfRef_refOfWord]⟩)
    | simp at h

theorem checkUnit_ok {cfg d i rest} (h : checkUnit cfg d = .ok i rest) : d = .ok i rest ∧ i.unitInRange cfg = true
    := by
  unfold checkUnit at h
  split at h
  · split at h
    · rename_i hu; simp at h; rw [h.1] at hu; rw [h.1,h.2]; exact ⟨rfl, hu⟩
    · simp at h
  · simp at h
  · simp at h

/-- What `decodeFrame` accepts is the wire word it answers, or the first of four bytes sent by hand (R97). -/
theorem decodeFrame_ok {h w rest i r} (hd : decodeFrame h w rest = .ok i r) : i.refsOk = true ∧
    (PortWord.frame h w :: rest = encode i ++ r ∨
      ((w.extractLsb' 24 8).toNat ∉ [0x03, 0x02, 0x05, 0x01] ∧ i = .dxfer h (w.extractLsb' 24 8) ∧
        r = dxferRecord h (w.extractLsb' 16 8) ++ dxferRecord h (w.extractLsb' 8 8) ++
          dxferRecord h (w.extractLsb' 0 8) ++ rest)) := by
  unfold decodeFrame at hd
  split at hd
  case h_5 h3 h2 h5 h1 =>
    simp only [Decoded.ok.injEq] at hd
    obtain ⟨rfl, rfl⟩ := hd
    exact ⟨rfl, .inr ⟨by simpa using ⟨h3, h2, h5, h1⟩, rfl, rfl⟩⟩
  all_goals
    rename_i ho
    simp only [Decoded.ok.injEq] at hd
    obtain ⟨rfl, rfl⟩ := hd
    refine ⟨rfl, .inl ?_⟩
    simp only [encode, List.cons_append, List.nil_append]
    congr 2
    conv_lhs => rw [← headerWord_parts w]
    congr 1
    exact BitVec.eq_of_toNat_eq (by rw [ho]; rfl)

end Sys2Proof
end

