-- ==== Sys2Proof/Laws/Lines.lean ====
section
/-! SUPPORT. What answers the input line: the loop (R76, R167) and exactly one selected chip (R77, R147), whatever its mode. -/

namespace Sys2Proof.Machine

open State

/-- The levels sampled and the levels sent among some events, in order. -/
def levels : List Event → List Level × List Level := fun es =>
  (es.filterMap (fun e => match e with
        | .smp _ x => some x
        | _ => none), es.filterMap (fun e => match e with
        | .mosi _ x => some x
        | _ => none))

theorem lastMosi_sck (b b' : Nat) (tr : List Event) (v : Level) : lastMosi b (tr ++ [.sck b' v]) = lastMosi b tr := by
  unfold lastMosi; rw [List.foldl_append]; rfl

theorem lastMosi_mosi (b : Nat) (tr : List Event) (v : Level) : lastMosi b (tr ++ [.mosi b v]) = some v := by
  unfold lastMosi; rw [List.foldl_append]; simp

theorem miso_loop {s : State} {b : Nat} {x : Level} (hl : s.line b = .loop) (h : lastMosi b s.trace = some x) :
    s.miso b = x := by
  simp [State.miso, hl, h]

/-- Under `LOOP` every sample is the bit just sent (R76). -/
theorem sampleAt_loop {s : State} {b : Nat} (hl : s.line b = .loop) (mode : Mode) (order : Order) (v : Byte)
    (f : Nat → Level) (k : Nat) : s.sampleAt b mode order v f k = sentBit order v k := by
  refine miso_loop (s := s.after _) hl ?_
  rw [after_trace, ← List.append_assoc]
  generalize s.trace ++ bitsEvents b mode order v f k = tr
  unfold samplePrefix
  split <;> simp [lastMosi, List.foldl_append]

theorem miso_after_mosi (s : State) (b sck mosi : Nat) (bit : Level) (hl : s.line b = .loop) :
    ((s.driveMosi b mosi bit).toggleSck b sck).miso b = bit := by
  refine miso_loop (s := (s.driveMosi b mosi bit).toggleSck b sck) hl ?_
  show lastMosi b ((s.trace ++ [.mosi b bit]) ++ [.sck b _]) = _
  rw [lastMosi_sck, lastMosi_mosi]

theorem bitStep0_trace (s : State) (b sck mosi : Nat) (bit : Level) :
    ∃ x y, (s.bitStep0 b sck mosi bit).2.trace =
      s.trace ++ [.mosi b bit, .sck b x, .smp b (s.bitStep0 b sck mosi bit).1, .sck b y] := by
  have h : (s.bitStep0 b sck mosi bit).2.trace = (((s.trace ++ [.mosi b bit]) ++
      [.sck b (!(s.driveMosi b mosi bit).lvl sck)]) ++ [.smp b (s.bitStep0 b sck mosi bit).1]) ++
      [.sck b (!((s.driveMosi b mosi bit).toggleSck b sck).lvl sck)] := rfl
  simp only [List.append_assoc, List.cons_append, List.nil_append] at h
  exact ⟨_, _, h⟩

theorem bitStep1_trace (s : State) (b sck mosi : Nat) (bit : Level) :
    ∃ x y, (s.bitStep1 b sck mosi bit).2.trace =
      s.trace ++ [.sck b x, .mosi b bit, .sck b y, .smp b (s.bitStep1 b sck mosi bit).1] := by
  have h : (s.bitStep1 b sck mosi bit).2.trace = (((s.trace ++ [.sck b (!s.lvl sck)]) ++ [.mosi b bit]) ++
      [.sck b (!((s.toggleSck b sck).driveMosi b mosi bit).lvl sck)]) ++ [.smp b (s.bitStep1 b sck mosi bit).1] := rfl
  simp only [List.append_assoc, List.cons_append, List.nil_append] at h
  exact ⟨_, _, h⟩

theorem bitStep0_loop (s : State) (b sck mosi : Nat) (bit : Level) (hl : s.line b = .loop) :
(s.bitStep0 b sck mosi bit).1 = bit ∧ ∃ es, (s.bitStep0 b sck mosi bit).2.trace = s.trace ++ es ∧ levels es =
    ([bit], [bit]) := by
  have h : (s.bitStep0 b sck mosi bit).1 = bit := miso_after_mosi s b sck mosi bit hl
  obtain ⟨x, y, ht⟩ := bitStep0_trace s b sck mosi bit
  rw [h] at ht
  exact ⟨h, _, ht, rfl⟩

theorem bitStep1_loop (s : State) (b sck mosi : Nat) (bit : Level) (hl : s.line b = .loop) :
(s.bitStep1 b sck mosi bit).1 = bit ∧ ∃ es, (s.bitStep1 b sck mosi bit).2.trace = s.trace ++ es ∧ levels es =
    ([bit], [bit]) := by
  have h : (s.bitStep1 b sck mosi bit).1 = bit := miso_after_mosi (s.toggleSck b sck) b sck mosi bit hl
  obtain ⟨x, y, ht⟩ := bitStep1_trace s b sck mosi bit
  rw [h] at ht
  exact ⟨h, _, ht, rfl⟩

theorem swBitTime_loop (s : State) (b sck mosi : Nat) (out inn : Byte) (k : Nat)
    (hp : s.path = .sw b out inn k) (hl : s.line b = .loop) :
    let bit := outBit (s.bus b).order out
    let t := s.swBitTime b sck mosi
    t.path = .sw b (shiftOutReg (s.bus b).order out) (shiftInReg (s.bus b).order inn bit) (k + 1) ∧
    ∃ es, t.trace = s.trace ++ es ∧ levels es = ([bit], [bit]) := by
  dsimp only
  unfold swBitTime
  simp only [hp]
  split
  · obtain ⟨h1, h2⟩ := bitStep1_loop s b sck mosi (outBit (s.bus b).order out) hl
    exact ⟨by rw [setPath_path, h1], h2⟩
  · obtain ⟨h1, h2⟩ := bitStep0_loop s b sck mosi (outBit (s.bus b).order out) hl
    exact ⟨by rw [setPath_path, h1], h2⟩

theorem levels_append (a b : List Event) : levels (a ++ b) =
    ((levels a).1 ++ (levels b).1, (levels a).2 ++ (levels b).2) := by
  simp [levels]

/-- Under `LOOP` each of the first `n` bit times samples the bit it sends (R167). -/
theorem swBitTimes_loop (s : State) (b sck mosi : Nat) (v : Byte) (hl : s.line b = .loop) (n : Nat) (hn : n ≤ 8) :
    let t := swBitTimes b sck mosi n (s.setPath (.sw b v 0 0))
    t.path = .sw b (outAfter (s.bus b).order v n) (inAfter (s.bus b).order 0 (sentBit (s.bus b).order v) n) n ∧
    ∃ es, t.trace = s.trace ++ es ∧ levels es = ((List.range n).map (sentBit (s.bus b).order v), (List.range n).map (sentBit (s.bus b).order v)) := by
  induction n with
  | zero => exact ⟨rfl, [], by simp [swBitTimes], rfl⟩
  | succ n ih =>
    obtain ⟨h1, es, h2, h3⟩ := ih (by omega)
    dsimp only
    rw [swBitTimes_succ]
    have hw : WireOnly s (swBitTimes b sck mosi n (s.setPath (.sw b v 0 0))) :=
      (wireOnly_setPath s _).trans (wireOnly_swBitTimes b sck mosi n _)
    generalize swBitTimes b sck mosi n (s.setPath (.sw b v 0 0)) = t at *
    obtain ⟨k1, fs, k2, k3⟩ := swBitTime_loop t b sck mosi _ _ _ h1 ((hw.line b).trans hl)
    rw [hw.bus, outBit_outAfter _ _ _ (by omega)] at k1 k3
    refine ⟨k1, es ++ fs, by rw [k2, h2, List.append_assoc], ?_⟩
    rw [levels_append, h3, k3]; simp [List.range_succ]

theorem react_sel (cfg : Config) (e : Event) (x : Slave) (he : ∀ h v, e ≠ .cs h v) : (x.react cfg e).sel = x.sel := by
  cases e with
  | cs h v => exact absurd rfl (he h v)
  | mosi b v => simp only [Slave.react]; split <;> rfl
  | sck b v =>
    simp only [Slave.react]; split
    · split
      · unfold Slave.trailing; split
        · simp [Slave.sampleIn]
        · simp [Slave.shiftOut]
      · unfold Slave.leading; split
        · simp [Slave.shiftOut]
        · simp [Slave.sampleIn]
    · rfl
  | dir _ _ => rfl
  | smp _ _ => rfl
  | xch _ _ _ => rfl

theorem hears_sel (cfg : Config) (es : List Event) (x : Slave) (he : ∀ e ∈ es, ∀ h v, e ≠ .cs h v) :
    (x.hears cfg es).sel = x.sel := by
  induction es generalizing x with
  | nil => rfl
  | cons e es ih =>
    simp only [List.mem_cons, forall_eq_or_imp] at he
    rw [show e :: es = [e] ++ es from rfl, Slave.hears_append, ih _ he.2]
    exact react_sel cfg e x he.1

theorem react_cfg (cfg cfg' : Config) (hd : cfg'.devs = cfg.devs) (e : Event) (x : Slave) : x.react cfg' e = x.react
    cfg e := by
  have h1 : ∀ h, cfg'.dev h = cfg.dev h := fun h => by simp [Config.dev, hd]
  have h2 : ∀ h, cfg'.busOf h = cfg.busOf h := fun h => by simp [Config.busOf, h1]
  cases e <;> simp [Slave.react, h1, h2]

theorem hearAll_cfg (cfg cfg' : Config) (hd : cfg'.devs = cfg.devs) (es : List Event) (xs : List Slave) : hearAll
    cfg' es xs = hearAll cfg es xs := by
  have : hear cfg' = hear cfg := by funext e ys; simp [hear]; intro y _; exact react_cfg cfg cfg' hd e y
  simp [hearAll, this]

theorem driven_cfg (cfg cfg' : Config) (hd : cfg'.devs = cfg.devs) (b : Nat) (xs : List Slave) : driven cfg' b xs =
    driven cfg b xs := by
  have h1 : ∀ h, cfg'.dev h = cfg.dev h := fun h => by simp [Config.dev, hd]
  have h2 : ∀ h, cfg'.busOf h = cfg.busOf h := fun h => by simp [Config.busOf, h1]
  simp [driven, h2]

/-- The environment's answers depend on the configuration through the handles alone (R147). -/
theorem sampleAt_cfg {s t : State} (hd : t.cfg.devs = s.cfg.devs) (hl : t.lines = s.lines) (ht : t.trace = s.trace)
    (hs : t.slaves = s.slaves) (b : Nat) (mode : Mode) (order : Order) (v : Byte) (f : Nat → Level) (k : Nat) :
    t.sampleAt b mode order v f k = s.sampleAt b mode order v f k := by
  simp only [State.sampleAt, State.after, State.miso, State.line, hl, ht, hs, hearAll_cfg s.cfg t.cfg hd,
    driven_cfg s.cfg t.cfg hd]

end Sys2Proof.Machine
end

