-- ==== Sys2Proof/Laws/PerInstr.lean ====
section
/-! SUPPORT. Per-instruction families over the syntax. `EncodeShape`: the words of an operation are an operation word
with the `OP` of its row of R101 and as many operand words as that row has, and those of a wire word are one frame word
with the opcode byte of its row of R96. -/

namespace Sys2Proof.Laws

/-- The `OP` of an operation (R101), or the opcode byte of a wire word (R96). -/
def rowCode : Instr → Nat
  | .bacq _ _ _ _ => 0x10
  | .brel _ => 0x11
  | .bxfer _ _ => 0x12
  | .bxblk _ _ _ _ => 0x13
  | .dacq _ => 0x20
  | .drel _ => 0x21
  | .dxfer _ _ => 0x22
  | .dxblk _ _ _ _ => 0x23
  | .mread _ _ _ _ => 0x30
  | .mwrite _ _ _ _ => 0x31
  | .sput _ _ => 0x40
  | .savail _ => 0x41
  | .speek _ => 0x42
  | .sget _ => 0x43
  | .sflush _ => 0x44
  | .read _ _ => 0x03
  | .write _ _ => 0x02
  | .rdmr _ _ => 0x05
  | .wrmr _ _ => 0x01

/-- The words are an operation record or one wire word with this code, with the operand words its row has. -/
def shapeOf (code : Nat) : List PortWord → Prop
  | .opw w :: ops => opOf w = code ∧ ops.length = operandCount code
  | .frame _ w :: ops => (w.extractLsb' 24 8).toNat = code ∧ ops = []
  | _ => False

namespace EncodeShape

/-- The encoding of an operation has the shape of its row. -/
def Statement (i : Instr) : Prop := shapeOf (rowCode i) (encode i)

theorem bacq (b : Nat) (mode : Mode) (order : Order) (freq : Word32) : Statement (.bacq b mode order freq) :=
  ⟨op_opWord 0x10 _ (by decide), rfl⟩

theorem brel (b : Nat) : Statement (.brel b) :=
  ⟨op_opWord 0x11 _ (by decide), rfl⟩

theorem bxfer (b : Nat) (v : Byte) : Statement (.bxfer b v) :=
  ⟨op_opWord 0x12 _ (by decide), rfl⟩

theorem bxblk (b : Nat) (d r : Option BufRef) (n : Word32) : Statement (.bxblk b d r n) :=
  ⟨op_opWord 0x13 _ (by decide), rfl⟩

theorem dacq (h : Nat) : Statement (.dacq h) :=
  ⟨op_opWord 0x20 _ (by decide), rfl⟩

theorem drel (h : Nat) : Statement (.drel h) :=
  ⟨op_opWord 0x21 _ (by decide), rfl⟩

theorem dxfer (h : Nat) (v : Byte) : Statement (.dxfer h v) :=
  ⟨op_opWord 0x22 _ (by decide), rfl⟩

theorem dxblk (h : Nat) (d r : Option BufRef) (n : Word32) : Statement (.dxblk h d r n) :=
  ⟨op_opWord 0x23 _ (by decide), rfl⟩

theorem mread (m : Nat) (d : Option BufRef) (a n : Word32) : Statement (.mread m d a n) :=
  ⟨op_opWord 0x30 _ (by decide), rfl⟩

theorem mwrite (m : Nat) (a : Word32) (r : Option BufRef) (n : Word32) : Statement (.mwrite m a r n) :=
  ⟨op_opWord 0x31 _ (by decide), rfl⟩

theorem sput (x : Nat) (v : Byte) : Statement (.sput x v) :=
  ⟨op_opWord 0x40 _ (by decide), rfl⟩

theorem savail (x : Nat) : Statement (.savail x) :=
  ⟨op_opWord 0x41 _ (by decide), rfl⟩

theorem speek (x : Nat) : Statement (.speek x) :=
  ⟨op_opWord 0x42 _ (by decide), rfl⟩

theorem sget (x : Nat) : Statement (.sget x) :=
  ⟨op_opWord 0x43 _ (by decide), rfl⟩

theorem sflush (x : Nat) : Statement (.sflush x) :=
  ⟨op_opWord 0x44 _ (by decide), rfl⟩

theorem read (h : Nat) (a : BitVec 24) : Statement (.read h a) :=
  ⟨congrArg BitVec.toNat (headerWord_hi 0x03 a), rfl⟩

theorem write (h : Nat) (a : BitVec 24) : Statement (.write h a) :=
  ⟨congrArg BitVec.toNat (headerWord_hi 0x02 a), rfl⟩

theorem rdmr (h : Nat) (a : BitVec 24) : Statement (.rdmr h a) :=
  ⟨congrArg BitVec.toNat (headerWord_hi 0x05 a), rfl⟩

theorem wrmr (h : Nat) (a : BitVec 24) : Statement (.wrmr h a) :=
  ⟨congrArg BitVec.toNat (headerWord_hi 0x01 a), rfl⟩

end EncodeShape

end Sys2Proof.Laws
end

