-- ==== Sys2Proof/Laws/Steps.lean ====
section
/-! SUPPORT. A step by the caller it schedules (R122, R256): what it runs, and that from a state of the machine it is at most
a turn, an issue and one effect; events of one bus do not reach the chips of another (R129). -/

namespace Sys2Proof.Machine

open State

theorem step_scheduled {s : State} {c rest} (h : Scheduled s c rest) : step s = runPiece (s.turn c rest) := by
  simp [step, h.wf, h.shape, runAccepted, h.accepted, runScheduled, h.sched, h.caller]

theorem step_notWaiting {s : State} {c rest} (h : Scheduled s c rest) (hn : NotWaiting s c) :
    step s = fetchAndRun (s.turn c rest) := by
  rw [step_scheduled h, runPiece]
  have hc : (s.turn c rest).caller (s.turn c rest).cur = s.caller c := rfl
  rw [hc]
  split
  · rename_i b op a hst; exact absurd hst (hn b op a)
  · rfl
  · rfl

theorem step_waiting {s : State} {c rest b op a} (h : Scheduled s c rest)
    (hst : (s.caller c).status = .waiting b op a) :
    step s = .next (resume b op a (s.turn c rest)) := by
  rw [step_scheduled h, runPiece]
  have hc : (s.turn c rest).caller (s.turn c rest).cur = s.caller c := rfl
  rw [hc, hst]

/-- An operation that reaches its acquire on a free bus runs its grant piece at once. -/
theorem exec_grant {s : State} {i : Instr} {b : Nat} (hu : i.unitInRange s.cfg = true) (hr : reachesWait s i = true)
    (hb : waitBus s.cfg i = some b) (hf : (s.bus b).held = false) :
    exec i s = .next (grantPiece i (operandAddr s i) s) := by
  cases i <;> simp only [waitBus, Option.some.injEq, reduceCtorEq] at hb <;> subst hb <;>
    simp only [Instr.unitInRange, unitOk, Bool.and_eq_true, decide_eq_true_eq] at hu <;>
    simp only [reachesWait, Bool.and_eq_true, Bool.not_eq_true'] at hr <;>
    simp [exec, execBacq, execDacq, execMread, execMwrite, execSput, execSget, execSpeek, inRange, hu.1, acquire, hf, grantPiece, hr, operandAddr]

/-- An operation that reaches its acquire on a held bus waits. -/
theorem exec_wait {s : State} {i : Instr} {b : Nat} (hu : i.unitInRange s.cfg = true) (hr : reachesWait s i = true)
    (hb : waitBus s.cfg i = some b) (hf : (s.bus b).held = true) :
    exec i s = .next (s.wait b i (operandAddr s i)) := by
  cases i <;> simp only [waitBus, Option.some.injEq, reduceCtorEq] at hb <;> subst hb <;>
    simp only [Instr.unitInRange, unitOk, Bool.and_eq_true, decide_eq_true_eq] at hu <;>
    simp only [reachesWait, Bool.and_eq_true, Bool.not_eq_true'] at hr <;>
    simp [exec, execBacq, execDacq, execMread, execMwrite, execSput, execSget, execSpeek, inRange, hu.1, acquire, hf, hr, operandAddr]

/-- What the decoder accepts is well-formed. -/
theorem wf_of_decode {cfg : Config} {i : Instr} {ws rest : List PortWord} (h : decode cfg ws = .ok i rest) :
    i.wf cfg = true := by
  unfold decode at h
  split at h
  · simp at h
  · obtain ⟨h1, h2⟩ := checkUnit_ok h
    simp [Instr.wf, h2, (decodeOp_ok h1).1]
  · obtain ⟨h1, h2⟩ := checkUnit_ok h
    simp [Instr.wf, h2, (decodeFrame_ok h1).1]
  · simp at h

/-- Every step is no change, a schedule change, or a turn followed by at most an issue and an effect. -/
theorem step_effect {s t : State} (hi : Inv s) (h : step s = .next t) :
    t = s ∨ (∃ c rest, s.sched = c :: rest ∧ t = { s with sched := rest }) ∨
    ∃ c rest u, s.sched = c :: rest ∧ c < s.cfg.ncaller ∧ Inv u ∧ u.cur = c ∧
      (t = u ∧ u = s.turn c rest ∨ ∃ i, i.wf s.cfg = true ∧ Effect u i t ∧
        ((∃ b a, u = s.turn c rest ∧ (s.caller c).status = .waiting b i a ∧ (s.bus b).held = false) ∨
        (NotWaiting s c ∧ ∃ ws, u = (s.turn c rest).issue ws))) := by
  obtain ⟨hw, hsh, h | h | ⟨c, rest, hs, hc, h⟩⟩ := step_cases h
  · exact .inl h
  · exact .inr (.inl h)
  · refine .inr (.inr ⟨c, rest, ?_⟩)
    have hit := inv_turn hi c rest
    rcases h with h | ⟨b, op, a, hst, hf, h⟩ | ⟨i, ws, hn, hd, hx⟩
    · exact ⟨s.turn c rest, hs, hc, hit, rfl, .inl ⟨h, rfl⟩⟩
    · have hwt := hi.base.waits c hc
      simp only [waitOk, hst, Bool.and_eq_true, decide_eq_true_eq] at hwt
      have hu : op.unitInRange s.cfg = true := by
        have := hwt.1; simp only [Instr.wf, Bool.and_eq_true] at this; exact this.1
      refine ⟨s.turn c rest, hs, hc, hit, rfl, .inr ⟨op, hwt.1, ?_, .inl ⟨b, a, rfl, hst, hf⟩⟩⟩
      rw [h]; exact effect_of_grant a hw hu hwt.2 hf
    · have hwf := wf_of_decode hd
      have hu : i.unitInRange s.cfg = true := by
        simp only [Instr.wf, Bool.and_eq_true] at hwf; exact hwf.1
      exact ⟨_, hs, hc, inv_issue hit hc ws, rfl, .inr ⟨i, hwf, effect_of_exec hw hu hx, .inr ⟨hn, ws, rfl⟩⟩⟩

/-! ### Words that arrive -/

@[simp] theorem arrive_cfg (s : State) (w : Nat → List PortWord) : (s.arrive w).cfg = s.cfg := rfl
@[simp] theorem arrive_buses (s : State) (w : Nat → List PortWord) : (s.arrive w).buses = s.buses := rfl
@[simp] theorem arrive_pins (s : State) (w : Nat → List PortWord) : (s.arrive w).pins = s.pins := rfl
@[simp] theorem arrive_strs (s : State) (w : Nat → List PortWord) : (s.arrive w).strs = s.strs := rfl
@[simp] theorem arrive_path (s : State) (w : Nat → List PortWord) : (s.arrive w).path = s.path := rfl
@[simp] theorem arrive_trace (s : State) (w : Nat → List PortWord) : (s.arrive w).trace = s.trace := rfl
@[simp] theorem arrive_faults (s : State) (w : Nat → List PortWord) : (s.arrive w).faults = s.faults := rfl
@[simp] theorem arrive_bufs (s : State) (w : Nat → List PortWord) : (s.arrive w).bufs = s.bufs := rfl
@[simp] theorem arrive_lines (s : State) (w : Nat → List PortWord) : (s.arrive w).lines = s.lines := rfl
@[simp] theorem arrive_slaves (s : State) (w : Nat → List PortWord) : (s.arrive w).slaves = s.slaves := rfl
@[simp] theorem arrive_sched (s : State) (w : Nat → List PortWord) : (s.arrive w).sched = s.sched := rfl
@[simp] theorem arrive_cur (s : State) (w : Nat → List PortWord) : (s.arrive w).cur = s.cur := rfl
@[simp] theorem arrive_bus (s : State) (w : Nat → List PortWord) (b : Nat) : (s.arrive w).bus b = s.bus b := rfl

theorem arrive_length (s : State) (w : Nat → List PortWord) : (s.arrive w).callers.length = s.callers.length := by
  simp [State.arrive]

/-- Words arrive at the ends of the ports, and no caller's status or result changes. -/
theorem arrive_caller (s : State) (w : Nat → List PortWord) {c : Nat} (h : c < s.callers.length) :
    (s.arrive w).caller c = { s.caller c with port := (s.caller c).port ++ w c } := by
  simp [State.arrive, State.caller, entry, h]

@[simp] theorem arrive_status (s : State) (w : Nat → List PortWord) (c : Nat) :
    ((s.arrive w).caller c).status = (s.caller c).status := by
  by_cases h : c < s.callers.length
  · rw [arrive_caller s w h]
  · have h' := Nat.le_of_not_lt h
    simp [State.caller, entry, List.getD_eq_getElem?_getD, List.getElem?_eq_none h',
      List.getElem?_eq_none ((arrive_length s w).trans_le h')]

@[simp] theorem arrive_waitsOn (s : State) (w : Nat → List PortWord) (c b : Nat) :
    (s.arrive w).waitsOn c b = s.waitsOn c b := by
  simp [State.waitsOn]

theorem inv_arrive {s : State} (hi : Inv s) (w : Nat → List PortWord) : Inv (s.arrive w) := by
  obtain ⟨h1, h2, h3, h4⟩ := (shapeOk_iff s).1 hi.base.shape
  refine ⟨⟨hi.base.cfgWf, (shapeOk_iff _).2 ⟨h1, h2, (arrive_length s w).trans h3, h4⟩, fun c hc => ?_⟩,
    ⟨hi.bus.owner, hi.bus.selHeld, hi.bus.oneSel⟩, ⟨hi.pin.clock, hi.pin.busDirs, hi.pin.csDirs⟩,
    ⟨hi.canon.pins, hi.canon.bufs, hi.canon.mems, hi.canon.path⟩⟩
  refine waitOk_of_status fun b op a h => ?_
  have hw := hi.base.waits c hc
  rw [arrive_status] at h
  simpa [State.waitOk, h] using hw

/-! ### Callers that wait -/

/-- What it is to wait for a bus. -/
theorem waitsOn_iff {s : State} {c b : Nat} : s.waitsOn c b = true ↔ ∃ op a, (s.caller c).status = .waiting b op a := by
  unfold State.waitsOn
  split <;> rename_i h <;> simp [h]

/-- A bus an operation of the block can wait for is there. -/
theorem waitBus_lt {cfg : Config} {i : Instr} {b : Nat} (hw : cfg.wf = true) (hu : i.unitInRange cfg = true)
    (hb : waitBus cfg i = some b) : b < cfg.buses.length := by
  have hm : ∀ m, m < cfg.mems.length → cfg.busOf (cfg.handleOf m) < cfg.buses.length :=
    fun m hm => Config.wf_bus_lt hw (Config.wf_handle hw hm).1
  cases i <;> simp only [waitBus, Option.some.injEq, reduceCtorEq] at hb <;>
    simp only [Instr.unitInRange, unitOk, Bool.and_eq_true, decide_eq_true_eq] at hu <;> subst hb
  case bacq => exact hu.1
  case dacq => exact Config.wf_bus_lt hw hu.1
  case mread => exact hm _ hu.1
  case mwrite => exact hm _ hu.1
  all_goals exact hm _ (Config.wf_stream hw hu.1)

/-- A waiting caller is inside a well-formed operation that waits for its bus. -/
theorem waiting_ok {s : State} (hi : Inv s) {c b : Nat} {op : Instr} {a : Word32} (hc : c < s.cfg.ncaller)
    (h : (s.caller c).status = .waiting b op a) :
    op.unitInRange s.cfg = true ∧ waitBus s.cfg op = some b ∧ b < s.cfg.buses.length := by
  have hw := hi.base.waits c hc
  simp only [waitOk, h, Bool.and_eq_true, decide_eq_true_eq, Instr.wf] at hw
  exact ⟨hw.1.1, hw.2, waitBus_lt hi.base.cfgWf hw.1.1 hw.2⟩

theorem inv_sched {s : State} (hi : Inv s) (rest : List Nat) : Inv { s with sched := rest } :=
  inv_turn hi s.cur rest

theorem bus_of_buses {s u : State} (h : u.buses = s.buses) (b : Nat) : u.bus b = s.bus b := by simp [bus, h]

theorem react_otherBus (cfg : Config) (e : Event) (x : Slave) (h : eventBus cfg e ≠ some (cfg.busOf x.h)) :
    x.react cfg e = x := by
  cases e with
  | cs g v =>
    have : g ≠ x.h := fun hg => h (by rw [hg]; rfl)
    simp [Slave.react, this]
  | mosi b v =>
    have : b ≠ cfg.busOf x.h := fun hb => h (by rw [hb]; rfl)
    simp [Slave.react, this]
  | sck b v =>
    have : b ≠ cfg.busOf x.h := fun hb => h (by rw [hb]; rfl)
    simp [Slave.react, this]
  | dir _ _ => rfl
  | smp _ _ => rfl
  | xch _ _ _ => rfl

theorem hears_otherBus (cfg : Config) (es : List Event) (x : Slave)
    (h : ∀ e ∈ es, eventBus cfg e ≠ some (cfg.busOf x.h)) :
    x.hears cfg es = x := by
  induction es with
  | nil => rfl
  | cons e es ih =>
    simp only [List.mem_cons, forall_eq_or_imp] at h
    rw [show e :: es = [e] ++ es from rfl, Slave.hears_append]
    rw [show x.hears cfg [e] = x.react cfg e from rfl, react_otherBus cfg e x h.1, ih h.2]

theorem filter_bus_hearAll (cfg : Config) (b b' : Nat) (es : List Event) (xs : List Slave) (hne : b' ≠ b)
    (h : ∀ e ∈ es, eventBus cfg e = some b') :
(hearAll cfg es xs).filter (fun x => decide (cfg.busOf x.h = b)) = xs.filter (fun x => decide (cfg.busOf x.h = b))
    := by
  rw [hearAll_map]
  induction xs with
  | nil => rfl
  | cons x xs ih =>
    simp only [List.map_cons, List.filter_cons, Slave.hears_h, ih]
    split
    · rename_i hb
      rw [hears_otherBus]
      intro e he
      rw [h e he, of_decide_eq_true hb]
      simpa using hne
    · rfl

end Sys2Proof.Machine
end

