-- ==== Sys2Proof/Laws/Programs.lean ====
section
/-! SUPPORT. Programs before they run (R248): the check of a whole program finds a record that the decoder refuses exactly
where there is one (`RefusedIn`), and what a step leaves to run is again without one. -/

namespace Sys2Proof.Machine

open State

/-! ### The check of a program -/

/-- How many records a word can make, and one more for a word that another comes from. -/
def wordWeight : PortWord → Nat
  | .frame _ _ => 7
  | .opw _ => 1
  | .opnd _ => 1

/-- The weight of a program: no more than what `programError` looks at. -/
def weight (ws : List PortWord) : Nat := (ws.map wordWeight).sum

@[simp] theorem weight_append (ws vs : List PortWord) : weight (ws ++ vs) = weight ws + weight vs := by simp [weight]

theorem weight_le (ws : List PortWord) : weight ws ≤ 7 * ws.length := by
  induction ws with
  | nil => simp [weight]
  | cons w ws ih => cases w <;> simp [weight, wordWeight] at * <;> omega

theorem weight_encode_pos (i : Instr) : 0 < weight (encode i) := by cases i <;> simp [encode, weight, wordWeight]

/-- Each record takes something off a program. -/
theorem weight_decode {cfg : Config} {i : Instr} {ws rest : List PortWord} (h : decode cfg ws = .ok i rest) :
    weight rest < weight ws := by
  have key : ∀ vs, vs = encode i ++ rest → weight rest < weight vs := by
    rintro _ rfl
    have := weight_encode_pos i
    simp only [weight_append]
    omega
  unfold decode at h
  split at h
  · simp at h
  · have := (decodeOp_ok (checkUnit_ok h).1).2
    rw [opWord_parts] at this
    exact key _ this
  · rcases (decodeFrame_ok (checkUnit_ok h).1).2 with h | ⟨-, -, rfl⟩
    · exact key _ h
    · simp only [weight, dxferRecord, wordWeight, List.map_append, List.map_cons, List.map_nil, List.sum_append,
        List.sum_cons, List.sum_nil]
      omega
  · simp at h

theorem recordsError_iff (cfg : Config) (n : Nat) (ws : List PortWord) (e : DecodeError) (hn : weight ws ≤ n) :
    recordsError cfg n ws = some e ↔ RefusedIn cfg ws e := by
  have hempty : decode cfg [] = .empty := rfl
  induction n generalizing ws with
  | zero =>
    have : ws = [] := by
      cases ws with
      | nil => rfl
      | cons w ws => cases w <;> simp [weight, wordWeight] at hn
    subst this
    refine ⟨fun h => by simp [recordsError] at h, fun h => ?_⟩
    cases h with
    | here h => rw [hempty] at h; cases h
    | later h _ => rw [hempty] at h; cases h
  | succ n ih =>
    unfold recordsError
    cases hd : decode cfg ws with
    | empty =>
      refine ⟨fun h => by simp at h, fun h => ?_⟩
      cases h with
      | here h => rw [hd] at h; cases h
      | later h _ => rw [hd] at h; cases h
    | refused e' =>
      refine ⟨fun h => by cases h; exact .here hd, fun h => ?_⟩
      cases h with
      | here h => rw [hd] at h; cases h; rfl
      | later h _ => rw [hd] at h; cases h
    | ok i rest =>
      have hlt := weight_decode hd
      have := ih rest (by omega)
      refine ⟨fun h => .later hd (this.1 h), fun h => this.2 ?_⟩
      cases h with
      | here h => rw [hd] at h; cases h
      | later h k => rw [hd] at h; cases h; exact k

theorem programError_iff (cfg : Config) (ws : List PortWord) (e : DecodeError) :
    Sys2Proof.programError cfg ws = some e ↔ RefusedIn cfg ws e :=
  recordsError_iff cfg _ ws e (weight_le ws)

theorem programError_none (cfg : Config) (ws : List PortWord) :
    Sys2Proof.programError cfg ws = none ↔ ∀ e, ¬ RefusedIn cfg ws e := by
  rw [← not_iff_not, ← ne_eq, Option.ne_none_iff_exists']
  simp [programError_iff]

/-! ### Meanings stop nowhere else -/

/-- An operation whose unit is in range answers a next state, whatever the state (R104). -/
theorem exec_next {s : State} {i : Instr} (hu : i.unitInRange s.cfg = true) : ∃ t, exec i s = .next t := by
  cases i <;> simp only [Instr.unitInRange, unitOk, Bool.and_eq_true, decide_eq_true_eq] at hu <;>
    simp [exec, execBacq, execBrel, execBxfer, execBxblk, execDacq, execDrel, execDxfer, execDxblk, execMread,
      execMwrite, execSput, execSavail, execSpeek, execSget, execSflush, execRead, execWrite, execRdmr, execWrmr,
      sendHeader, inRange, hu.1]

/-- An operation whose unit is not below its count is refused, whatever the state. -/
theorem exec_unitRefused {s : State} {i : Instr} (hu : unitBelow s.cfg i = false) :
    exec i s = .refused .unitOutOfRange := by
  cases i <;> simp only [unitBelow, decide_eq_false_iff_not] at hu <;>
    simp [exec, execBacq, execBrel, execBxfer, execBxblk, execDacq, execDrel, execDxfer, execDxblk, execMread,
      execMwrite, execSput, execSavail, execSpeek, execSget, execSflush, execRead, execWrite, execRdmr, execWrmr,
      sendHeader, inRange, hu]

/-! ### The programs of a state -/

theorem mem_callers {s : State} {x : Caller} (h : x ∈ s.callers) : ∃ c, c < s.callers.length ∧ s.caller c = x := by
  obtain ⟨c, hc, rfl⟩ := List.mem_iff_getElem.1 h
  exact ⟨c, hc, by simp [State.caller, entry, hc]⟩

theorem caller_mem {s : State} {c : Nat} (h : c < s.callers.length) : s.caller c ∈ s.callers := by
  simp [State.caller, entry, h]

/-- No program is refused exactly when no port holds a refused record. -/
theorem accepted_iff (s : State) :
    s.programError = none ↔ ∀ c, c < s.callers.length → ∀ e, ¬ RefusedIn s.cfg (s.caller c).port e := by
  simp only [State.programError, List.findSome?_eq_none_iff, programError_none]
  exact ⟨fun h c hc => h _ (caller_mem hc), fun h x hx => by obtain ⟨c, hc, rfl⟩ := mem_callers hx; exact h c hc⟩

/-- The reason a refused program is given is that of one of its refused records. -/
theorem refused_of_programError {s : State} {e : DecodeError} (h : s.programError = some e) :
    ∃ c, c < s.callers.length ∧ RefusedIn s.cfg (s.caller c).port e := by
  obtain ⟨x, hx, he⟩ := List.exists_of_findSome?_eq_some h
  obtain ⟨c, hc, rfl⟩ := mem_callers hx
  exact ⟨c, hc, (programError_iff _ _ _).1 he⟩

theorem accepted_of_step {s t : State} (h : step s = .next t) : s.programError = none := by
  unfold step at h
  split at h
  · cases h
  · split at h
    · cases h
    · unfold runAccepted at h
      split at h
      · cases h
      · assumption

/-- What an operation leaves to run is what was left before it. -/
theorem port_of_effect {s t : State} {i : Instr} (hi : Inv s) (e : Effect s i t) (c : Nat) :
    (t.caller c).port = (s.caller c).port := by
  by_cases hc : c = s.cur
  · subst hc; exact (effect_caller hi e).1
  · rw [(piece_of_effect hi e).others c hc]

/-- A step leaves each port as it was, or at the words after a record it accepted. -/
theorem port_of_step {s t : State} (hi : Inv s) (h : step s = .next t) (c : Nat) :
    (t.caller c).port = (s.caller c).port ∨ ∃ i, decode s.cfg (s.caller c).port = .ok i (t.caller c).port := by
  obtain ⟨hw, hsh, rfl | ⟨c', rest, -, rfl⟩ | ⟨c', rest, hs, hc', h⟩⟩ := step_cases h
  · exact .inl rfl
  · exact .inl rfl
  · have hit := inv_turn hi c' rest
    rcases h with rfl | ⟨b, op, a, hst, hf, rfl⟩ | ⟨i, ws, hn, hd, hx⟩
    · exact .inl rfl
    · have hwt := hi.base.waits c' hc'
      simp only [waitOk, hst, Bool.and_eq_true, decide_eq_true_eq] at hwt
      have hu : op.unitInRange s.cfg = true := by
        have := hwt.1; simp only [Instr.wf, Bool.and_eq_true] at this; exact this.1
      exact .inl (port_of_effect hit (effect_of_grant (s := s.turn c' rest) a hw hu hwt.2 hf) c)
    · have hwf := wf_of_decode hd
      have hu : i.unitInRange s.cfg = true := by
        simp only [Instr.wf, Bool.and_eq_true] at hwf; exact hwf.1
      have hp := port_of_effect (inv_issue hit hc' ws) (effect_of_exec (s := (s.turn c' rest).issue ws) hw hu hx) c
      by_cases hcc : c = c'
      · subst hcc
        refine .inr ⟨i, ?_⟩
        rw [hp]
        simpa [State.issue, State.turn] using hd
      · left
        rw [hp]
        simp only [State.issue, State.turn, State.caller, State.setCaller, entry_setEntry_ne _ _ _ hcc]

/-- A run that has begun is never refused: what a step leaves to run is accepted again (R248). -/
theorem accepted_after_step {s t : State} (hi : Inv s) (h : step s = .next t) (hc : t.cfg = s.cfg)
    (hl : t.callers.length = s.callers.length) : t.programError = none := by
  have ha := (accepted_iff s).1 (accepted_of_step h)
  rw [accepted_iff]
  intro c hlt e he
  rw [hc] at he
  rw [hl] at hlt
  rcases port_of_step hi h c with hp | ⟨i, hd⟩
  · rw [hp] at he; exact ha c hlt e he
  · exact ha c hlt e (.later hd he)

end Sys2Proof.Machine
end

