-- ==== Sys2Proof/Laws/Streams.lean ====
section
/-! SUPPORT. The stream operations: what they answer (R221 to R224), what any operation does to the streams (R226, R228), and
what they do to a reference chip (R229). -/

namespace Sys2Proof.Machine

open State

theorem hasChip_congr {s t : State} {h : Nat} {c : RefMem} (k : HasChip s h c) (h1 : t.cfg = s.cfg)
    (h2 : t.lines = s.lines) (h3 : t.slaves = s.slaves) : HasChip t h c := by
  obtain ⟨pre, x, post, a, b, d, e, f, g, i, j, l⟩ := k
  refine ⟨pre, x, post, ?_, by rw [h3]; exact b, ?_, ?_, f, by rw [h1]; exact g, by rw [h1]; exact i, j, l⟩
  · simp only [line, h2, h1]; exact a
  · rw [h1]; exact d
  · rw [h1]; exact e

theorem trunc_eq {c : RefMem} {a : Nat} : a % 2 ^ c.bits = c.trunc a := rfl

theorem Selected.congr {s t : State} {b : Nat} {pre post : List Slave} {x : Slave} (k : Selected s b pre x post)
    (h1 : t.cfg = s.cfg) (h2 : t.lines = s.lines) (h3 : t.slaves = s.slaves) (h4 : t.pins = s.pins)
    (h5 : t.buses = s.buses) : Selected t b pre x post := by
  obtain ⟨a1, a2, a3, a4, a5, a6, a7, a8, a9⟩ := k
  refine ⟨by simp only [State.line, h2]; exact a1, by rw [h3]; exact a2, by rw [h1]; exact a3, by rw [h1]; exact a4, by rw [h1]; exact a5, a6, ?_, ?_, ?_⟩
  · simp only [State.bus, h5]; exact a7
  · simp only [State.bus, h5]; exact a8
  · simp only [State.bus, State.lvl, State.pin, h5, h4, h1]; exact a9

theorem grantSput_eq {s : State} {x : Nat} (v : Byte) (a : Word32) (hs : s.selected (streamHandle s.cfg x) = false) :
grantSput x v a s =
    (afterPut ((s.openDev (streamHandle s.cfg x)).frame (streamHandle s.cfg x) (header opWrite a) [v]).2 x).finish
    .accepted := by
  simp [grantSput, grantDev, hs]

theorem grantSpeek_eq {s : State} {x : Nat} (a : Word32) (hs : s.selected (streamHandle s.cfg x) = false) :
grantSpeek x a s =
    ((s.openDev (streamHandle s.cfg x)).frame (streamHandle s.cfg x) (header opRead a) [s.cfg.fill]).2.finish
    (.byte (((s.openDev (streamHandle s.cfg x)).frame (streamHandle s.cfg x) (header opRead a) [s.cfg.fill]).1.headD 0))
    := by
  simp [grantSpeek, grantDev, hs, openDev_cfg]

theorem grantSget_eq {s : State} {x : Nat} (a : Word32) (hs : s.selected (streamHandle s.cfg x) = false) :
grantSget x a s =
    (afterGet ((s.openDev (streamHandle s.cfg x)).frame (streamHandle s.cfg x) (header opRead a) [s.cfg.fill]).2 x).finish
    (.byte (((s.openDev (streamHandle s.cfg x)).frame (streamHandle s.cfg x) (header opRead a) [s.cfg.fill]).1.headD 0))
    := by
  simp [grantSget, grantDev, hs, openDev_cfg]

theorem exec_sput {s : State} {x : Nat} (v : Byte) (hx : x < s.cfg.strs.length)
    (f : DevFree s (streamHandle s.cfg x)) (hc : (s.str x).count ≠ (s.cfg.stream x).size) :
exec (.sput x v) s = .next
    ((afterPut ((s.openDev (streamHandle s.cfg x)).frame (streamHandle s.cfg x) (header opWrite (streamAddr s.cfg x (s.str x).put)) [v]).2 x).finish .accepted)
    := by
  rw [← grantSput_eq v _ ((selected_eq_false _ _).2 f.idle)]
  simp [exec, execSput, inRange, hx, full, hc, acquire, f.free]

theorem exec_speek {s : State} {x : Nat} (hx : x < s.cfg.strs.length) (f : DevFree s (streamHandle s.cfg x))
    (hc : (s.str x).count ≠ 0) :
exec (.speek x) s = .next
    (((s.openDev (streamHandle s.cfg x)).frame (streamHandle s.cfg x) (header opRead (streamAddr s.cfg x (s.str x).get)) [s.cfg.fill]).2.finish (.byte (((s.openDev (streamHandle s.cfg x)).frame (streamHandle s.cfg x) (header opRead (streamAddr s.cfg x (s.str x).get)) [s.cfg.fill]).1.headD 0)))
    := by
  rw [← grantSpeek_eq _ ((selected_eq_false _ _).2 f.idle)]
  simp [exec, execSpeek, inRange, hx, emptyStr, hc, acquire, f.free]

theorem exec_sget {s : State} {x : Nat} (hx : x < s.cfg.strs.length) (f : DevFree s (streamHandle s.cfg x))
    (hc : (s.str x).count ≠ 0) :
exec (.sget x) s = .next
    ((afterGet ((s.openDev (streamHandle s.cfg x)).frame (streamHandle s.cfg x) (header opRead (streamAddr s.cfg x (s.str x).get)) [s.cfg.fill]).2 x).finish (.byte (((s.openDev (streamHandle s.cfg x)).frame (streamHandle s.cfg x) (header opRead (streamAddr s.cfg x (s.str x).get)) [s.cfg.fill]).1.headD 0)))
    := by
  rw [← grantSget_eq _ ((selected_eq_false _ _).2 f.idle)]
  simp [exec, execSget, inRange, hx, emptyStr, hc, acquire, f.free]

theorem streamAddr_eq (cfg : Config) (x i : Nat) : streamAddr cfg x i = BitVec.ofNat 32
    ((cfg.stream x).base.toNat + i) := by
  simp [streamAddr, BitVec.ofNat_add]

theorem FrameDone.str {s t : State} {h : Nat} {vs rs : List Byte} (k : FrameDone s t h vs rs) (x : Nat) : t.str x =
    s.str x := by simp [State.str, k.strs]

theorem str_after_setStr (u : State) (x : Nat) (v : Stream) (r : Result) : ((u.setStr x v).finish r).str x = v ∧ ∀
    y, y ≠ x → ((u.setStr x v).finish r).str y = u.str y := by
  refine ⟨str_setStr_self .., fun y hy => ?_⟩
  show (u.setStr x v).str y = _
  rw [str_setStr, if_neg hy]

theorem answered_setStr {s t : State} {h : Nat} {vs rs : List Byte} (k : FrameDone s t h vs rs) (x : Nat)
    (v : Stream) (r : Result) : Answered s ((t.setStr x v).finish r) r :=
  answered_of_running r k.cfg k.faults k.lines k.sched k.cur k.callers

theorem sput_devFree {s t : State} {x : Nat} {v : Byte} (hx : x < s.cfg.strs.length)
    (f : DevFree s (streamHandle s.cfg x)) (hc : (s.str x).count ≠ (s.cfg.stream x).size)
    (e : exec (.sput x v) s = .next t) : DevFree t (streamHandle s.cfg x) := by
  have hF := frame_at f (header opWrite (streamAddr s.cfg x (s.str x).put)) [v]
  have hex := exec_sput v hx f hc
  generalize frameReplies (s.openDev (streamHandle s.cfg x)) (streamHandle s.cfg x) (header opWrite (streamAddr s.cfg x (s.str x).put)) [v] = R at *
  generalize (s.openDev (streamHandle s.cfg x)).frame (streamHandle s.cfg x) (header opWrite (streamAddr s.cfg x (s.str x).put)) [v] = z at *
  rw [e] at hex
  rw [Host.Outcome.next.inj hex]
  exact devFree_congr (devFree_after f hF) rfl rfl rfl rfl

theorem strInv_of_empty {s : State} {x : Nat} (h : s.str x = ⟨0, 0, 0⟩) : StrInv s x := by
  refine ⟨by rw [h]; exact Nat.zero_le _, ?_, ?_, by rw [h]; simp⟩
  · rw [h]; simp; omega
  · rw [h]; simp; omega

theorem strInv_put {s t : State} {x : Nat} (hi : StrInv s x) (hn : (s.str x).count ≠ (s.cfg.stream x).size)
    (hc : t.cfg = s.cfg)
(ht : t.str x = ⟨((s.str x).put + 1) % (s.cfg.stream x).size, (s.str x).get, (s.str x).count + 1⟩) : StrInv t x :=
    by
  obtain ⟨h1, h2, h3, h4⟩ := hi
  have hpos : 0 < (s.cfg.stream x).size := by omega
  refine ⟨?_, ?_, ?_, ?_⟩ <;> rw [hc, ht]
  · show _ + 1 ≤ _; omega
  · exact .inl (Nat.mod_lt _ hpos)
  · exact h3
  · simp only
    push_cast
    generalize ((s.cfg.stream x).size : Int) = n at *
    generalize ((s.str x).put : Int) = p at *
    generalize ((s.str x).get : Int) = g at *
    generalize ((s.str x).count : Int) = c at *
    have e : (((p + 1) % n - g) % n) = ((p - g) % n + 1) % n := by
      rw [Int.emod_add_emod, Int.emod_sub_emod]; ring_nf
    rw [e, h4, Int.emod_add_emod]

theorem strInv_get {s t : State} {x : Nat} (hi : StrInv s x) (hn : (s.str x).count ≠ 0) (hc : t.cfg = s.cfg)
(ht : t.str x = ⟨(s.str x).put, ((s.str x).get + 1) % (s.cfg.stream x).size, (s.str x).count - 1⟩) : StrInv t x :=
    by
  obtain ⟨h1, h2, h3, h4⟩ := hi
  have hpos : 0 < (s.cfg.stream x).size := by omega
  refine ⟨?_, ?_, ?_, ?_⟩ <;> rw [hc, ht]
  · show _ - 1 ≤ _; omega
  · exact h2
  · exact .inl (Nat.mod_lt _ hpos)
  · simp only
    rw [Nat.cast_sub (by omega)]
    push_cast
    generalize ((s.cfg.stream x).size : Int) = n at *
    generalize ((s.str x).put : Int) = p at *
    generalize ((s.str x).get : Int) = g at *
    generalize ((s.str x).count : Int) = c at *
    have e : ((p - (g + 1) % n) % n) = ((p - g) % n - 1) % n := by
      rw [Int.emod_sub_emod, Int.sub_emod, Int.emod_emod_of_dvd _ (dvd_refl n), ← Int.sub_emod]; ring_nf
    rw [e, h4, Int.emod_sub_emod]

theorem strInv_congr {s t : State} {x : Nat} (hi : StrInv s x) (hc : t.cfg = s.cfg) (h : t.str x = s.str x) : StrInv
    t x := by
  obtain ⟨a, b, c, d⟩ := hi
  exact ⟨by rw [hc, h]; exact a, by rw [hc, h]; exact b, by rw [hc, h]; exact c, by rw [hc, h]; exact d⟩

/-- What an operation does to the streams. -/
inductive StreamsAfter (s t : State) : Instr → Prop where
  | same (i : Instr) : t.strs = s.strs → StreamsAfter s t i
  | put (y : Nat) (v : Byte) : s.full y = false → t.strs = (afterPut s y).strs → StreamsAfter s t (.sput y v)
  | get (y : Nat) : s.emptyStr y = false → t.strs = (afterGet s y).strs → StreamsAfter s t (.sget y)
  | flush (y : Nat) : t.strs = (s.setStr y Stream.empty).strs → StreamsAfter s t (.sflush y)

theorem failWith_strs (s : State) (c : FaultCode) (i : Instr) : (s.failWith c i).strs = s.strs ∧
    (s.failWith c i).cfg = s.cfg := by
  obtain ⟨fs, h⟩ := raise_fields s c i
  simp only [failWith, h]; exact ⟨rfl, rfl⟩

theorem store_strs (s : State) (d : Option BufRef) (ys : List Byte) : (s.store d ys).strs = s.strs ∧
    (s.store d ys).cfg = s.cfg := by
  obtain ⟨b, h, -⟩ := store_fields s d ys; rw [h]; exact ⟨rfl, rfl⟩

theorem guarded_strs {s t : State} {u n : Nat} {f : Option FaultCode} {op : Instr} {body : State}
    (h : inRange u n (match f with
      | some c => s.failWith c op
      | none => body) = .next t) (hb : body.strs = s.strs ∧ body.cfg = s.cfg) : t.strs = s.strs ∧ t.cfg = s.cfg := by
  obtain ⟨-, rfl⟩ := inRange_next h
  cases f with
  | none => exact hb
  | some c => exact failWith_strs s c op

theorem afterPut_congr {u s : State} (h1 : u.strs = s.strs) (h2 : u.cfg = s.cfg) (y : Nat) : (afterPut u y).strs =
    (afterPut s y).strs := by
  simp [afterPut, State.str, h1, h2]

/-- A stream that holds a byte counts down by one. -/
theorem countDown_pos {s : State} {x : Nat} (h : (s.str x).count ≠ 0) : countDown s x = (s.str x).count - 1 := by
  unfold countDown
  split
  · contradiction
  · rename_i n hn; rw [hn]; rfl

theorem afterGet_congr {u s : State} {y : Nat} (h : (s.str y).count ≠ 0) (h1 : u.strs = s.strs) (h2 : u.cfg = s.cfg) :
    (afterGet u y).strs = (afterGet s y).strs := by
  have hs : u.str y = s.str y := by simp [State.str, h1]
  simp only [afterGet, countDown_pos h, countDown_pos (hs ▸ h : (u.str y).count ≠ 0), hs, h2, setStr, h1]

theorem ite_ind {P : State → Prop} {c : Prop} [Decidable c] {a b : State} (h1 : c → P a) (h2 : ¬c → P b) : P
    (if c then a else b) := by
  split
  · exact h1 ‹_›
  · exact h2 ‹_›

theorem acquire_ind {P : State → Prop} {s : State} {b : Nat} {op : Instr} {a : Word32} {g : State → State}
    (h1 : P (s.wait b op a)) (h2 : P (g s)) : P (s.acquire b op a g) :=
  ite_ind (fun _ => h1) (fun _ => h2)

/-- The configuration stays and the streams are as the operation leaves them. -/
structure StreamEffect (s : State) (i : Instr) (t : State) : Prop where
  cfg : t.cfg = s.cfg
  done : StreamsAfter s t i

theorem StreamEffect.of_same {s t : State} {i : Instr} (h : t.strs = s.strs ∧ t.cfg = s.cfg) : StreamEffect s i t :=
    ⟨h.2, .same i h.1⟩

theorem StreamEffect.of_put {s u : State} {y : Nat} {v : Byte} {r : Result} (hf : s.full y = false)
    (h1 : u.strs = s.strs) (h2 : u.cfg = s.cfg) : StreamEffect s (.sput y v) ((afterPut u y).finish r) :=
  ⟨h2, .put y v hf (afterPut_congr h1 h2 y)⟩

theorem StreamEffect.of_get {s u : State} {y : Nat} {r : Result} (hf : s.emptyStr y = false) (h1 : u.strs = s.strs)
    (h2 : u.cfg = s.cfg) : StreamEffect s (.sget y) ((afterGet u y).finish r) :=
  ⟨h2, .get y hf (afterGet_congr (by simpa [emptyStr] using hf) h1 h2)⟩

/-- What the grant piece of an operation does to the streams, whatever address was kept: the check made before the wait
still holds (R256). -/
theorem streamEffect_of_grant {s : State} {i : Instr} (a : Word32) (hr : reachesWait s i = true) :
    StreamEffect s i (grantPiece i a s) := by
  have hfail : ∀ c j, StreamEffect s i (s.failWith c j) := fun c j => .of_same (failWith_strs s c j)
  cases i with
  | bacq b m o f =>
    have o := openBus_spec s b m o f
    exact .of_same ⟨o.strs, o.cfg⟩
  | dacq g =>
    simp only [grantPiece]; unfold grantDacq
    exact grantDev_cases s g _ _ (fun _ => hfail _ _) (fun _ => .of_same ⟨openDev_strs s g, openDev_cfg s g⟩)
  | mread m d a n =>
    simp only [grantPiece]; unfold grantMread
    refine grantDev_cases s _ _ _ (fun _ => hfail _ _) (fun _ => .of_same ?_)
    exact ⟨(store_strs _ _ _).1.trans (frame_strs _ _ _ _), (store_strs _ _ _).2.trans (frame_cfg _ _ _ _)⟩
  | mwrite m a d n =>
    simp only [grantPiece]; unfold grantMwrite
    refine grantDev_cases s _ _ _ (fun _ => hfail _ _) (fun _ => .of_same ?_)
    exact ⟨frame_strs _ _ _ _, frame_cfg _ _ _ _⟩
  | sput y v =>
    simp only [grantPiece]; unfold grantSput
    refine grantDev_cases s _ _ _ (fun _ => hfail _ _) (fun _ => ?_)
    exact .of_put (by simpa [reachesWait] using hr) (frame_strs _ _ _ _) (frame_cfg _ _ _ _)
  | speek y =>
    simp only [grantPiece]; unfold grantSpeek
    refine grantDev_cases s _ _ _ (fun _ => hfail _ _) (fun _ => ?_)
    dsimp only
    generalize hz : (s.openDev (streamHandle s.cfg y)).frame (streamHandle s.cfg y) (header opRead a)
      [(s.openDev (streamHandle s.cfg y)).cfg.fill] = z
    exact .of_same ⟨(by rw [← hz]; exact frame_strs _ _ _ _ : z.2.strs = s.strs),
      (by rw [← hz]; exact frame_cfg _ _ _ _ : z.2.cfg = s.cfg)⟩
  | sget y =>
    simp only [grantPiece]; unfold grantSget
    refine grantDev_cases s _ _ _ (fun _ => hfail _ _) (fun _ => ?_)
    dsimp only
    generalize hz : (s.openDev (streamHandle s.cfg y)).frame (streamHandle s.cfg y) (header opRead a)
      [(s.openDev (streamHandle s.cfg y)).cfg.fill] = z
    exact .of_get (by simpa [reachesWait] using hr) (by rw [← hz]; exact frame_strs _ _ _ _)
      (by rw [← hz]; exact frame_cfg _ _ _ _)
  | _ => simp [reachesWait] at hr

/-- What every operation does to the streams. -/
theorem streamEffect_of_exec {s t : State} {i : Instr} (h : exec i s = .next t) : StreamEffect s i t := by
  have hwire : ∀ (b : Nat) (ys : List Byte) (r : Result), ((exchangeAll b ys s).2.finish r).strs = s.strs ∧ ((exchangeAll b ys s).2.finish r).cfg = s.cfg := by
    intro b ys r
    have hw := wireOnly_exchangeAll b ys s
    exact ⟨hw.strs, hw.cfg⟩
  have hone : ∀ (b : Nat) (v : Byte) (r : Result), ((s.exchange b v).2.finish r).strs = s.strs ∧ ((s.exchange b v).2.finish r).cfg = s.cfg := by
    intro b v r
    have hw := wireOnly_exchange s b v
    exact ⟨hw.strs, hw.cfg⟩
  have hblk : ∀ (b : Nat) (d r : Option BufRef) (n : Word32), ((s.transferBlock b d r n).finish .none).strs = s.strs ∧ ((s.transferBlock b d r n).finish .none).cfg = s.cfg := by
    intro b d r n
    have hw := wireOnly_exchangeAll b (s.blockOut d r n) s
    have hs := store_strs (exchangeAll b (s.blockOut d r n) s).2 d (exchangeAll b (s.blockOut d r n) s).1
    exact ⟨hs.1.trans hw.strs, hs.2.trans hw.cfg⟩
  have hfail : ∀ c j, StreamEffect s i (s.failWith c j) := fun c j => .of_same (failWith_strs s c j)
  have hwait : ∀ b a, StreamEffect s i (s.wait b i a) := fun b a => .of_same ⟨rfl, rfl⟩
  have hfin : ∀ r, StreamEffect s i (s.finish r) := fun r => .of_same ⟨rfl, rfl⟩
  have hgrant : ∀ a, reachesWait s i = true → StreamEffect s i (grantPiece i a s) := fun a => streamEffect_of_grant a
  cases i with
  | bacq b m o f => cases (inRange_next h).2; exact acquire_ind (hwait _ _) (hgrant 0 rfl)
  | brel b => exact .of_same (guarded_strs h ⟨rfl, rfl⟩)
  | bxfer b v => exact .of_same (guarded_strs h (hone b v _))
  | bxblk b d r n => exact .of_same (guarded_strs h (hblk b d r n))
  | dacq g => cases (inRange_next h).2; exact acquire_ind (hwait _ _) (hgrant 0 rfl)
  | drel g => exact .of_same (guarded_strs h ⟨rfl, rfl⟩)
  | dxfer g v => exact .of_same (guarded_strs h (hone _ v _))
  | dxblk g d r n => exact .of_same (guarded_strs h (hblk _ d r n))
  | mread m d a n =>
    cases (inRange_next h).2
    exact ite_ind (fun _ => hfail _ _) fun h1 => ite_ind (fun _ => hfin _) fun h2 =>
      acquire_ind (hwait _ _) (hgrant a (by simp [reachesWait, h1, h2]))
  | mwrite m a d n =>
    cases (inRange_next h).2
    exact ite_ind (fun _ => hfail _ _) fun h1 => ite_ind (fun _ => hfin _) fun h2 =>
      acquire_ind (hwait _ _) (hgrant a (by simp [reachesWait, h1, h2]))
  | sput y v =>
    cases (inRange_next h).2
    exact ite_ind (fun _ => hfin _) fun hf => acquire_ind (hwait _ _) (hgrant _ (by simp [reachesWait, hf]))
  | savail y => cases (inRange_next h).2; exact hfin _
  | speek y =>
    cases (inRange_next h).2
    exact ite_ind (fun _ => hfin _) fun hf => acquire_ind (hwait _ _) (hgrant _ (by simp [reachesWait, hf]))
  | sget y =>
    cases (inRange_next h).2
    exact ite_ind (fun _ => hfin _) fun hf => acquire_ind (hwait _ _) (hgrant _ (by simp [reachesWait, hf]))
  | sflush y => cases (inRange_next h).2; exact ⟨rfl, .flush y rfl⟩
  | read g a => exact .of_same (guarded_strs h (hwire _ _ _))
  | write g a => exact .of_same (guarded_strs h (hwire _ _ _))
  | rdmr g a => exact .of_same (guarded_strs h (hwire _ _ _))
  | wrmr g a => exact .of_same (guarded_strs h (hwire _ _ _))

theorem str_afterPut {s t : State} {y : Nat} (h : t.strs = (afterPut s y).strs) (x : Nat) : t.str x = if x = y then
    ⟨((s.str x).put + 1) % (s.cfg.stream x).size, (s.str x).get, (s.str x).count + 1⟩ else s.str x := by
  have : t.str x = (afterPut s y).str x := by simp [State.str, h]
  rw [this, afterPut, str_setStr]
  split
  · rename_i hxy; subst hxy; rfl
  · rfl

theorem str_afterGet {s t : State} {y : Nat} (h0 : (s.str y).count ≠ 0) (h : t.strs = (afterGet s y).strs) (x : Nat) : t.str x = if x = y then
    ⟨(s.str x).put, ((s.str x).get + 1) % (s.cfg.stream x).size, (s.str x).count - 1⟩ else s.str x := by
  have : t.str x = (afterGet s y).str x := by simp [State.str, h]
  rw [this, afterGet, str_setStr, countDown_pos h0]
  split
  · rename_i hxy; subst hxy; rfl
  · rfl

theorem trunc_streamAddr {c : RefMem} (hb : c.bits ≤ 24) (cfg : Config) (x i : Nat) : c.trunc
    (streamAddr cfg x i).toNat = ((cfg.stream x).base.toNat + i) % 2 ^ c.bits := by
  rw [streamAddr_eq, BitVec.toNat_ofNat, RefMem.trunc, Nat.mod_mod_of_dvd]
  exact Nat.pow_dvd_pow 2 (by omega)

/-- Two indices of a window that fits in the chip are two addresses of the chip. -/
theorem streamAddr_inj {c : RefMem} (hb : c.bits ≤ 24) (cfg : Config) (x i j : Nat)
    (hs : (cfg.stream x).size ≤ 2 ^ c.bits) (hi : i < (cfg.stream x).size) (hj : j < (cfg.stream x).size)
    (h : c.trunc (streamAddr cfg x i).toNat = c.trunc (streamAddr cfg x j).toNat) : i = j := by
  rw [trunc_streamAddr hb, trunc_streamAddr hb] at h
  have h2 : i ≡ j [MOD 2 ^ c.bits] := Nat.ModEq.add_left_cancel' _ h
  have := h2
  unfold Nat.ModEq at this
  rw [Nat.mod_eq_of_lt (by omega), Nat.mod_eq_of_lt (by omega)] at this
  exact this

/-- The put index from the get index and the count (C5). -/
theorem StrInv.put_eq {s : State} {x : Nat} (hi : StrInv s x) (hpos : 0 < (s.cfg.stream x).size) : (s.str x).put =
    ((s.str x).get + (s.str x).count) % (s.cfg.stream x).size := by
  obtain ⟨h1, h2, h3, h4⟩ := hi
  have hp : (s.str x).put < (s.cfg.stream x).size := by omega
  have hg : (s.str x).get < (s.cfg.stream x).size := by omega
  have e : ((s.str x).put : Int) % (s.cfg.stream x).size = ((s.str x).get + (s.str x).count : Int) % (s.cfg.stream x).size := by
    have := congrArg (fun z => (z + ((s.str x).get : Int)) % ((s.cfg.stream x).size : Int)) h4
    simp only [Int.emod_add_emod] at this
    rw [sub_add_cancel] at this
    rw [this, add_comm]
  have e2 : (((s.str x).put % (s.cfg.stream x).size : Nat) : Int) = ((((s.str x).get + (s.str x).count) % (s.cfg.stream x).size : Nat) : Int) := by push_cast; exact e
  have e3 := Int.ofNat.inj e2
  rwa [Nat.mod_eq_of_lt hp] at e3

/-- A peek and a get over a reference chip return the byte at the get index. -/
theorem speek_chip {s : State} {x : Nat} {c : RefMem} (hx : x < s.cfg.strs.length)
    (f : DevFree s (streamHandle s.cfg x)) (hc : HasChip s (streamHandle s.cfg x) c) (hb : c.bits ≤ 24)
    (h0 : (s.str x).count ≠ 0) :
∃ (t w : State) (c' : RefMem), exec (.speek x) s = .next t ∧ (t.caller s.cur).result = .byte
    (c.peek (streamHandle s.cfg x) (streamAddr s.cfg x (s.str x).get).toNat) ∧ t.cfg = s.cfg ∧ t.strs = s.strs ∧
    DevFree t (streamHandle s.cfg x) ∧
      HasChip t (streamHandle s.cfg x) c' ∧ c'.bits = c.bits ∧ c'.mem = c.mem ∧
      exec (.sget x) s = .next w ∧ (w.caller s.cur).result = .byte (c.peek (streamHandle s.cfg x) (streamAddr s.cfg x (s.str x).get).toNat) ∧ w.cfg = s.cfg ∧ w.strs = (afterGet s x).strs ∧ DevFree w (streamHandle s.cfg x) ∧ HasChip w (streamHandle s.cfg x) c' := by
  have hF := frame_at f (header opRead (streamAddr s.cfg x (s.str x).get)) [s.cfg.fill]
  obtain ⟨r0, c', r1, r2, r3⟩ := chip_read hc f.wf f.inRange ((selected_eq_false _ _).2 f.idle) f.path hb (streamAddr s.cfg x (s.str x).get) [s.cfg.fill]
  have hex := exec_speek hx f h0
  have hexg := exec_sget hx f h0
  generalize frameReplies (s.openDev (streamHandle s.cfg x)) (streamHandle s.cfg x) (header opRead (streamAddr s.cfg x (s.str x).get)) [s.cfg.fill] = R at *
  generalize (s.openDev (streamHandle s.cfg x)).frame (streamHandle s.cfg x) (header opRead (streamAddr s.cfg x (s.str x).get)) [s.cfg.fill] = z at *
  obtain ⟨rs, u⟩ := z
  simp only at *
  have hb0 : rs.headD 0 = c.peek (streamHandle s.cfg x) (streamAddr s.cfg x (s.str x).get).toNat := by rw [r0]; simp
  refine ⟨_, _, c', hex, ?_, hF.cfg, hF.strs, devFree_congr (devFree_after f hF) rfl rfl rfl rfl, hasChip_congr r1 rfl rfl rfl, r2, r3, hexg, ?_, hF.cfg, afterGet_congr h0 hF.strs hF.cfg, devFree_congr (devFree_after f hF) rfl rfl rfl rfl, hasChip_congr r1 rfl rfl rfl⟩
  · have := congrArg Caller.result (hF.answered (.byte (rs.headD 0))).caller
    rw [hb0] at this ⊢; exact this
  · have := congrArg Caller.result (answered_setStr hF x { u.str x with count := (u.str x).count - 1, get := nextIndex u.cfg x (u.str x).get } (.byte (rs.headD 0))).caller
    rw [hb0] at this ⊢; exact this

/-- An accepted put over a reference chip stores its byte at the put index and nothing else. -/
theorem sput_chip {s : State} {x : Nat} {c : RefMem} (v : Byte) (hx : x < s.cfg.strs.length)
    (f : DevFree s (streamHandle s.cfg x)) (hc : HasChip s (streamHandle s.cfg x) c) (hb : c.bits ≤ 24)
    (h0 : (s.str x).count ≠ (s.cfg.stream x).size) :
∃ (t : State) (c' : RefMem), exec (.sput x v) s = .next t ∧ (t.caller s.cur).result = .accepted ∧ t.cfg = s.cfg ∧
    t.strs = (afterPut s x).strs ∧ DevFree t (streamHandle s.cfg x) ∧
      HasChip t (streamHandle s.cfg x) c' ∧ c'.bits = c.bits ∧ (c.mem.wf = true → c'.mem.wf = true) ∧
      ∀ k, c'.mem.read k =
        if k = c.trunc (streamAddr s.cfg x (s.str x).put).toNat then some v else c.mem.read k := by
  have hF := frame_at f (header opWrite (streamAddr s.cfg x (s.str x).put)) [v]
  obtain ⟨c', r1, r2, r3, r4, r5⟩ := chip_write hc f.wf f.inRange ((selected_eq_false _ _).2 f.idle) f.path hb (streamAddr s.cfg x (s.str x).put) [v]
    (by simpa using Nat.one_le_two_pow)
  have hex := exec_sput v hx f h0
  generalize frameReplies (s.openDev (streamHandle s.cfg x)) (streamHandle s.cfg x) (header opWrite (streamAddr s.cfg x (s.str x).put)) [v] = R at *
  generalize (s.openDev (streamHandle s.cfg x)).frame (streamHandle s.cfg x) (header opWrite (streamAddr s.cfg x (s.str x).put)) [v] = z at *
  obtain ⟨rs, u⟩ := z
  simp only at *
  refine ⟨_, c', hex, ?_, hF.cfg, afterPut_congr hF.strs hF.cfg x, devFree_congr (devFree_after f hF) rfl rfl rfl rfl, hasChip_congr r1 rfl rfl rfl, r2, r3, ?_⟩
  · exact congrArg Caller.result (answered_setStr hF x { u.str x with count := (u.str x).count + 1, put := nextIndex u.cfg x (u.str x).put } .accepted).caller
  · intro k
    by_cases hk : k = c.trunc (streamAddr s.cfg x (s.str x).put).toNat
    · subst hk
      rw [if_pos rfl]
      simpa using r4 0 (by simp)
    · rw [if_neg hk]
      refine r5 k fun i hi => ?_
      simp only [List.length_singleton, Nat.lt_one_iff] at hi
      subst hi
      simpa using hk

end Sys2Proof.Machine
end

