-- ==== Sys2Proof/Tests/Slice0.lean ====
section
/-! SUPPORT. Tests of the definitions, each a named theorem. Expected values are those of 95_test_vectors.md (named in
each docstring) or of the encoding tables of 30_encoding.md; the witnesses show that the hypotheses of the
statements can be met together. -/

namespace Sys2Proof.Tests

-- The elaborations by the kernel run one after the other: side by side each holds a thread stack of its own.
set_option Elab.async false

open Sys2Proof.Machine Sys2Proof.Machine.State

/-- The outcome is a next state of which `p` holds. -/
def nextWith (o : Host.Outcome State Fault Refusal) (p : State → Bool) : Bool :=
  match o with
  | .next t => p t
  | .fault _ => false
  | .refused _ => false

theorem exists_of_nextWith {o : Host.Outcome State Fault Refusal} {p : State → Bool} (h : nextWith o p = true) :
    ∃ t, o = .next t ∧ p t = true := by
  unfold nextWith at h
  split at h
  · exact ⟨_, rfl, h⟩
  · exact absurd h (by simp)
  · exact absurd h (by simp)

/-- `CFG-T` (95_test_vectors.md section 0). -/
abbrev cfgT : Config := Config.reference

/-! ### WellFormed smoke: each check of R111 refuses a term that breaks it alone -/

theorem test_cfgT_wf : cfgT.wf = true := by decide

theorem test_wf_needs_bus : { cfgT with buses := [], devs := [], mems := [], strs := [] }.wf = false := by decide

theorem test_wf_needs_caller : { cfgT with ncaller := 0 }.wf = false := by decide

theorem test_wf_needs_sysclk : { cfgT with buses := [.sw 0 1 2, .hw 0 [2]] }.wf = false := by decide

theorem test_wf_needs_divisor : { cfgT with buses := [.sw 0 1 2, .hw 16000000 []] }.wf = false := by decide

theorem test_wf_needs_positive_divisor : { cfgT with buses := [.sw 0 1 2, .hw 16000000 [0]] }.wf = false := by decide

theorem test_wf_bus_of_handle : { cfgT with buses := [.sw 0 1 2] }.wf = false := by decide

theorem test_wf_handle_of_memory : { cfgT with mems := [⟨3, 17⟩] }.wf = false := by decide

theorem test_wf_address_bits_low : { cfgT with mems := [⟨0, 0⟩] }.wf = false := by decide

theorem test_wf_address_bits_high : { cfgT with mems := [⟨0, 25⟩] }.wf = false := by decide

theorem test_wf_memory_of_stream : { cfgT with mems := [] }.wf = false := by decide

theorem test_wf_pins_distinct : { cfgT with buses := [.sw 0 1 3, .hw 16000000 [2]] }.wf = false := by decide

theorem test_wf_handle_wrapped_twice : { cfgT with mems := [⟨0, 17⟩, ⟨0, 17⟩] }.wf = false := by decide

theorem test_wf_sentinel : { cfgT with empty := 255 }.wf = false := by decide

theorem test_wf_unit_out_of_range : (Instr.bacq 2 .mode0 .msb 1).wf cfgT = false := by decide

theorem test_wf_null_reference : (Instr.bxblk 0 (some 0) none 1).wf cfgT = false := by decide

/-- An ill-formed configuration is refused by the step (X3). -/
theorem test_step_refuses_config :
    (match step { State.reset with cfg := { cfgT with ncaller := 0 } } with
      | .refused .illFormedConfig => true
      | _ => false) = true := by decide

/-! ### Decoding: a word of every row, from R101 and R96 -/

theorem test_decode_bus : decode cfgT [.opw 0x1001, .opnd 0x00000006, .opnd 0x00000001] =
      .ok (.bacq 1 .mode2 .msb 1) [] ∧
    decode cfgT [.opw 0x1101] = .ok (.brel 1) [] ∧
    decode cfgT [.opw 0x1201, .opnd 0x000000FF] = .ok (.bxfer 1 0xFF) [] ∧
    decode cfgT [.opw 0x1300, .opnd 0x00000000, .opnd 0x00000005, .opnd 0xFFFFFFFF] =
      .ok (.bxblk 0 none (some 5) 0xFFFFFFFF) [] := by decide

theorem test_decode_dev : decode cfgT [.opw 0x2002] = .ok (.dacq 2) [] ∧
    decode cfgT [.opw 0x2100] = .ok (.drel 0) [] ∧
    decode cfgT [.opw 0x2200, .opnd 0x0000009F] = .ok (.dxfer 0 0x9F) [] ∧
    decode cfgT [.opw 0x2302, .opnd 0x00000002, .opnd 0x00000001, .opnd 0x00000003] =
      .ok (.dxblk 2 (some 2) (some 1) 3) [] := by decide

theorem test_decode_mem : decode cfgT [.opw 0x3000, .opnd 0x00000002, .opnd 0xAB012345, .opnd 0x00000002] =
      .ok (.mread 0 (some 2) 0xAB012345 2) [] ∧
    decode cfgT [.opw 0x3100, .opnd 0xAB012345, .opnd 0x00000001, .opnd 0x00000002] =
      .ok (.mwrite 0 0xAB012345 (some 1) 2) [] := by decide

theorem test_decode_str : decode cfgT [.opw 0x4000, .opnd 0x00000008] = .ok (.sput 0 8) [] ∧
    decode cfgT [.opw 0x4101] = .ok (.savail 1) [] ∧ decode cfgT [.opw 0x4200] = .ok (.speek 0) [] ∧
    decode cfgT [.opw 0x4301] = .ok (.sget 1) [] ∧ decode cfgT [.opw 0x4400] = .ok (.sflush 0) [] := by decide

theorem test_decode_wire : decode cfgT [.frame 2 0x03000010] = .ok (.read 2 0x000010) [] ∧
    decode cfgT [.frame 2 0x02FFFFFF] = .ok (.write 2 0xFFFFFF) [] ∧
    decode cfgT [.frame 2 0x05000001] = .ok (.rdmr 2 0x000001) [] ∧
    decode cfgT [.frame 2 0x01800000] = .ok (.wrmr 2 0x800000) [] := by decide

/-- The table's numbering: the operation word in bits 15..0, operand words of zeros. -/
theorem test_table_words : decodeTableWord 16 0x1000 = some (.bacq 0 .mode0 .lsb 0) ∧
    decodeTableWord 16 0x2302 = some (.dxblk 2 none none 0) ∧ decodeTableWord 16 0x4401 = some (.sflush 1) ∧
    decodeTableWord 32 0x05000007 = some (.rdmr 0 7) ∧ decodeTableWord 16 0x5000 = none := by decide

/-- P9; a record without its operand words. -/
theorem test_decode_refuses : decode cfgT [.opw 0x5000] = .refused .reservedOp ∧
    decode cfgT [.opw 0x1002, .opnd 0, .opnd 0] = .refused .unitRange ∧
    decode cfgT [.opw 0x1000, .opnd 8, .opnd 0] = .refused .reservedBits ∧
    decode cfgT [.opw 0x1200, .opnd 0x100] = .refused .reservedBits ∧
    decode cfgT [.opw 0x1200] = .refused .malformed ∧ decode cfgT [.opnd 0] = .refused .malformed := by decide

/-- R97: an opcode byte that no row of R96 has is sent like any other. -/
theorem test_decode_unnamed_opcode : decode cfgT [.frame 0 0x04010203, .opw 0x2100] =
    .ok (.dxfer 0 0x04) [.opw 0x2200, .opnd 1, .opw 0x2200, .opnd 2, .opw 0x2200, .opnd 3, .opw 0x2100] := by decide

/-- R111: an ill-formed configuration is refused before reset. -/
theorem test_boot_refuses_config :
    (match boot { cfgT with ncaller := 0 } [] with
      | .refused .illFormedConfig => true
      | _ => false) = true := by decide

/-- R248 on P9: the second record of the second caller is refused, and nothing runs. -/
theorem test_boot_refuses_program :
    (match boot cfgT [[.opw 0x1101], [.opw 0x1100, .opw 0x1002, .opnd 0, .opnd 0]] with
      | .refused .unitOutOfRange => true
      | _ => false) = true := by decide

/-! ### Reset and arithmetic -/

/-- The nine events of section 0. -/
theorem test_reset_trace : State.reset.trace = [.dir 0 .out, .dir 1 .out, .dir 2 .inp, .dir 3 .out, .cs 0 true,
    .dir 4 .out, .cs 1 true, .dir 5 .out, .cs 2 true] := by decide

/-- H1, with the non-power-of-two set and the exact comparison of C4. -/
theorem test_divisors : ([20000000, 8000000, 4000001, 4000000, 3999999, 250000, 125000, 124999, 0].map
      (selectDivisor 16000000 [2, 4, 8, 16, 32, 64, 128]) = [2, 2, 4, 4, 8, 64, 128, 128, 128]) ∧
    ([6000000, 5000000, 4000000, 3999999, 1500000, 1000000].map (selectDivisor 12000000 [2, 3, 4, 8]) =
      [2, 3, 3, 4, 8, 8]) ∧
    selectDivisor 16000000 [2, 3, 4] 5333333 = 4 := by decide

/-- M1. -/
theorem test_headers : header 0x03 0xFFFFFFFF = [0x03, 0xFF, 0xFF, 0xFF] ∧
    header 0x02 0x01000000 = [0x02, 0x00, 0x00, 0x00] ∧ header 0x03 0x00000010 = [0x03, 0x00, 0x00, 0x10] := by decide

/-- T7: a stream at the top of the 32-bit and of the 24-bit range. -/
theorem test_stream_addresses :
    (List.range 4).map (streamAddr { cfgT with strs := [⟨0, 0xFFFFFFFE, 4⟩] } 0) =
      [0xFFFFFFFE, 0xFFFFFFFF, 0x00000000, 0x00000001] ∧
    header 0x02 (streamAddr { cfgT with strs := [⟨0, 0x00FFFFFF, 2⟩] } 0 1) = [0x02, 0x00, 0x00, 0x00] := by decide

/-- B5: the samples 1,1,0,0,0,0,1,0 in both orders. -/
theorem test_reassembly : [true, true, false, false, false, false, true, false].foldl (shiftInReg .msb) 0 = 0xC2 ∧
    [true, true, false, false, false, false, true, false].foldl (shiftInReg .lsb) 0 = 0x43 := by decide

/-! ### States the tests start from -/

/-- Reset, both input lines wired to the output lines (R76), two caller buffers. -/
def looped : State :=
  { State.reset with lines := [.loop, .loop], bufs := [(1, [0xAA, 0x55, 0x11]), (2, [1, 2, 3])] }

/-- Reset with `REFMEM(17)` behind `m0` (R77, R80) and the buffers of P1. -/
def chips : State :=
  { State.reset with
    lines := [.slaves, .slaves]
    slaves := [Slave.refMem cfgT 0]
    bufs := [(1, [0xDE, 0xAD]), (2, [0, 0])] }

/-- Caller 0 has opened bus `b` in a mode and an order. -/
def opened (b : Nat) (mode : Mode) (order : Order) (s : State) : State :=
  ((s.setBus b ⟨true, some 0, mode, order, 1⟩).setLvl 0 mode.cpol)

/-- Caller 0 has a transaction open on handle `h`. -/
def selectedBy (h : Nat) (s : State) : State :=
  (opened (s.cfg.busOf h) (s.cfg.dev h).mode (s.cfg.dev h).order s).toggleCs h

/-- A chip on handle `h` that sends the byte 0xC5 (B6). -/
def scripted (h : Nat) : Slave := Slave.attached cfgT h (.script [0xC5] [])

/-- The cell at an address of the first chip. -/
def cell (s : State) (a : Nat) : Option Byte := s.chipByte 0 a

/-! ### Bus family -/

/-- B1. -/
theorem test_bacq : nextWith (exec (.bacq 0 .mode3 .msb 1000000) State.reset) (fun t =>
    decide ((t.bus 0).owner = some 0 ∧ (t.bus 0).held = true ∧ (t.bus 0).mode = .mode3 ∧ (t.bus 0).order = .msb ∧
      t.trace.drop 9 = [.sck 0 true] ∧ t.lvl 0 = true)) = true := by decide +kernel

/-- H2. -/
theorem test_bacq_hw : nextWith (exec (.bacq 1 .mode0 .msb 3000000) State.reset) (fun t =>
    decide (t.bus 1 = ⟨true, some 0, .mode0, .msb, 8⟩ ∧ t.trace.drop 9 = [])) = true := by decide +kernel

/-- B1. -/
theorem test_brel : nextWith (exec (.brel 0) (opened 0 .mode3 .msb State.reset)) (fun t =>
    decide (t.bus 0 = ⟨false, none, .mode3, .msb, 1⟩ ∧ t.trace.drop 9 = [] ∧ t.lvl 0 = true)) = true := by
  decide +kernel

/-- B8. -/
theorem test_brel_free : nextWith (exec (.brel 0) State.reset) (fun t =>
    decide (t.faults = [⟨.relNotHolder, 0, .brel 0⟩] ∧ t.trace.drop 9 = [])) = true := by decide +kernel

/-- P4, the whole trace of the byte. -/
theorem test_bxfer : nextWith (exec (.bxfer 0 0xB1) (opened 0 .mode3 .lsb looped)) (fun t =>
    decide ((t.caller 0).result = .byte 0xB1 ∧ t.lvl 1 = true ∧ t.lvl 0 = true ∧
      t.trace.drop 9 = [true, false, false, false, true, true, false, true].flatMap
        (fun x => [.sck 0 false, .mosi 0 x, .sck 0 true, .smp 0 x]))) = true := by decide +kernel

/-- H3, with the pending byte 0xC5. -/
theorem test_bxfer_hw : nextWith (exec (.bxfer 1 0x3C) (selectedBy 2 { State.reset with
      lines := [.slaves, .slaves]
      slaves := [scripted 2] })) (fun t =>
    decide ((t.caller 0).result = .byte 0xC5 ∧ t.trace.drop 10 = [.xch 1 0x3C 0xC5] ∧
      t.slaves.map Slave.chip = [.script [] [0x3C]])) = true := by decide +kernel

/-- B7, in place and with `FILL`. -/
theorem test_bxblk : nextWith (exec (.bxblk 0 (some 1) (some 1) 2) (opened 0 .mode0 .msb looped)) (fun t =>
    decide (t.buf 1 = [0xAA, 0x55, 0x11] ∧ (t.trace.drop 9).length = 64)) = true := by decide +kernel

theorem test_bxblk_fill : nextWith (exec (.bxblk 0 (some 2) none 2) (opened 0 .mode0 .msb looped)) (fun t =>
    decide (t.buf 2 = [0x00, 0x00, 3] ∧ (t.trace.drop 9).length = 64)) = true := by decide +kernel

/-! ### Device family -/

/-- D2. -/
theorem test_dacq : nextWith (exec (.dacq 1) State.reset) (fun t =>
    decide (t.trace.drop 9 = [.sck 0 true, .cs 1 false] ∧ (t.bus 0).mode = .mode3 ∧ (t.bus 0).order = .lsb ∧
      t.cs 1 = false ∧ t.cs 0 = true)) = true := by decide +kernel

/-- D4: the holder of `b0` acquires a handle of the same bus and waits for itself. -/
theorem test_dacq_stuck : nextWith (exec (.dacq 1) (selectedBy 0 State.reset)) (fun t =>
    decide ((t.caller 0).status = .waiting 0 (.dacq 1) 0 ∧ t.faults = [] ∧ (t.bus 0).held = true)) = true := by
  decide +kernel

/-- D1. -/
theorem test_drel : nextWith (exec (.drel 0) (selectedBy 0 State.reset)) (fun t =>
    decide (t.cs 0 = true ∧ (t.bus 0).held = false ∧ t.trace.drop 10 = [.cs 0 true])) = true := by decide +kernel

/-- D4. -/
theorem test_drel_other : nextWith (exec (.drel 1) (selectedBy 0 State.reset)) (fun t =>
    decide (t.faults = [⟨.selectMismatch, 0, .drel 1⟩] ∧ t.cs 0 = false)) = true := by decide +kernel

/-- B6 in mode 0: `b_k` out, `t_k` in. -/
theorem test_dxfer : nextWith (exec (.dxfer 0 0x3C) (selectedBy 0 { State.reset with
      lines := [.slaves, .slaves]
      slaves := [scripted 0] })) (fun t =>
    decide ((t.caller 0).result = .byte 0xC5 ∧ t.slaves.map Slave.chip = [.script [] [0x3C]] ∧
      t.trace.drop 10 = [(false, true), (false, true), (true, false), (true, false), (true, false), (true, true),
        (false, false), (false, true)].flatMap
          (fun x => [.mosi 0 x.1, .sck 0 true, .smp 0 x.2, .sck 0 false]))) = true := by decide +kernel

/-- D4. -/
theorem test_dxfer_unselected : nextWith (exec (.dxfer 1 0x00) (selectedBy 0 State.reset)) (fun t =>
    decide (t.faults = [⟨.selectMismatch, 0, .dxfer 1 0x00⟩] ∧ t.trace.drop 10 = [])) = true := by decide +kernel

/-- P6. -/
theorem test_dxblk : nextWith (exec (.dxblk 2 (some 2) (some 1) 3) (selectedBy 2 looped)) (fun t =>
    decide (t.buf 2 = [0xAA, 0x55, 0x11] ∧
      t.trace.drop 10 = [.xch 1 0xAA 0xAA, .xch 1 0x55 0x55, .xch 1 0x11 0x11])) = true := by decide +kernel

/-- D3: both buffers absent. -/
theorem test_dxblk_absent : nextWith (exec (.dxblk 0 none none 5) (selectedBy 0 looped)) (fun t =>
    decide (t.trace.drop 10 = [] ∧ t.faults = [] ∧ t.bufs = looped.bufs)) = true := by decide +kernel

/-! ### Memory family -/

/-- The chip of `chips` with the bytes of M2 in it. -/
def written : State :=
  { chips with slaves := [Slave.attached cfgT 0 (.mem ⟨17, .idle, 0, 0, [(0x10, 0xDE), (0x11, 0xAD)]⟩)] }

/-- P1 line 2: two bytes, 195 events, the bus free afterwards. -/
theorem test_mread : nextWith (exec (.mread 0 (some 2) 0x10 2) written) (fun t =>
    decide (t.buf 2 = [0xDE, 0xAD] ∧ (t.trace.drop 9).length = 195 ∧ (t.bus 0).held = false ∧ t.cs 0 = true)) =
      true := by decide +kernel

/-- M6: a zero count while the other caller holds the bus. -/
theorem test_mread_zero : nextWith (exec (.mread 0 (some 2) 0x10 0) { opened 0 .mode0 .msb chips with cur := 1 })
    (fun t => decide ((t.caller 1).status = .idle ∧ t.trace.drop 9 = [])) = true := by decide +kernel

/-- M4 and P1: `A[23:17]` is sent and ignored by the chip, the cells are those of 0x000010. -/
theorem test_mwrite : nextWith (exec (.mwrite 0 0x020010 (some 1) 2) chips) (fun t =>
    decide (cell t 0x10 = some 0xDE ∧ cell t 0x11 = some 0xAD ∧ cell t 0x12 = none ∧ (t.bus 0).owner = none)) =
      true := by decide +kernel

/-- M5: the wrap at the top of the chip. -/
theorem test_mwrite_wraps : nextWith (exec (.mwrite 0 0x01FFFF (some 1) 2) chips) (fun t =>
    decide (cell t 0x1FFFF = some 0xDE ∧ cell t 0 = some 0xAD)) = true := by decide +kernel

/-! ### Stream family -/

/-- Stream 0 holds three bytes (T5) on the chip. -/
def threeBytes : State :=
  { chips with
    strs := [⟨5, 2, 3⟩, ⟨0, 0, 0⟩]
    slaves := [Slave.attached cfgT 0 (.mem ⟨17, .idle, 0, 0, [(0x102, 7), (0x103, 8), (0x104, 9)]⟩)] }

/-- T2. -/
theorem test_sput : nextWith (exec (.sput 0 0x42) chips) (fun t =>
    decide ((t.caller 0).result = .accepted ∧ t.str 0 = ⟨1, 0, 1⟩ ∧ cell t 0x100 = some 0x42 ∧
      (t.trace.drop 9).length = 163)) = true := by decide +kernel

/-- P3 line 9: a full stream. -/
theorem test_sput_full : nextWith (exec (.sput 0 9) { chips with strs := [⟨0, 0, 8⟩, ⟨0, 0, 0⟩] }) (fun t =>
    decide ((t.caller 0).result = .rejected ∧ t.str 0 = ⟨0, 0, 8⟩ ∧ t.trace.drop 9 = [])) = true := by decide +kernel

/-- T1, T5. -/
theorem test_savail : nextWith (exec (.savail 0) threeBytes) (fun t =>
    decide ((t.caller 0).result = .count 3 ∧ t.trace.drop 9 = [])) = true := by decide +kernel

/-- T4: the byte at the get index, nothing consumed. -/
theorem test_speek : nextWith (exec (.speek 0) threeBytes) (fun t =>
    decide ((t.caller 0).result = .byte 7 ∧ t.str 0 = ⟨5, 2, 3⟩)) = true := by decide +kernel

/-- T1. -/
theorem test_speek_empty : nextWith (exec (.speek 1) threeBytes) (fun t =>
    decide ((t.caller 0).result = .empty ∧ (t.caller 0).result.code t.cfg = some (-1) ∧ t.trace.drop 9 = [])) =
      true := by decide +kernel

/-- T2. -/
theorem test_sget : nextWith (exec (.sget 0) threeBytes) (fun t =>
    decide ((t.caller 0).result = .byte 7 ∧ t.str 0 = ⟨5, 3, 2⟩)) = true := by decide +kernel

/-- P5 line 14: the get index wraps on a stream of four. -/
theorem test_sget_wraps : nextWith (exec (.sget 1) { threeBytes with strs := [⟨0, 0, 0⟩, ⟨0, 3, 1⟩] }) (fun t =>
    decide (t.str 1 = ⟨0, 0, 0⟩)) = true := by decide +kernel

/-- T5. -/
theorem test_sflush : nextWith (exec (.sflush 0) threeBytes) (fun t =>
    decide (t.str 0 = ⟨0, 0, 0⟩ ∧ t.trace.drop 9 = [] ∧ cell t 0x102 = some 7)) = true := by decide +kernel

/-! ### Wire words, the four bytes of the header of R94 on a looped `hw` bus -/

theorem test_read : nextWith (exec (.read 2 0x012345) (selectedBy 2 looped)) (fun t =>
    decide (t.trace.drop 10 = [.xch 1 0x03 0x03, .xch 1 0x01 0x01, .xch 1 0x23 0x23, .xch 1 0x45 0x45])) = true := by
  decide +kernel

theorem test_write : nextWith (exec (.write 2 0x012345) (selectedBy 2 looped)) (fun t =>
    decide (t.trace.drop 10 = [.xch 1 0x02 0x02, .xch 1 0x01 0x01, .xch 1 0x23 0x23, .xch 1 0x45 0x45])) = true := by
  decide +kernel

theorem test_rdmr : nextWith (exec (.rdmr 2 0xFFFFFF) (selectedBy 2 looped)) (fun t =>
    decide (t.trace.drop 10 = [.xch 1 0x05 0x05, .xch 1 0xFF 0xFF, .xch 1 0xFF 0xFF, .xch 1 0xFF 0xFF])) = true := by
  decide +kernel

theorem test_wrmr : nextWith (exec (.wrmr 2 0x000080) (selectedBy 2 looped)) (fun t =>
    decide (t.trace.drop 10 = [.xch 1 0x01 0x01, .xch 1 0x00 0x00, .xch 1 0x00 0x00, .xch 1 0x80 0x80])) = true := by
  decide +kernel

/-- The step fetches the word placed for it and runs it as the first operation after reset. -/
theorem test_step_first : nextWith (step (State.reset.withFetchWord 16 0x2001)) (fun t =>
    decide (t.trace.drop 9 = [.sck 0 true, .cs 1 false] ∧ (t.caller 0).port = [] ∧ t.sched = [])) = true := by
  decide +kernel

/-! ### Witnesses

Each theorem shows concrete states and operands that meet the hypotheses of the statement it is named after, one per
clause. -/

/-- The clauses of the invariant, in a form a computation can check. -/
theorem inv_of {s : State}
    (hb : s.cfg.wf = true ∧ s.shapeOk = true ∧ ∀ c, c < s.cfg.ncaller → s.waitOk c = true)
    (ho : (∀ b, b < s.cfg.buses.length → ((s.bus b).owner = none ↔ (s.bus b).held = false)) ∧
      (∀ h, h < s.cfg.devs.length → s.selected h = true → (s.bus (s.cfg.busOf h)).held = true) ∧
      ∀ h, h < s.cfg.devs.length → ∀ g, g < s.cfg.devs.length →
        s.cfg.busOf h = s.cfg.busOf g → s.selected h = true → s.selected g = true → h = g)
    (hp : (∀ b, b < s.cfg.buses.length → s.clockIdle b = true) ∧
      (∀ b, b < s.cfg.buses.length → s.busDirs b = true) ∧
      ∀ h, h < s.cfg.devs.length → (s.pin (s.cfg.dev h).csPin).dir = .out)
    (hc : (s.pins.map Prod.fst).Pairwise (· < ·) ∧ (s.bufs.map Prod.fst).Pairwise (· < ·) ∧
      (∀ x ∈ s.slaves, x.memOk = true) ∧ s.path = .idle) : Inv s :=
  ⟨⟨hb.1, hb.2.1, hb.2.2⟩, ⟨ho.1, ho.2.1, ho.2.2⟩, ⟨hp.1, hp.2.1, hp.2.2⟩, ⟨hc.1, hc.2.1, hc.2.2.1, hc.2.2.2⟩⟩

/-- A next state there is. -/
theorem next_of {o : Host.Outcome State Fault Refusal} (h : nextWith o (fun _ => true) = true) : ∃ t, o = .next t :=
  let ⟨t, ht, _⟩ := exists_of_nextWith h
  ⟨t, ht⟩

/-- The caller `c` is next in the schedule, with `ws` in its port. -/
def issuing (c : Nat) (ws : List PortWord) (s : State) : State :=
  { s.setCaller c ⟨.idle, ws, .none⟩ with sched := [c] }

/-- The caller `c` is next in the schedule, and waits for bus `b` inside `op`. -/
def waitingFor (c b : Nat) (op : Instr) (a : Word32) (s : State) : State :=
  { s.setCaller c ⟨.waiting b op a, [], .none⟩ with sched := [c] }

/-- Caller 0 has a transaction open on `m0`; caller 1 is about to acquire the handle of the other bus. -/
def busy : State := issuing 1 [.opw 0x2002] (selectedBy 0 chips)

/-- Caller 0 holds `b0` and waits for it inside a memory read. -/
def stuck : State := waitingFor 0 0 (.mread 0 (some 2) 0x10 1) 0x10 (opened 0 .mode3 .lsb chips)

/-- `stuck`, with caller 1 next. -/
def stuckBeside : State := { stuck with sched := [1, 0], callers := [stuck.caller 0, ⟨.idle, [.opw 0x2002], .none⟩] }

theorem witness_inv_reset : Inv State.reset :=
  inv_of (by decide +kernel) (by decide +kernel) (by decide +kernel) (by decide +kernel)

theorem witness_inv_busy : Inv busy :=
  inv_of (by decide +kernel) (by decide +kernel) (by decide +kernel) (by decide +kernel)

theorem witness_inv_stuck : Inv stuck :=
  inv_of (by decide +kernel) (by decide +kernel) (by decide +kernel) (by decide +kernel)

theorem witness_inv_stuckBeside : Inv stuckBeside :=
  inv_of (by decide +kernel) (by decide +kernel) (by decide +kernel) (by decide +kernel)

theorem witness_DecodeOfEncode : (Instr.bxblk 1 (some 0xFFFFFFFF) none 0xFFFFFFFF).wf cfgT = true ∧
    (Instr.wrmr 2 0xFFFFFF).wf cfgT = true := by decide

/-- Full operands, and a header word sent by hand. -/
theorem witness_EncodeOfDecode :
    decode cfgT [.opw 0x1301, .opnd 0xFFFFFFFF, .opnd 0, .opnd 0xFFFFFFFF, .opw 0x1101] =
      .ok (.bxblk 1 (some 0xFFFFFFFF) none 0xFFFFFFFF) [.opw 0x1101] ∧
    decode cfgT [.frame 2 0xFF000000] =
      .ok (.dxfer 2 0xFF) [.opw 0x2202, .opnd 0, .opw 0x2202, .opnd 0, .opw 0x2202, .opnd 0] := by decide

theorem witness_ReservedEncodingsRefused :
    opOf 0x4500 ∉ [0x10, 0x11, 0x12, 0x13, 0x20, 0x21, 0x22, 0x23, 0x30, 0x31, 0x40, 0x41, 0x42, 0x43, 0x44] ∧
    (0x00000008 : Word32).extractLsb' 3 29 ≠ 0 ∧ (0x80000000 : Word32).extractLsb' 3 29 ≠ 0 ∧
    (0x00000100 : Word32).extractLsb' 8 24 ≠ 0 ∧ (0x40#8 ∈ [0x12#8, 0x22#8, 0x40#8]) ∧
    cfgT.buses.length ≤ (2#8).toNat ∧ cfgT.devs.length ≤ (3#8).toNat ∧ cfgT.mems.length ≤ (1#8).toNat ∧
    cfgT.strs.length ≤ (2#8).toNat ∧ cfgT.devs.length ≤ 3 := by decide

/-- A one-word record for the first unit that is not there, at the end of a port and before another record. -/
theorem test_decode_unit_of_one_word :
    [0x1102, 0x2003, 0x2103, 0x4102, 0x4202, 0x4302, 0x4402].map (fun w => decode cfgT [.opw w]) =
      List.replicate 7 (.refused .unitRange) ∧
    decode cfgT [.opw 0x1102, .opw 0x1100] = .refused .unitRange := by decide

/-- A record to which two clauses could speak: reserved bits and a unit out of range. The reason named is log 29. -/
theorem test_decode_two_reasons : decode cfgT [.opw 0x1002, .opnd 8, .opnd 0] = .refused .reservedBits ∧
    decode cfgT [.opw 0x1202, .opnd 0x100] = .refused .reservedBits := by decide

/-- A record refused at once, for each reason of the decoder with the boundary values of P9, is a refused program. -/
theorem refusedIn_here : ∀ x ∈ [
      ([PortWord.opw 0x5000], DecodeError.reservedOp),
      ([.opw 0x1000, .opnd 8, .opnd 0], .reservedBits),
      ([.opw 0x1002, .opnd 0, .opnd 0], .unitRange),
      ([.opw 0x1200], .malformed)],
    RefusedIn cfgT x.1 x.2 := by
  intro x hx
  exact .here ((by decide : ∀ x ∈ [
      ([PortWord.opw 0x5000], DecodeError.reservedOp),
      ([.opw 0x1000, .opnd 8, .opnd 0], .reservedBits),
      ([.opw 0x1002, .opnd 0, .opnd 0], .unitRange),
      ([.opw 0x1200], .malformed)], decode cfgT x.1 = .refused x.2) x hx)

/-- The second record of a program whose first one is right. -/
def lateWords : List PortWord := [.opw 0x1100, .opw 0x1002, .opnd 0, .opnd 0]

/-- They stand in the port of caller 1; caller 0 is next. -/
def lateRefused : State := { issuing 1 lateWords State.reset with sched := [0] }

theorem refusedIn_late : RefusedIn cfgT lateWords .unitRange :=
  .later (i := .brel 0) (rest := [.opw 0x1002, .opnd 0, .opnd 0]) (by decide) (.here (by decide))

/-- Nothing is refused in a port without words, nor in one whose last record is right. -/
theorem notRefused_nil (e : DecodeError) : ¬ RefusedIn cfgT [] e := by
  intro h
  cases h with
  | here h => exact absurd h (by cases e <;> decide)
  | later h _ => exact absurd h (by simp [decode])

theorem notRefused_brel (e : DecodeError) : ¬ RefusedIn cfgT [.opw 0x1100] e := by
  have hd : decode cfgT [.opw 0x1100] = .ok (.brel 0) [] := by decide
  intro h
  cases h with
  | here h => rw [hd] at h; cases h
  | later h k => rw [hd] at h; cases h; exact notRefused_nil e k

/-- Only the words of the one port that holds any are refused, and for one reason. -/
theorem refusedIn_unique {e : DecodeError} (h : RefusedIn cfgT lateWords e) : e = .unitRange := by
  have h1 : decode cfgT lateWords = .ok (.brel 0) [.opw 0x1002, .opnd 0, .opnd 0] := by decide
  have h2 : decode cfgT [.opw 0x1002, .opnd 0, .opnd 0] = .refused .unitRange := by decide
  cases h with
  | here h => rw [h1] at h; cases h
  | later h k =>
    rw [h1] at h
    cases h
    cases k with
    | here h => rw [h2] at h; cases h; rfl
    | later h _ => rw [h2] at h; cases h

/-- Two ports with refused records of different reasons. -/
def twoReasons : State := issuing 0 [.opw 0x5000] lateRefused

/-- R248: nothing runs then either; which of the two reasons is named is log 29. -/
theorem test_two_reasons_refused : (match step twoReasons with
      | .refused .reservedEncoding => true
      | .refused .unitOutOfRange => true
      | _ => false) = true := by decide +kernel

/-- A refused record behind an accepted one, in the port of the caller that is not next; accepted programs; ill-formed
configurations; a unit that is just out of range for each kind. -/
theorem witness_RefusalsStop :
    (lateRefused.cfg.wf = true ∧ lateRefused.shapeOk = true ∧ 1 < lateRefused.cfg.ncaller ∧
      RefusedIn lateRefused.cfg (lateRefused.caller 1).port .unitRange ∧ ∀ c' e', c' < lateRefused.cfg.ncaller →
        RefusedIn lateRefused.cfg (lateRefused.caller c').port e' → e' = .unitRange) ∧
    (Inv (issuing 0 [.opw 0x1100] State.reset) ∧ ∀ c e, c < (issuing 0 [.opw 0x1100] State.reset).cfg.ncaller →
      ¬ RefusedIn (issuing 0 [.opw 0x1100] State.reset).cfg ((issuing 0 [.opw 0x1100] State.reset).caller c).port e) ∧
    ({ cfgT with ncaller := 0 } : Config).wf = false ∧
    (1 < cfgT.ncaller ∧ RefusedIn cfgT ([[], lateWords].getD 1 []) .unitRange ∧
      ∀ c' e', c' < cfgT.ncaller → RefusedIn cfgT ([[], lateWords].getD c' []) e' → e' = .unitRange) ∧
    (∀ c e, c < cfgT.ncaller → ¬ RefusedIn cfgT ([[.opw 0x1100]].getD c []) e) ∧
    ∀ i ∈ [Instr.bxfer 2 0, .dacq 3, .mread 1 none 0 0, .sget 2, .rdmr 3 0], unitBelow State.reset.cfg i = false := by
  have two : ∀ c, c < cfgT.ncaller → c = 0 ∨ c = 1 := by decide
  refine ⟨⟨by decide +kernel, by decide +kernel, by decide, refusedIn_late, fun c' e' hc h => ?_⟩,
    ⟨inv_of (by decide +kernel) (by decide +kernel) (by decide +kernel) (by decide +kernel), fun c e hc => ?_⟩, by decide,
    ⟨by decide, refusedIn_late, fun c' e' hc h => ?_⟩, fun c e hc => ?_, by decide⟩
  · rcases two c' hc with rfl | rfl
    · exact absurd h (notRefused_nil e')
    · exact refusedIn_unique h
  · rcases two c hc with rfl | rfl
    · exact notRefused_brel e
    · exact notRefused_nil e
  · rcases two c' hc with rfl | rfl
    · exact absurd h (notRefused_nil e')
    · exact refusedIn_unique h
  · rcases two c hc with rfl | rfl
    · exact notRefused_brel e
    · exact notRefused_nil e

theorem scheduled_of {s : State} {c : Nat} {rest : List Nat}
    (h : s.cfg.wf = true ∧ s.shapeOk = true ∧ s.sched = c :: rest ∧ c < s.cfg.ncaller ∧ s.programError = none) :
    Scheduled s c rest :=
  ⟨h.1, h.2.1, h.2.2.1, h.2.2.2.1, h.2.2.2.2⟩

theorem notWaiting_of {s : State} {c : Nat} (h : (s.caller c).status = .idle) : NotWaiting s c := by
  intro b op a h'
  rw [h] at h'
  exact absurd h' (by simp)

theorem witness_StepRunsDecoded : Scheduled busy 1 [] ∧ NotWaiting busy 1 ∧
    decode busy.cfg (busy.caller 1).port = .ok (.dacq 2) [] :=
  ⟨scheduled_of (by decide +kernel), notWaiting_of (by decide +kernel), by decide +kernel⟩

theorem witness_HoldStepChangesNothing :
    (Scheduled stuck 0 [] ∧ (stuck.caller 0).status = .waiting 0 (.mread 0 (some 2) 0x10 1) 0x10 ∧
      (stuck.bus 0).held = true) ∧
    (Scheduled (issuing 1 [] State.reset) 1 [] ∧ NotWaiting (issuing 1 [] State.reset) 1 ∧
      ((issuing 1 [] State.reset).caller 1).port = []) ∧
    (State.reset.cfg.wf = true ∧ State.reset.shapeOk = true ∧ State.reset.programError = none ∧
      State.reset.sched = []) :=
  ⟨⟨scheduled_of (by decide +kernel), by decide +kernel, by decide +kernel⟩,
    ⟨scheduled_of (by decide +kernel), notWaiting_of (by decide +kernel), by decide +kernel⟩, by decide +kernel⟩

/-- A waiting operation of every kind that can wait, on a bus that has become free. -/
theorem witness_GrantAfterWaitIsImmediateGrant : ∀ x ∈ [
      (Instr.bacq 0 .mode2 .lsb 0, (0 : Word32)), (.dacq 1, 0), (.mread 0 (some 2) 0x10 2, 0x10),
      (.mwrite 0 0xFFFFFFFF (some 1) 1, 0xFFFFFFFF), (.sput 0 7, 0x105), (.speek 0, 0x102), (.sget 0, 0x102)],
    let s := waitingFor 1 0 x.1 x.2 threeBytes
    s.cfg.wf = true ∧ s.shapeOk = true ∧ s.sched = [1] ∧ 1 < s.cfg.ncaller ∧ s.programError = none ∧
      (s.caller 1).status = .waiting 0 x.1 x.2 ∧ x.1.wf s.cfg = true ∧ waitBus s.cfg x.1 = some 0 ∧
      (s.bus 0).held = false ∧ reachesWait s x.1 = true ∧ x.2 = operandAddr s x.1 := by decide +kernel

theorem devFree_of {s : State} {h : Nat} (w : s.cfg.wf = true ∧ h < s.cfg.devs.length ∧
    (s.bus (s.cfg.busOf h)).held = false ∧ s.cs h = (s.cfg.dev h).csIdle ∧ s.path = .idle) : DevFree s h :=
  ⟨w.1, w.2.1, w.2.2.1, w.2.2.2.1, w.2.2.2.2⟩

/-- T6: the address evaluated before the wait is not the one the indices give now; for a get also on a stream that
somebody has emptied meanwhile. -/
theorem witness_WaitedStreamOperationsKeepAddress : ∀ x ∈ [
      (Instr.sput 0 9, (0x107 : Word32), threeBytes), (.speek 0, 0x101, threeBytes), (.sget 0, 0x101, threeBytes),
      (.sget 0, 0x102, { threeBytes with strs := [⟨0, 0, 0⟩, ⟨0, 0, 0⟩] })],
    let s := waitingFor 1 0 x.1 x.2.1 x.2.2
    Scheduled s 1 [] ∧ (s.caller 1).status = .waiting 0 x.1 x.2.1 ∧ 0 < s.cfg.strs.length ∧
      0 = s.cfg.busOf (streamHandle s.cfg 0) ∧ DevFree s (streamHandle s.cfg 0) := by
  intro x hx
  simp only [List.mem_cons, List.not_mem_nil, or_false] at hx
  rcases hx with rfl | rfl | rfl | rfl <;> exact ⟨scheduled_of (by decide +kernel), by decide +kernel,
    by decide +kernel, by decide +kernel, devFree_of (by decide +kernel)⟩

/-- A second well-formed configuration: one bus of each backend the other way round, one divisor, a select that idles
at 0, a stream of size 0, headers sent for a zero count. -/
def cfgB : Config :=
  { cfgT with
    buses := [.hw 12000000 [3], .sw 7 9 8]
    devs := [⟨1, 3, .mode2, .lsb, 0, false⟩]
    mems := [⟨0, 24⟩]
    strs := [⟨0, 0xFFFFFFFF, 0⟩]
    ncaller := 1
    zcHeader := .send }

theorem witness_ResetLeaves : cfgT.wf = true ∧ cfgB.wf = true ∧ 1 < cfgB.buses.length ∧ 0 < cfgB.devs.length ∧
    0 < cfgB.strs.length ∧ 0 < cfgB.ncaller := by decide

theorem witness_ResetHasInvariant : cfgT.wf = true ∧ cfgB.wf = true := by decide

theorem witness_StepKeepsInvariant : Inv busy ∧ ∃ t, step busy = .next t :=
  ⟨witness_inv_busy, next_of (by decide +kernel)⟩

theorem witness_StepAppendsOnly : Inv stuckBeside ∧ ∃ t, step stuckBeside = .next t :=
  ⟨witness_inv_stuckBeside, next_of (by decide +kernel)⟩

theorem witness_StepKeepsDirections : Inv busy ∧ ∃ t, step busy = .next t ∧ (t.trace.length > busy.trace.length) :=
  ⟨witness_inv_busy, by
    obtain ⟨t, h, h'⟩ := exists_of_nextWith (o := step busy)
      (p := fun t => decide (t.trace.length > busy.trace.length)) (by decide +kernel)
    exact ⟨t, h, of_decide_eq_true h'⟩⟩

theorem witness_MutualExclusion : Inv busy ∧ (busy.bus 0).owner = some 0 ∧ ∃ t, step busy = .next t ∧ t.cur ≠ 0 :=
  ⟨witness_inv_busy, by decide +kernel, by
    obtain ⟨t, h, h'⟩ := exists_of_nextWith (o := step busy) (p := fun t => decide (t.cur ≠ 0)) (by decide +kernel)
    exact ⟨t, h, of_decide_eq_true h'⟩⟩

/-- The holder's release, and the taking of a free bus. -/
theorem witness_OnlyTheHolderReleases :
    (Inv (issuing 0 [.opw 0x2100] (selectedBy 0 chips)) ∧
      ((issuing 0 [.opw 0x2100] (selectedBy 0 chips)).bus 0).owner = some 0 ∧
      ∃ t, step (issuing 0 [.opw 0x2100] (selectedBy 0 chips)) = .next t ∧ (t.bus 0).owner = none) ∧
    (Inv busy ∧ (busy.bus 1).owner = none ∧ ∃ t, step busy = .next t ∧ (t.bus 1).owner = some t.cur) :=
  ⟨⟨inv_of (by decide +kernel) (by decide +kernel) (by decide +kernel) (by decide +kernel), by decide +kernel, by
    obtain ⟨t, h, h'⟩ := exists_of_nextWith (o := step (issuing 0 [.opw 0x2100] (selectedBy 0 chips)))
      (p := fun t => decide ((t.bus 0).owner = none)) (by decide +kernel)
    exact ⟨t, h, of_decide_eq_true h'⟩⟩,
  ⟨witness_inv_busy, by decide +kernel, by
    obtain ⟨t, h, h'⟩ := exists_of_nextWith (o := step busy)
      (p := fun t => decide ((t.bus 1).owner = some t.cur)) (by decide +kernel)
    exact ⟨t, h, of_decide_eq_true h'⟩⟩⟩

/-- A step of the blocked caller itself and a step of another. -/
theorem witness_ReentrantAcquireNeverEnds :
    (Inv stuck ∧ 0 < stuck.cfg.ncaller ∧ stuck.selfBlocked 0 0 ∧ ∃ t, step stuck = .next t) ∧
    (Inv stuckBeside ∧ 0 < stuckBeside.cfg.ncaller ∧ stuckBeside.selfBlocked 0 0 ∧
      ∃ t, step stuckBeside = .next t) :=
  ⟨⟨witness_inv_stuck, by decide, by unfold State.selfBlocked; decide +kernel, next_of (by decide +kernel)⟩,
    ⟨witness_inv_stuckBeside, by decide, by unfold State.selfBlocked; decide +kernel, next_of (by decide +kernel)⟩⟩

/-- Caller 0 waits for the free bus `b1`. -/
def waitsFree : State := waitingFor 0 1 (.bacq 1 .mode0 .msb 1000000) 0 State.reset

/-- The same after its grant. -/
def granted : State := (State.openBus (waitsFree.turn 0 []) 1 .mode0 .msb 1000000).finish .none

/-- A run in which caller 0 gets the bus at its first turn and then has nothing to do. -/
def grantRun : Nat → State
  | 0 => waitsFree
  | _ + 1 => granted

theorem witness_EventuallyOneGrant : Inv (grantRun 0) ∧ Run grantRun (fun _ => 0) (fun _ _ => []) ∧
    WeaklyFair grantRun (fun _ => 0) ∧
    0 < (grantRun 0).cfg.ncaller ∧ (grantRun 0).waitsOn 0 1 = true ∧ ((grantRun 0).bus 1).held = false := by
  have key : ∀ o : Host.Outcome State Fault Refusal, nextWith o (fun t => decide (t = granted)) = true →
      o = .next granted := by
    intro o h
    obtain ⟨t, h1, h2⟩ := exists_of_nextWith h
    rw [h1, of_decide_eq_true h2]
  have h0 : step { waitsFree with sched := [0] } = .next granted := key _ (by decide +kernel)
  have h1 : step { granted with sched := [0] } = .next granted := key _ (by decide +kernel)
  refine ⟨inv_of (by decide +kernel) (by decide +kernel) (by decide +kernel) (by decide +kernel), ?_, ?_,
    by decide, by decide +kernel, by decide +kernel⟩
  · intro n
    cases n with
    | zero => exact ⟨granted, h0, rfl⟩
    | succ n => exact ⟨granted, h1, rfl⟩
  · intro n c hc he
    have hcfg : (grantRun n).cfg.ncaller = 2 := by cases n <;> rfl
    have h1 : granted.enabled 1 = false := by decide +kernel
    have : c = 0 ∨ c = 1 := by omega
    rcases this with rfl | rfl
    · exact ⟨n, le_refl n, rfl⟩
    · have := he (n + 1) (by omega)
      rw [show grantRun (n + 1) = granted from rfl, h1] at this
      cases this

/-- Caller 0 waits for `b1`, and caller 1, which has used the bus before, is about to acquire it once more. -/
def starving : State :=
  { (waitsFree.setBus 1 ⟨false, none, .mode0, .msb, 16⟩).setCaller 1
      ⟨.idle, [.opw 0x1001, .opnd 0x00000004, .opnd 0x000F4240], .none⟩ with
    sched := []
    cur := 1 }

/-- Caller 1 has the bus and is about to release it. -/
def starvingHeld : State :=
  { (starving.setBus 1 ⟨true, some 1, .mode0, .msb, 16⟩).setCaller 1 ⟨.idle, [.opw 0x1101], .none⟩ with sched := [] }

/-- R258: caller 1 acquires, and its release arrives. -/
theorem test_starving_acquire : nextWith (step { starving with sched := [1] }) (fun t =>
    decide (t.arrive (fun c => if c = 1 then [.opw 0x1101] else []) = starvingHeld)) = true := by decide +kernel

/-- R258: caller 1 releases, its next acquisition arrives, and the state is the one before: caller 0 can starve. -/
theorem test_starving_release : nextWith (step { starvingHeld with sched := [1] }) (fun t =>
    decide (t.arrive (fun c => if c = 1 then [.opw 0x1001, .opnd 0x00000004, .opnd 0x000F4240] else []) = starving)) =
      true := by decide +kernel

/-- Every operation that can wait, the bus held by caller 0; the current caller is 0 itself, and then 1. -/
theorem witness_AcquireOfHeldBusWaits : ∀ cur ∈ [0, 1], ∀ i ∈ [
      Instr.bacq 0 .mode2 .lsb 0, .dacq 1, .mread 0 (some 2) 0x10 2, .mwrite 0 0x10 (some 1) 1, .sput 0 7, .speek 0,
      .sget 0],
    let s := { opened 0 .mode0 .msb threeBytes with cur := cur }
    i.unitInRange s.cfg = true ∧ reachesWait s i = true ∧ waitBus s.cfg i = some 0 ∧ (s.bus 0).held = true ∧
      (s.bus 0).owner = some 0 := by decide +kernel

/-- The bus is free, yet the select of `m0` is not idle. -/
def strayed : State := threeBytes.toggleCs 0

/-- Each way to break a precondition: the bus is free, or held without a select, or held with `m0` selected. -/
theorem witness_MisuseRecordsFault :
    (Misuse chips (.bxfer 0 0) .xferNotHolder ∧ Misuse chips (.bxblk 1 none none 0) .xferNotHolder ∧
      Misuse chips (.dxfer 2 0) .xferNotHolder ∧ Misuse chips (.dxblk 0 none none 0) .xferNotHolder ∧
      Misuse chips (.brel 1) .relNotHolder ∧ Misuse chips (.drel 2) .relNotHolder) ∧
    (Misuse (selectedBy 0 chips) (.brel 0) .selectMismatch ∧
      Misuse (selectedBy 0 chips) (.dxfer 1 0) .selectMismatch ∧
      Misuse (selectedBy 0 chips) (.dxblk 1 none none 0) .selectMismatch ∧
      Misuse (selectedBy 0 chips) (.drel 1) .selectMismatch ∧
      Misuse (chips.toggleCs 0) (.dacq 0) .selectMismatch) ∧
    (Misuse (selectedBy 0 chips) (.bxblk 0 (some 2) none 3) .bufferShort ∧
      Misuse (selectedBy 0 chips) (.dxblk 0 none (some 1) 3) .bufferShort ∧
      Misuse chips (.mread 0 (some 2) 0 3) .bufferShort ∧ Misuse chips (.mwrite 0 0 (some 9) 1) .bufferShort) ∧
    (Misuse strayed (.mread 0 (some 2) 0 2) .selectMismatch ∧
      Misuse strayed (.mwrite 0 0 (some 1) 2) .selectMismatch ∧ Misuse strayed (.sput 0 7) .selectMismatch ∧
      Misuse strayed (.speek 0) .selectMismatch ∧ Misuse strayed (.sget 0) .selectMismatch) ∧
    (Misuse chips (.read 2 0) .xferNotHolder ∧ Misuse chips (.wrmr 0 0xFFFFFF) .xferNotHolder ∧
      Misuse (selectedBy 0 chips) (.write 1 0) .selectMismatch ∧
      Misuse (selectedBy 0 chips) (.rdmr 1 0) .selectMismatch) :=
  ⟨⟨.bxfer _ _ (by decide +kernel), .bxblk _ _ _ _ (by decide +kernel), .dxfer _ _ (by decide +kernel),
      .dxblk _ _ _ _ (by decide +kernel), .brel _ (by decide +kernel), .drel _ (by decide +kernel)⟩,
    ⟨.brelSelected 0 0 (by decide +kernel) (by decide +kernel) (by decide +kernel) (by decide +kernel),
      .dxferUnselected _ _ (by decide +kernel) (by decide +kernel),
      .dxblkUnselected _ _ _ _ (by decide +kernel) (by decide +kernel),
      .drelUnselected _ (by decide +kernel) (by decide +kernel),
      .dacqSelected _ (by decide +kernel) (by decide +kernel)⟩,
    ⟨.bxblkShort _ _ _ _ (by decide +kernel) (by decide +kernel),
      .dxblkShort _ _ _ _ (by decide +kernel) (by decide +kernel) (by decide +kernel),
      .mreadShort _ _ _ _ (by decide +kernel), .mwriteShort _ _ _ _ (by decide +kernel)⟩,
    ⟨.mreadSelected _ _ _ _ (by decide +kernel) (by decide +kernel) (by decide +kernel) (by decide +kernel),
      .mwriteSelected _ _ _ _ (by decide +kernel) (by decide +kernel) (by decide +kernel) (by decide +kernel),
      .sputSelected _ _ (by decide +kernel) (by decide +kernel) (by decide +kernel),
      .speekSelected _ (by decide +kernel) (by decide +kernel) (by decide +kernel),
      .sgetSelected _ (by decide +kernel) (by decide +kernel) (by decide +kernel)⟩,
    ⟨.wireNotHolder _ 2 0 (by decide) (by decide +kernel), .wireNotHolder _ 0 0xFFFFFF (by decide) (by decide +kernel),
      .wireUnselected _ 1 0 (by decide) (by decide +kernel) (by decide +kernel),
      .wireUnselected _ 1 0 (by decide) (by decide +kernel) (by decide +kernel)⟩⟩

theorem witness_BacqOpensSoftwareSession :
    State.reset.cfg.backend 0 = .sw 0 1 2 ∧ (State.reset.bus 0).held = false := by decide

/-- A frequency for which a divisor is small enough, and one for which none is. -/
theorem witness_BacqSelectsDivisor :
    (State.reset.cfg.wf = true ∧ 1 < State.reset.cfg.buses.length ∧
      State.reset.cfg.backend 1 = .hw 16000000 [2, 4, 8, 16, 32, 64, 128] ∧ (State.reset.bus 1).held = false) ∧
    (∃ e ∈ [2, 4, 8, 16, 32, 64, 128], 16000000 ≤ (125000#32).toNat * e) ∧
    (∀ e ∈ [2, 4, 8, 16, 32, 64, 128], (124999#32).toNat * e < 16000000) := by decide

theorem witness_BrelClosesSession :
    let s := opened 0 .mode3 .lsb chips
    0 < s.cfg.buses.length ∧ (s.bus 0).owner = some s.cur ∧
      ∀ h, h < s.cfg.devs.length → s.cfg.busOf h = 0 → s.cs h = (s.cfg.dev h).csIdle := by decide +kernel

theorem busReady_of {s : State} {b : Nat} (w : s.cfg.wf = true ∧ b < s.cfg.buses.length ∧
    (s.bus b).owner = some s.cur ∧ s.clockIdle b = true ∧ s.path = .idle) : BusReady s b :=
  ⟨w.1, w.2.1, w.2.2.1, w.2.2.2.1, w.2.2.2.2⟩

/-- With the line answered by chips, by a wire, and by nobody known. -/
theorem witness_BxferOnSoftwareBus : ∀ s ∈ [opened 0 .mode3 .lsb chips, opened 0 .mode1 .msb looped,
      opened 0 .mode0 .msb State.reset],
    BusReady s 0 ∧ s.cfg.backend 0 = .sw 0 1 2 := by
  intro s hs
  simp only [List.mem_cons, List.not_mem_nil, or_false] at hs
  rcases hs with rfl | rfl | rfl <;> exact ⟨busReady_of (by decide +kernel), by decide +kernel⟩

/-- With the line answered by a wire, by nobody known, and by chips. -/
theorem witness_BxferOnHardwareBus : ∀ s ∈ [opened 1 .mode0 .lsb looped, opened 1 .mode0 .msb State.reset,
      opened 1 .mode3 .lsb chips],
    BusReady s 1 ∧ s.cfg.backend 1 = .hw 16000000 [2, 4, 8, 16, 32, 64, 128] := by
  intro s hs
  simp only [List.mem_cons, List.not_mem_nil, or_false] at hs
  rcases hs with rfl | rfl | rfl <;> exact ⟨busReady_of (by decide +kernel), by decide +kernel⟩

/-- The clock idle, and not. -/
theorem witness_LoopbackReturnsTheByte : ∀ s ∈ [opened 0 .mode3 .lsb looped, (opened 0 .mode3 .lsb looped).setLvl 0 false],
    0 < s.cfg.buses.length ∧ s.cfg.backend 0 = .sw 0 1 2 ∧ s.line 0 = .loop ∧ (s.bus 0).owner = some s.cur := by
  decide +kernel

/-- The scripted chip of B6, selected, with its byte loaded. -/
def loaded (h : Nat) : Slave :=
  { scripted h with sel := true, tx := 0xC5, k := 0, q := true, chip := .script [] [] }

/-- A transaction open on handle `h`, whose chip is the one selected on its bus. -/
def talking (h : Nat) : State :=
  { selectedBy h State.reset with
    lines := [.slaves, .slaves]
    slaves := [scripted 1, loaded h] }

/-- On the `sw` bus in mode 0 and on the `hw` bus. -/
theorem witness_SelectedChipIsAByteMachine :
    (0 < (talking 0).cfg.buses.length ∧ ((talking 0).bus 0).owner = some (talking 0).cur ∧
      Selected (talking 0) 0 [scripted 1] (loaded 0) []) ∧
    (1 < (talking 2).cfg.buses.length ∧ ((talking 2).bus 1).owner = some (talking 2).cur ∧
      Selected (talking 2) 1 [scripted 1] (loaded 2) []) :=
  ⟨⟨by decide +kernel, by decide +kernel, ⟨by decide +kernel, by decide +kernel, by decide +kernel, by decide +kernel,
      by decide +kernel, by decide +kernel, by decide +kernel, by decide +kernel, by
        intro sck mosi miso h
        have h' : (talking 0).cfg.backend 0 = .sw 0 1 2 := by decide +kernel
        rw [h'] at h
        cases h
        decide +kernel⟩⟩,
    ⟨by decide +kernel, by decide +kernel, ⟨by decide +kernel, by decide +kernel, by decide +kernel, by decide +kernel,
      by decide +kernel, by decide +kernel, by decide +kernel, by decide +kernel, by
        intro sck mosi miso h
        have h' : (talking 2).cfg.backend 1 = .hw 16000000 [2, 4, 8, 16, 32, 64, 128] := by decide +kernel
        rw [h'] at h
        exact absurd h (by simp)⟩⟩⟩

/-- With the line answered by chips, by a wire, and by nobody known; pins 10 and 11 would be the clock and output. -/
theorem witness_BackendsAreIndistinguishable : ∀ s ∈ [talking 2, selectedBy 2 looped, selectedBy 2 State.reset],
    1 < s.cfg.buses.length ∧ s.cfg.backend 1 = .hw 16000000 [2, 4, 8, 16, 32, 64, 128] ∧
      (s.bus 1).owner = some s.cur ∧ 10 ≠ 11 ∧ s.lvl 10 = (s.bus 1).mode.cpol := by decide +kernel

/-- A zero count with buffers present, and a full count with both absent; bus and handle. -/
theorem witness_EmptyBlockDoesNothing :
    ((0 : Word32) = 0 ∧ 0 < (selectedBy 0 chips).cfg.buses.length ∧
      ((selectedBy 0 chips).bus 0).owner = some (selectedBy 0 chips).cur) ∧
    ((none : Option BufRef) = none ∧ 0 < (selectedBy 0 chips).cfg.devs.length ∧
      ((selectedBy 0 chips).bus ((selectedBy 0 chips).cfg.busOf 0)).owner = some (selectedBy 0 chips).cur ∧
      (selectedBy 0 chips).cs 0 ≠ ((selectedBy 0 chips).cfg.dev 0).csIdle) := by decide +kernel

/-- In place, over the whole buffer. -/
theorem witness_BlockIsTheByteLoop :
    let s := opened 0 .mode0 .msb looped
    0 < s.cfg.buses.length ∧ (s.bus 0).owner = some s.cur ∧ s.short (some 1) 3 = false := by decide +kernel

theorem witness_BlockTransfersBytes :
    BusReady (opened 0 .mode0 .msb looped) 0 ∧ (opened 0 .mode0 .msb looped).short (some 1) 3 = false ∧
      (opened 0 .mode0 .msb looped).short none 0xFFFFFFFF = false :=
  ⟨busReady_of (by decide +kernel), by decide +kernel, by decide +kernel⟩

/-- On the `sw` and on the `hw` bus. -/
theorem witness_DacqOpensTransaction : DevFree chips 1 ∧ DevFree chips 2 :=
  ⟨devFree_of (by decide +kernel), devFree_of (by decide +kernel)⟩

theorem devReady_of {s : State} {h : Nat} (w : s.cfg.wf = true ∧ h < s.cfg.devs.length ∧
    (s.bus (s.cfg.busOf h)).owner = some s.cur ∧ s.cs h ≠ (s.cfg.dev h).csIdle ∧
    s.clockIdle (s.cfg.busOf h) = true ∧ s.path = .idle) : DevReady s h :=
  ⟨w.1, w.2.1, w.2.2.1, w.2.2.2.1, w.2.2.2.2.1, w.2.2.2.2.2⟩

theorem witness_DrelClosesTransaction : DevReady (selectedBy 1 chips) 1 ∧ DevReady (selectedBy 2 chips) 2 :=
  ⟨devReady_of (by decide +kernel), devReady_of (by decide +kernel)⟩

theorem witness_DeviceTransfersDelegate : DevReady (selectedBy 2 chips) 2 ∧
    (selectedBy 2 chips).short (some 2) 2 = false ∧ (selectedBy 2 chips).short (some 1) 2 = false :=
  ⟨devReady_of (by decide +kernel), by decide +kernel, by decide +kernel⟩

theorem witness_HeaderLayout : (0xAB012345#32).toNat % 2 ^ 24 = (0x00012345#32).toNat % 2 ^ 24 := by decide

theorem devFree_chips : DevFree chips 0 := devFree_of (by decide +kernel)

theorem witness_MreadIsOneFrame : 0 < chips.cfg.mems.length ∧ DevFree chips (chips.cfg.handleOf 0) ∧
    (2#32 ≠ 0) ∧ (2#32).toNat ≤ (chips.buf 2).length :=
  ⟨by decide, devFree_chips, by decide, by decide +kernel⟩

theorem witness_MwriteIsOneFrame : 0 < chips.cfg.mems.length ∧ DevFree chips (chips.cfg.handleOf 0) ∧
    (1#32 ≠ 0) ∧ (1#32).toNat ≤ (chips.buf 1).length :=
  ⟨by decide, devFree_chips, by decide, by decide +kernel⟩

/-- `CFG-T` skips; the second configuration sends. -/
theorem witness_MemoryNoOpFollowsZcHeader :
    (0 < chips.cfg.mems.length ∧ chips.cfg.zcHeader = .skip) ∧
    (0 < (State.resetWith cfgB).cfg.mems.length ∧ (State.resetWith cfgB).cfg.zcHeader = .send ∧
      DevFree (State.resetWith cfgB) ((State.resetWith cfgB).cfg.handleOf 0)) :=
  ⟨by decide, by decide, by decide, devFree_of (by decide +kernel)⟩

/-- A transfer, and under `send` a header alone. -/
theorem witness_MemoryOperationsAreTransactions :
    (0 < chips.cfg.mems.length ∧ DevFree chips (chips.cfg.handleOf 0) ∧ chips.short (some 1) 2 = false ∧
      shortCircuit chips.cfg (some 1) 2 = false) ∧
    (DevFree (State.resetWith cfgB) ((State.resetWith cfgB).cfg.handleOf 0) ∧
      (State.resetWith cfgB).short none 5 = false ∧ shortCircuit cfgB none 5 = false) :=
  ⟨⟨by decide, devFree_chips, by decide +kernel, by decide⟩,
    ⟨devFree_of (by decide +kernel), by decide +kernel, by decide⟩⟩

theorem witness_TopAddressByteIsDropped : 0 < chips.cfg.mems.length ∧ DevFree chips (chips.cfg.handleOf 0) ∧
    chips.short (some 1) 2 = false ∧ (0xFF01FFFF#32).toNat % 2 ^ 24 = (0x0001FFFF#32).toNat % 2 ^ 24 :=
  ⟨by decide, devFree_chips, by decide +kernel, by decide⟩

/-- The chip of `chips`: nothing written. -/
theorem hasChip_chips : HasChip chips 0 ⟨17, .idle, 0, 0, []⟩ :=
  ⟨[], Slave.refMem cfgT 0, [], by decide +kernel, by decide +kernel, by decide, by decide, by decide +kernel,
    by decide +kernel, by decide +kernel, by decide +kernel, by decide +kernel⟩

/-- M5: two bytes at the last address of the chip, of which the second wraps. -/
theorem witness_MwriteStoresInChip : 0 < chips.cfg.mems.length ∧ DevFree chips (chips.cfg.handleOf 0) ∧
    HasChip chips (chips.cfg.handleOf 0) ⟨17, .idle, 0, 0, []⟩ ∧ 17 ≤ 24 ∧ (2#32 ≠ 0) ∧
    (2#32).toNat ≤ (chips.buf 1).length ∧ (2#32).toNat ≤ 2 ^ 17 ∧
    ((0x1FFFF#32).toNat + 1) % 2 ^ 17 = 0 :=
  ⟨by decide, devFree_chips, hasChip_chips, by decide, by decide, by decide +kernel, by decide +kernel, by decide +kernel⟩

theorem witness_MreadReturnsChipBytes : 0 < chips.cfg.mems.length ∧ DevFree chips (chips.cfg.handleOf 0) ∧
    HasChip chips (chips.cfg.handleOf 0) ⟨17, .idle, 0, 0, []⟩ ∧ 17 ≤ 24 ∧ (2#32 ≠ 0) ∧
    (2#32).toNat ≤ (chips.buf 2).length :=
  ⟨by decide, devFree_chips, hasChip_chips, by decide, by decide, by decide +kernel⟩

theorem witness_RoundTripThroughChip : 0 < chips.cfg.mems.length ∧ DevFree chips (chips.cfg.handleOf 0) ∧
    HasChip chips (chips.cfg.handleOf 0) ⟨17, .idle, 0, 0, []⟩ ∧ 17 ≤ 24 ∧ (2#32 ≠ 0) ∧
    (2#32).toNat ≤ (chips.buf 1).length ∧ (2#32).toNat ≤ (chips.buf 2).length ∧ (2#32).toNat ≤ 2 ^ 17 :=
  ⟨by decide, devFree_chips, hasChip_chips, by decide, by decide, by decide +kernel, by decide +kernel,
    by decide +kernel⟩

theorem witness_WireWordsSendFourBytes : DevReady (selectedBy 0 chips) 0 ∧ DevReady (selectedBy 2 looped) 2 :=
  ⟨devReady_of (by decide +kernel), devReady_of (by decide +kernel)⟩

/-- Opcode bytes next to the named ones, on both backends. -/
theorem witness_UnnamedOpcodeIsTransmitted : DevReady (selectedBy 0 chips) 0 ∧ DevReady (selectedBy 2 looped) 2 ∧
    2 < 256 ∧ ∀ w ∈ [0x00000000#32, 0x04FFFFFF#32, 0x06000001#32, 0xFF010203#32],
      w.extractLsb' 24 8 ∉ [0x03#8, 0x02#8, 0x05#8, 0x01#8] :=
  ⟨devReady_of (by decide +kernel), devReady_of (by decide +kernel), by decide, by simp⟩

/-- A reference chip on handle 0, freshly selected, about to take its first byte. -/
def freshChip : Slave :=
  { Slave.attached cfgT 0 (.mem ⟨17, .op, 0, 0, [(3, 7)]⟩) with sel := true, tx := 0, k := 0, q := false }

def freshlySelected : State :=
  { selectedBy 0 State.reset with
    lines := [.slaves, .slaves]
    slaves := [freshChip] }

theorem witness_ChipTakesWireWords :
    (DevReady freshlySelected 0 ∧ Selected freshlySelected (freshlySelected.cfg.busOf 0) [] freshChip [] ∧
      freshChip.h = 0 ∧ freshChip.chip = .mem ⟨17, .op, 0, 0, [(3, 7)]⟩ ∧ 17 ≤ 24) ∧
    (∀ c ∈ [RefMem.mk 17 .data 0x05 0 [], ⟨17, .data, 0x01, 0, []⟩], c.phase = .data ∧ c.op ≠ 0x03 ∧ c.op ≠ 0x02) :=
  ⟨⟨devReady_of (by decide +kernel), ⟨by decide +kernel, by decide +kernel, by decide, by decide,
      by decide +kernel, by decide +kernel, by decide +kernel, by decide +kernel, by
        intro sck mosi miso h
        have h' : freshlySelected.cfg.backend (freshlySelected.cfg.busOf 0) = .sw 0 1 2 := by decide +kernel
        rw [h'] at h
        cases h
        decide +kernel⟩, by decide +kernel, by decide +kernel, by decide⟩, by decide⟩

theorem strInv_of {s : State} {x : Nat} (w : (s.str x).count ≤ (s.cfg.stream x).size ∧
    ((s.str x).put < (s.cfg.stream x).size ∨ ((s.cfg.stream x).size = 0 ∧ (s.str x).put = 0)) ∧
    ((s.str x).get < (s.cfg.stream x).size ∨ ((s.cfg.stream x).size = 0 ∧ (s.str x).get = 0)) ∧
    ((s.str x).put - (s.str x).get : Int) % ((s.cfg.stream x).size : Int) =
      ((s.str x).count : Int) % ((s.cfg.stream x).size : Int)) : StrInv s x :=
  ⟨w.1, w.2.1, w.2.2.1, w.2.2.2⟩

/-- A stream that holds three bytes, a full one, and one of size 0. -/
theorem witness_SavailReturnsCount :
    (0 < threeBytes.cfg.strs.length ∧ StrInv threeBytes 0) ∧
    StrInv { threeBytes with strs := [⟨3, 3, 8⟩, ⟨0, 0, 0⟩] } 0 ∧
    (0 < (State.resetWith cfgB).cfg.strs.length ∧ StrInv (State.resetWith cfgB) 0) :=
  ⟨⟨by decide, strInv_of (by decide +kernel)⟩, strInv_of (by decide +kernel), by decide, strInv_of (by decide +kernel)⟩

/-- An empty stream, a full one, and one of size 0, which is both. -/
theorem witness_StreamSentinels :
    (1 < threeBytes.cfg.strs.length ∧ (threeBytes.str 1).count = 0) ∧
    (∀ s ∈ [{ threeBytes with strs := [⟨3, 3, 8⟩, ⟨0, 0, 0⟩] }],
      0 < s.cfg.strs.length ∧ (s.str 0).count = (s.cfg.stream 0).size) ∧
    (∀ s ∈ [State.resetWith cfgB],
      0 < s.cfg.strs.length ∧ (s.str 0).count = 0 ∧ (s.str 0).count = (s.cfg.stream 0).size) := by decide +kernel

theorem devFree_threeBytes : DevFree threeBytes 0 := devFree_of (by decide +kernel)

/-- One byte short of full. -/
theorem witness_SputWritesOneByte :
    let s := { threeBytes with strs := [⟨7, 0, 7⟩, ⟨0, 0, 0⟩] }
    0 < s.cfg.strs.length ∧ DevFree s (streamHandle s.cfg 0) ∧ (s.str 0).count ≠ (s.cfg.stream 0).size :=
  ⟨by decide, devFree_of (by decide +kernel), by decide +kernel⟩

theorem witness_SpeekReadsOneByte : 0 < threeBytes.cfg.strs.length ∧
    DevFree threeBytes (streamHandle threeBytes.cfg 0) ∧ (threeBytes.str 0).count ≠ 0 :=
  ⟨by decide, devFree_threeBytes, by decide⟩

/-- The last byte, at the last index. -/
theorem witness_SgetConsumesOneByte :
    let s := { threeBytes with strs := [⟨0, 7, 1⟩, ⟨0, 0, 0⟩] }
    0 < s.cfg.strs.length ∧ DevFree s (streamHandle s.cfg 0) ∧ (s.str 0).count ≠ 0 :=
  ⟨by decide, devFree_of (by decide +kernel), by decide +kernel⟩

theorem witness_SflushResetsIndices : 1 < threeBytes.cfg.strs.length := by decide

theorem witness_OperationsKeepStreamInvariant : threeBytes.cfg.wf = true ∧
    (Instr.sget 0).unitInRange threeBytes.cfg = true ∧ 0 < threeBytes.cfg.strs.length ∧ StrInv threeBytes 0 ∧
    ∃ t, exec (.sget 0) threeBytes = .next t :=
  ⟨by decide, by decide, by decide, strInv_of (by decide +kernel), next_of (by decide +kernel)⟩

/-- A get that is issued, and one that has waited while the stream still holds its bytes. -/
theorem witness_StepKeepsStreamInvariant : ∀ s ∈ [issuing 1 [.opw 0x4300] threeBytes,
      waitingFor 1 0 (.sget 0) 0x102 threeBytes],
    Inv s ∧ 0 < s.cfg.strs.length ∧ StrInv s 0 ∧ s.sched = [1] ∧
      (∀ b op a, (s.caller 1).status = .waiting b op a → reachesWait s op = true) ∧ ∃ t, step s = .next t := by
  intro s hs
  simp only [List.mem_cons, List.not_mem_nil, or_false] at hs
  rcases hs with rfl | rfl
  · exact ⟨inv_of (by decide +kernel) (by decide +kernel) (by decide +kernel) (by decide +kernel), by decide,
      strInv_of (by decide +kernel), rfl, fun b op a h => (by cases h), next_of (by decide +kernel)⟩
  · exact ⟨inv_of (by decide +kernel) (by decide +kernel) (by decide +kernel) (by decide +kernel), by decide,
      strInv_of (by decide +kernel), rfl, fun b op a h => (by cases h; decide +kernel), next_of (by decide +kernel)⟩

theorem hasChip_threeBytes :
    HasChip threeBytes 0 ⟨17, .idle, 0, 0, [(0x102, 7), (0x103, 8), (0x104, 9)]⟩ :=
  ⟨[], Slave.attached cfgT 0 (.mem ⟨17, .idle, 0, 0, [(0x102, 7), (0x103, 8), (0x104, 9)]⟩), [], by decide +kernel,
    by decide +kernel, by decide, by decide, by decide +kernel, by decide +kernel, by decide +kernel,
    by decide +kernel, by decide +kernel⟩

/-- Neither full nor empty. -/
theorem witness_StreamOperationsOnChip : 0 < threeBytes.cfg.strs.length ∧
    DevFree threeBytes (streamHandle threeBytes.cfg 0) ∧
    HasChip threeBytes (streamHandle threeBytes.cfg 0) ⟨17, .idle, 0, 0, [(0x102, 7), (0x103, 8), (0x104, 9)]⟩ ∧
    17 ≤ 24 ∧ (threeBytes.str 0).count ≠ (threeBytes.cfg.stream 0).size ∧ (threeBytes.str 0).count ≠ 0 :=
  ⟨by decide, devFree_threeBytes, hasChip_threeBytes, by decide, by decide, by decide⟩

theorem witness_Backpressure : 1 < threeBytes.cfg.strs.length ∧
    DevFree threeBytes (streamHandle threeBytes.cfg 1) ∧ (threeBytes.str 1).count = 0 ∧
    ([1, 2, 3, 4] : List Byte).length = (threeBytes.cfg.stream 1).size :=
  ⟨by decide, devFree_threeBytes, by decide, by decide⟩

theorem witness_FlushEmptiesStream : 1 < threeBytes.cfg.strs.length := by decide

theorem witness_PeekIsIdempotent : 0 < threeBytes.cfg.strs.length ∧
    DevFree threeBytes (streamHandle threeBytes.cfg 0) ∧
    HasChip threeBytes (streamHandle threeBytes.cfg 0) ⟨17, .idle, 0, 0, [(0x102, 7), (0x103, 8), (0x104, 9)]⟩ ∧
    17 ≤ 24 ∧ (threeBytes.str 0).count ≠ 0 :=
  ⟨by decide, devFree_threeBytes, hasChip_threeBytes, by decide, by decide⟩

/-- Room for a put, and bytes for a get and a peek. -/
theorem witness_StreamIsFifo : 0 < threeBytes.cfg.strs.length ∧
    DevFree threeBytes (streamHandle threeBytes.cfg 0) ∧
    HasChip threeBytes (streamHandle threeBytes.cfg 0) ⟨17, .idle, 0, 0, [(0x102, 7), (0x103, 8), (0x104, 9)]⟩ ∧
    17 ≤ 24 ∧ (threeBytes.cfg.stream 0).size ≤ 2 ^ 17 ∧
    Holds threeBytes 0 (streamHandle threeBytes.cfg 0) ⟨17, .idle, 0, 0, [(0x102, 7), (0x103, 8), (0x104, 9)]⟩
      [7, 8, 9] ∧
    ([7, 8, 9] : List Byte).length < (threeBytes.cfg.stream 0).size :=
  ⟨by decide, devFree_threeBytes, hasChip_threeBytes, by decide, by decide,
    ⟨strInv_of (by decide +kernel), by decide, by decide +kernel⟩, by decide⟩

end Sys2Proof.Tests
end

section
/-! PROOF. O13: a step is one piece of the caller it turns to, taken from a state that differs from the one before in the
schedule, the current caller and that caller's record alone (R42, R256). -/

namespace Sys2Proof.Machine

open State

theorem issue_others (s : State) (ws : List PortWord) {c : Nat} (h : c ≠ s.cur) :
    (s.issue ws).caller c = s.caller c := by
  simp [State.issue, caller_setCaller, h]

/-- Every step is one piece of a caller `c` that has been turned to: between the state before and the start of the piece
only the schedule, the current caller and the record of `c` have changed. A step in which nobody moves is the piece that
changes nothing. -/
theorem step_piece {s t : State} (hi : Inv s) (h : step s = .next t) :
    ∃ c rest cs, (∀ k, k ≠ c → entry Caller.idle cs k = s.caller k) ∧
      Piece { s with sched := rest, cur := c, callers := cs } t := by
  obtain rfl | ⟨_, rest, -, rfl⟩ | ⟨c, rest, u, -, -, hu, -, ⟨rfl, rfl⟩ | ⟨i, -, e, hstart⟩⟩ := step_effect hi h
  · exact ⟨t.cur, t.sched, t.callers, fun _ _ => rfl, Piece.refl t⟩
  · exact ⟨s.cur, rest, s.callers, fun _ _ => rfl, Piece.refl _⟩
  · exact ⟨c, rest, s.callers, fun _ _ => rfl, Piece.refl _⟩
  · have p : Piece u t := piece_of_effect hu e
    obtain ⟨_, _, rfl, -, -⟩ | ⟨-, ws, rfl⟩ := hstart
    · exact ⟨c, rest, s.callers, fun _ _ => rfl, p⟩
    · exact ⟨c, rest, _, fun _ hk => issue_others (s.turn c rest) ws hk, p⟩

/-- Settles O13: a piece leaves configuration, lines and the other callers, and only appends (`Piece`). -/
theorem stepAppendsOnly : Obligations.StepAppendsOnly := by
  unfold Obligations.StepAppendsOnly
  intro s t hi h
  obtain ⟨c, rest, cs, hcs, p⟩ := step_piece hi h
  obtain ⟨b, onBus⟩ := p.one
  obtain ⟨es, htrace, -⟩ := onBus.trace
  refine ⟨p.cfg, p.lines, ⟨es, htrace⟩, p.faults, fun k hk => ?_⟩
  have hkc : k ≠ c := fun he => hk (he.trans p.cur.symm)
  exact (p.others k hkc).trans (hcs k hkc)

end Sys2Proof.Machine
end

section
/-! PROOF. O12, O16, O11, O10: what reset leaves (R50, R271), and that the invariant of R52 (1) to (3) holds there and is
kept by every step, one case per kind of step (`step_effect`). -/

namespace Sys2Proof.Machine

open State

/-! ### Every step -/

/-- Settles O12: a turn and an issue keep the invariant (`step_effect`), and so does every effect (`inv_of_effect`). -/
theorem stepKeepsInvariant : Obligations.StepKeepsInvariant := by
  unfold Obligations.StepKeepsInvariant
  intro s t hi h
  obtain rfl | ⟨_, rest, -, rfl⟩ | ⟨c, rest, u, -, hc, hu, hcur, ⟨rfl, -⟩ | ⟨i, hwf, e, hstart⟩⟩ := step_effect hi h
  · exact hi
  · exact inv_sched hi rest
  · exact hu
  · have hcfg : u.cfg = s.cfg := by
      obtain ⟨_, _, rfl, -, -⟩ | ⟨-, ws, rfl⟩ := hstart <;> rfl
    exact inv_of_effect hu (by rwa [hcur, hcfg]) (by rwa [hcfg]) e

/-- What a step can do to a bus: nothing, a release by the owner that steps, or a piece of the caller that steps on a free
bus, which then either owns it or has given it back. -/
theorem step_bus {s t : State} (hi : Inv s) (h : step s = .next t) (b : Nat) :
    t.bus b = s.bus b ∨
    ((s.bus b).owner = some t.cur ∧ t.bus b = { s.bus b with held := false, owner := none }) ∨
    ((s.bus b).held = false ∧ ((t.bus b).owner = some t.cur ∨ (t.bus b).owner = none)) := by
  obtain ⟨c, rest, cs, -, p⟩ := step_piece hi h
  obtain ⟨b', onBus⟩ := p.one
  have hcur : t.cur = c := p.cur
  by_cases hb : b = b'
  · subst hb hcur
    obtain hsame | hreleased | ⟨hfree, ⟨-, howner⟩ | ⟨-, howner⟩⟩ := onBus.after
    · exact .inl hsame
    · exact .inr (.inl hreleased)
    · exact .inr (.inr ⟨hfree, .inl howner⟩)
    · exact .inr (.inr ⟨hfree, .inr howner⟩)
  · exact .inl (onBus.otherBuses b hb)

/-- Settles O16: the cases of `step_bus`; a bus with an owner is held (R52 (1)), so no piece finds it free. -/
theorem onlyTheHolderReleases : Obligations.OnlyTheHolderReleases := by
  unfold Obligations.OnlyTheHolderReleases
  intro s t b hi hb h
  have howner := hi.bus.owner b hb
  obtain hsame | ⟨hholder, hrel⟩ | ⟨hfree, htaken⟩ := step_bus hi h b
  · exact ⟨fun _ _ => .inl hsame, fun hn => .inl (by rw [hsame, hn])⟩
  · refine ⟨fun c hc => .inr ⟨?_, hrel⟩, fun hn => ?_⟩
    · exact Option.some.inj (hholder.symm.trans hc)
    · rw [hn] at hholder; cases hholder
  · refine ⟨fun c hc => ?_, fun _ => htaken.symm⟩
    rw [howner.2 hfree] at hc; cases hc

/-! ### Reset -/

section Reset

variable {cfg : Config} (hw : cfg.wf = true)
include hw

/-- R50: a software bus has its clock and its output data line as outputs and its input data line as an input. -/
theorem reset_busDirs (b : Nat) : (resetWith cfg).busDirs b = true := by
  rw [busDirs_iff]
  intro sck mosi miso hb
  obtain ⟨hsck, hmosi, hmiso⟩ := bootPins_bus hw hb
  rw [hsck, hmosi, hmiso]
  exact ⟨rfl, rfl, rfl⟩

/-- R33 at reset: the level of log 3 is the idle level of the mode of log 2. -/
theorem reset_clockIdle (b : Nat) : (resetWith cfg).clockIdle b = true := by
  rw [clockIdle_iff]
  intro sck mosi miso hb
  rw [State.lvl, (bootPins_bus hw hb).1, reset_bus]
  rfl

/-- R50: no handle is selected. -/
theorem reset_selected {h : Nat} (hh : h < cfg.devs.length) : (resetWith cfg).selected h = false := by
  rw [selected_eq_false]
  exact congrArg Pin.lvl (bootPins_cs hw hh)

/-- Right after reset the tables have the lengths of the configuration and nobody waits. -/
theorem reset_base : Base (resetWith cfg) := by
  refine ⟨hw, ?_, fun c _ => ?_⟩
  · simp [shapeOk_iff, resetWith]
  · simp [State.waitOk, reset_caller, Caller.idle]

theorem reset_busInv : BusInv (resetWith cfg) := by
  refine ⟨fun b _ => ?_, fun h hh hsel => ?_, fun h hh _ _ _ hsel _ => ?_⟩
  · simp [reset_bus, Bus.free]
  all_goals
    rw [reset_selected hw hh] at hsel; cases hsel

theorem reset_pinInv : PinInv (resetWith cfg) :=
  ⟨fun b _ => reset_clockIdle hw b, fun b _ => reset_busDirs hw b, fun _ hh => congrArg Pin.dir (bootPins_cs hw hh)⟩

/-- Reset sets up the pins in order of their identifiers, with no buffer and no chip yet. -/
theorem reset_canonInv : CanonInv (resetWith cfg) :=
  ⟨bootPins_sorted cfg hw, .nil, fun _ hx => absurd hx List.not_mem_nil, rfl⟩

end Reset

/-- Settles O11, one part of the invariant at a time. -/
theorem resetHasInvariant : Obligations.ResetHasInvariant := by
  unfold Obligations.ResetHasInvariant
  exact fun cfg hw => ⟨reset_base hw, reset_busInv hw, reset_pinInv hw, reset_canonInv hw⟩

theorem reset_str (cfg : Config) (x : Nat) : (resetWith cfg).str x = Stream.empty := entry_map_const _ _ _

/-- Settles O10: buses, selects, streams and callers by their lemmas; the trace is the bus set-up events and then those of
the handles (`bootDevEvents_eq`). -/
theorem resetLeaves : Obligations.ResetLeaves := by
  unfold Obligations.ResetLeaves
  refine ⟨rfl, fun cfg hw => ⟨fun b _ => ?_, fun h hh => ⟨bootPins_cs hw hh, reset_selected hw hh⟩,
    fun x _ => reset_str cfg x, fun c _ => ?_, rfl, ?_⟩⟩
  · rw [reset_bus]
    exact ⟨rfl, rfl, reset_busDirs hw b⟩
  · rw [reset_caller]
    rfl
  · show bootTrace cfg = _
    refine congrArg₂ (· ++ ·) (congrArg (cfg.buses.flatMap ·) (funext fun be => ?_)) (bootDevEvents_eq cfg)
    cases be <;> rfl

end Sys2Proof.Machine
end

section
/-! PROOF. O15: the one bus a piece works on (`OnBus`) is either not the held bus, and then shares no pin, event or chip
with it, or it is the held bus, and then the piece has done nothing to it (R69, R129). -/

namespace Sys2Proof.Machine

open State

/-! ### A held bus -/

/-- A bus that has an owner is there: beyond the table every bus reads as a free one. -/
theorem bus_lt_of_owner {s : State} (hi : Inv s) {b c : Nat} (ho : (s.bus b).owner = some c) :
    b < s.cfg.buses.length := by
  obtain ⟨hlen, -⟩ := (shapeOk_iff s).1 hi.base.shape
  by_contra hb
  have hfree : s.bus b = Bus.free := by simp [State.bus, entry, hlen, Nat.le_of_not_lt hb]
  rw [hfree] at ho
  cases ho

theorem held_of_owner {s : State} (hi : Inv s) {b c : Nat} (ho : (s.bus b).owner = some c) :
    (s.bus b).held = true := by
  by_contra hh
  have hnone := (hi.bus.owner b (bus_lt_of_owner hi ho)).2 (by simpa using hh)
  rw [ho] at hnone
  cases hnone

/-! ### What belongs to two buses -/

/-- No pin belongs to two buses (R111). -/
theorem busPin_disjoint {cfg : Config} (hw : cfg.wf = true) {b b' p : Nat} (hne : b ≠ b') (hp : busPin cfg b p) :
    ¬ busPin cfg b' p := by
  rintro (⟨sck', mosi', miso', hb', hp'⟩ | ⟨h', hh', hbus', rfl⟩)
  · obtain ⟨sck, mosi, miso, hb, hp⟩ | ⟨h, hh, -, rfl⟩ := hp
    · exact Config.wf_two_buses hw hne hb hb' p (hp.imp_right .inl) (hp'.imp_right .inl)
    · obtain ⟨hsck, hmosi, -⟩ := Config.wf_cs_pins hw hh hb'
      exact hp'.elim hsck hmosi
  · obtain ⟨sck, mosi, miso, hb, hp⟩ | ⟨h, hh, hbus, hp⟩ := hp
    · obtain ⟨hsck, hmosi, -⟩ := Config.wf_cs_pins hw hh' hb
      exact hp.elim hsck hmosi
    · rw [Config.wf_cs_inj hw hh' hh hp] at hbus'
      exact hne (hbus.symm.trans hbus')

/-- What is as before on bus `b`: its session, its part of the trace, its pins and the chips attached to it. -/
structure BusSpared (s t : State) (b : Nat) : Prop where
  bus : t.bus b = s.bus b
  trace : ∃ es, t.trace = s.trace ++ es ∧ ∀ e ∈ es, eventBus s.cfg e ≠ some b
  pins : ∀ p, busPin s.cfg b p → t.pin p = s.pin p
  slaves : t.slaves.filter (fun x => decide (s.cfg.busOf x.h = b)) =
    s.slaves.filter (fun x => decide (s.cfg.busOf x.h = b))

theorem OnBus.spares_other {s t : State} (hw : s.cfg.wf = true) {b b' : Nat} (onBus : OnBus s t b') (hne : b ≠ b') :
    BusSpared s t b := by
  obtain ⟨es, htrace, hes⟩ := onBus.trace
  obtain ⟨fs, hslaves, hfs⟩ := onBus.slaves
  refine ⟨onBus.otherBuses b hne, ⟨es, htrace, fun e he => ?_⟩,
    fun p hp => onBus.pins p (busPin_disjoint hw hne hp), ?_⟩
  · rw [hes e he]
    exact fun h => hne (Option.some.inj h).symm
  · rw [hslaves]
    exact filter_bus_hearAll s.cfg b b' fs s.slaves hne.symm hfs

theorem OnBus.spares_held {s t : State} {b : Nat} (onBus : OnBus s t b) (hheld : (s.bus b).held = true)
    (ho : (s.bus b).owner ≠ some s.cur) : BusSpared s t b := by
  obtain hown | hfree | ⟨hbus, htrace, hpins, hslaves⟩ := onBus.access
  · exact absurd hown ho
  · rw [hheld] at hfree; cases hfree
  · exact ⟨hbus, ⟨[], by simp [htrace], by simp⟩, fun p _ => by simp only [State.pin, hpins], by rw [hslaves]⟩

/-- Whichever bus a piece works on, it spares every bus that somebody else holds. -/
theorem Piece.spares {s t : State} (p : Piece s t) (hw : s.cfg.wf = true) {b : Nat} (hheld : (s.bus b).held = true)
    (ho : (s.bus b).owner ≠ some s.cur) : BusSpared s t b := by
  obtain ⟨b', onBus⟩ := p.one
  by_cases hb : b = b'
  · subst hb; exact onBus.spares_held hheld ho
  · exact onBus.spares_other hw hb

/-- Settles O15: a step is a piece of the caller it turns to (`step_piece`), which spares the bus (`Piece.spares`). -/
theorem mutualExclusion : Obligations.MutualExclusion := by
  unfold Obligations.MutualExclusion
  intro s t b c hi h ho hcur
  obtain ⟨k, rest, cs, -, p⟩ := step_piece hi h
  have hk : t.cur = k := p.cur
  have hne : (s.bus b).owner ≠ some k := fun he => hcur (hk.trans (Option.some.inj (he.symm.trans ho)))
  obtain ⟨hbus, htrace, hpins, hslaves⟩ := p.spares hi.base.cfgWf (held_of_owner hi ho) hne
  refine ⟨hbus, htrace, fun sck mosi miso hb => ⟨?_, ?_⟩, fun g hg hgb => ?_, hslaves⟩
  · exact hpins sck (.inl ⟨sck, mosi, miso, hb, .inl rfl⟩)
  · exact hpins mosi (.inl ⟨sck, mosi, miso, hb, .inr rfl⟩)
  · have hcfg : t.cfg = s.cfg := p.cfg
    rw [State.cs, hcfg]
    exact congrArg Pin.lvl (hpins _ (.inr ⟨g, hg, hgb, rfl⟩))

end Sys2Proof.Machine
end

section
/-! PROOF. O27, O40: a byte exchanged with the one selected chip (R78), and the address bits of a frame (R61, R202). -/

namespace Sys2Proof.Machine

open State

/-- Settles O27: the exchange is R78's (`exchange_selected`), and the end of the operation touches its caller alone. -/
theorem selectedChipIsAByteMachine : Obligations.SelectedChipIsAByteMachine := by
  unfold Obligations.SelectedChipIsAByteMachine
  intro s b pre x post v hb ho hsel
  obtain ⟨f, hbyte, -, hnext⟩ := exchange_selected hsel v
  have hans := answered_finish (wireOnly_exchange s b v) (.byte (s.exchange b v).1)
  refine ⟨_, _, _, _, exec_bxfer v hb ho, ?_, hnext.congr rfl rfl rfl rfl rfl, rfl, rfl, rfl, rfl, rfl⟩
  rw [hans.caller, hbyte]

/-- A header holds the low 24 bits of its address alone (R61, R202). -/
theorem header_congr (opc : Byte) {a a' : Word32} (h : a.toNat % 2 ^ 24 = a'.toNat % 2 ^ 24) :
    header opc a = header opc a' := by
  have hlow : a.extractLsb' 0 24 = a'.extractLsb' 0 24 := BitVec.eq_of_toNat_eq (by simpa using h)
  rw [← wireBytes_low opc a, hlow, wireBytes_low]

theorem exec_mread_skip {s : State} {m : Nat} {d : Option BufRef} {n : Word32} (a : Word32)
    (hm : m < s.cfg.mems.length) (hshort : s.short d n = false) (hskip : shortCircuit s.cfg d n = true) :
    exec (.mread m d a n) s = .next (s.finish .none) := by
  simp [exec, execMread, inRange, hm, hshort, hskip]

theorem exec_mwrite_skip {s : State} {m : Nat} {d : Option BufRef} {n : Word32} (a : Word32)
    (hm : m < s.cfg.mems.length) (hshort : s.short d n = false) (hskip : shortCircuit s.cfg d n = true) :
    exec (.mwrite m a d n) s = .next (s.finish .none) := by
  simp [exec, execMwrite, inRange, hm, hshort, hskip]

/-- Settles O40: the address is not looked at under the short circuit of R205, and else only through the header. -/
theorem topAddressByteIsDropped : Obligations.TopAddressByteIsDropped := by
  unfold Obligations.TopAddressByteIsDropped
  intro s m d a a' n hm hfree hshort haddr
  cases hskip : shortCircuit s.cfg d n with
  | true =>
    exact ⟨⟨_, exec_mread_skip a hm hshort hskip, exec_mread_skip a' hm hshort hskip⟩,
      ⟨_, exec_mwrite_skip a hm hshort hskip, exec_mwrite_skip a' hm hshort hskip⟩⟩
  | false =>
    refine ⟨⟨_, exec_mread hm hfree hshort hskip, ?_⟩, ⟨_, exec_mwrite hm hfree hshort hskip, ?_⟩⟩
    · rw [header_congr opRead haddr]
      exact exec_mread hm hfree hshort hskip
    · rw [header_congr opWrite haddr]
      exact exec_mwrite hm hfree hshort hskip

end Sys2Proof.Machine
end

section
/-! PROOF. O2, O3, O4, O1: the decoder against the encoder (R94, R101) and against the reserved encodings (R104). First what
each part of the decoder reads from the words the encoder writes, then the operation word or header word before them. -/

namespace Sys2Proof

/-! ### What each part of the decoder reads from the words of the encoder -/

theorem byteOperand_byteWord (f : Byte → Instr) (v : Byte) (rest : List PortWord) :
    byteOperand f (.opnd (byteWord v) :: rest) = .ok (f v) rest := by
  simp [byteOperand, byteWord_hi, byteWord_lo]

theorem cfgOperands_cfgWord (f : Mode → Order → Word32 → Instr) (m : Mode) (o : Order) (freq : Word32)
    (rest : List PortWord) : cfgOperands f (.opnd (cfgWord m o) :: .opnd freq :: rest) = .ok (f m o freq) rest := by
  simp [cfgOperands, cfgWord_hi, cfgWord_mode, cfgWord_order]

theorem threeOperands_wordOfRef (f : Option BufRef → Option BufRef → Word32 → Instr) {d r : Option BufRef}
    (hd : refOk d = true) (hr : refOk r = true) (n : Word32) (rest : List PortWord) :
    threeOperands (fun x y z => f (refOfWord x) (refOfWord y) z)
      (.opnd (wordOfRef d) :: .opnd (wordOfRef r) :: .opnd n :: rest) = .ok (f d r n) rest := by
  simp [threeOperands, refOfWord_wordOfRef, hd, hr]

theorem checkUnit_inRange {cfg : Config} {i : Instr} (rest : List PortWord) (hu : i.unitInRange cfg = true) :
    checkUnit cfg (.ok i rest) = .ok i rest := by
  simp [checkUnit, hu]

theorem checkUnit_unitRange {cfg : Config} {i : Instr} (rest : List PortWord) (hu : i.unitInRange cfg = false) :
    checkUnit cfg (.ok i rest) = .refused .unitRange := by
  simp [checkUnit, hu]

/-! ### An operation word and a header word before it -/

theorem decode_opWord (cfg : Config) {op unit : Nat} (hop : op < 256) (hunit : unit < 256) (ws : List PortWord) :
    decode cfg (.opw (opWord op unit) :: ws) = checkUnit cfg (decodeOp op unit ws) := by
  rw [decode, op_opWord op unit hop, unit_opWord op unit hunit]

/-- A record decodes to its operation when its operand words do and its unit is in range. -/
theorem decode_record {cfg : Config} {op unit : Nat} {i : Instr} {ws rest : List PortWord} (hop : op < 256)
    (hunit : unit < 256) (hu : i.unitInRange cfg = true) (h : decodeOp op unit ws = .ok i rest) :
    decode cfg (.opw (opWord op unit) :: ws) = .ok i rest := by
  rw [decode_opWord cfg hop hunit, h, checkUnit_inRange rest hu]

/-- A header word decodes to its wire word when the handle beside it is in range. -/
theorem decode_frame {cfg : Config} {h : Nat} {w : Word32} {i : Instr} {ws rest : List PortWord}
    (hu : i.unitInRange cfg = true) (hd : decodeFrame h w ws = .ok i rest) :
    decode cfg (.frame h w :: ws) = .ok i rest := by
  rw [decode, hd, checkUnit_inRange rest hu]

/-- The wire word a header word is read as, by its opcode byte (R96). -/
theorem decodeFrame_headerWord {h : Nat} {a : BitVec 24} {opc : Byte} {i : Instr} (rest : List PortWord)
    (hi : i = .read h a ∧ opc = 0x03#8 ∨ i = .write h a ∧ opc = 0x02#8 ∨ i = .rdmr h a ∧ opc = 0x05#8 ∨
      i = .wrmr h a ∧ opc = 0x01#8) : decodeFrame h (headerWord opc a) rest = .ok i rest := by
  obtain ⟨rfl, rfl⟩ | ⟨rfl, rfl⟩ | ⟨rfl, rfl⟩ | ⟨rfl, rfl⟩ := hi <;>
    simp [decodeFrame, headerWord_hi, headerWord_lo]

/-- Settles O2, one case per row of the tables of R96 and R101. -/
theorem decodeOfEncode : Obligations.DecodeOfEncode := by
  unfold Obligations.DecodeOfEncode
  intro cfg i rest hwf
  obtain ⟨hu, hrefs⟩ := Bool.and_eq_true_iff.1 hwf
  cases i with
  | bacq b m o freq => exact decode_record (by decide) (unitOk_lt hu) hu (cfgOperands_cfgWord _ m o freq rest)
  | bxfer _ v | dxfer _ v | sput _ v => exact decode_record (by decide) (unitOk_lt hu) hu (byteOperand_byteWord _ v rest)
  | bxblk b d r n =>
    obtain ⟨hd, hr⟩ := Bool.and_eq_true_iff.1 hrefs
    exact decode_record (by decide) (unitOk_lt hu) hu (threeOperands_wordOfRef (.bxblk b) hd hr n rest)
  | dxblk h d r n =>
    obtain ⟨hd, hr⟩ := Bool.and_eq_true_iff.1 hrefs
    exact decode_record (by decide) (unitOk_lt hu) hu (threeOperands_wordOfRef (.dxblk h) hd hr n rest)
  | mread m d a n =>
    exact decode_record (by decide) (unitOk_lt hu) hu (congrArg (fun d => Decoded.ok (.mread m d a n) rest)
      (refOfWord_wordOfRef d hrefs))
  | mwrite m a r n =>
    exact decode_record (by decide) (unitOk_lt hu) hu (congrArg (fun r => Decoded.ok (.mwrite m a r n) rest)
      (refOfWord_wordOfRef r hrefs))
  | brel _ | dacq _ | drel _ | savail _ | speek _ | sget _ | sflush _ =>
    exact decode_record (by decide) (unitOk_lt hu) hu rfl
  | read h a | write h a | rdmr h a | wrmr h a =>
    exact decode_frame hu (decodeFrame_headerWord rest (by simp))

/-- Settles O3: what is accepted is well formed (`wf_of_decode`), an operation word is its two fields (`opWord_parts`), and
the rest of the record is what its part of the decoder accepts (`decodeOp_ok`, `decodeFrame_ok`). -/
theorem encodeOfDecode : Obligations.EncodeOfDecode := by
  unfold Obligations.EncodeOfDecode
  intro cfg i ws rest h
  refine ⟨Machine.wf_of_decode h, ?_⟩
  cases ws with
  | nil => cases h
  | cons word more =>
    cases word with
    | opnd _ => cases h
    | opw w =>
      obtain ⟨hop, -⟩ := checkUnit_ok h
      have hwords := (decodeOp_ok hop).2
      rw [opWord_parts] at hwords
      exact .inl hwords
    | frame k w =>
      obtain ⟨hframe, -⟩ := checkUnit_ok h
      obtain hnamed | ⟨hopc, hi, hrest⟩ := (decodeFrame_ok hframe).2
      · exact .inl hnamed
      · exact .inr ⟨k, w, more, rfl, fun hmem => hopc (List.mem_map_of_mem (f := BitVec.toNat) hmem), hi, hrest⟩

/-! ### What is refused -/

theorem unitOk_false {u n : Nat} (h : n ≤ u ∨ 256 ≤ u) : unitOk u n = false := by
  simp only [unitOk, Bool.and_eq_false_iff, decide_eq_false_iff_not]
  omega

/-- An operation word written out as its two bytes. -/
theorem append_eq_opWord (op unit : BitVec 8) : op ++ unit = opWord op.toNat unit.toNat := by
  simp [opWord]

theorem decode_append (cfg : Config) (op unit : BitVec 8) (ws : List PortWord) :
    decode cfg (.opw (op ++ unit) :: ws) = checkUnit cfg (decodeOp op.toNat unit.toNat ws) := by
  rw [append_eq_opWord]
  exact decode_opWord cfg op.isLt unit.isLt ws

/-- A record that is complete and has no reserved bit set is refused for its unit alone. -/
theorem decode_append_unitRange {cfg : Config} {op unit : BitVec 8} {i : Instr} {ws rest : List PortWord}
    (h : decodeOp op.toNat unit.toNat ws = .ok i rest) (hu : i.unitInRange cfg = false) :
    decode cfg (.opw (op ++ unit) :: ws) = .refused .unitRange := by
  rw [decode_append, h, checkUnit_unitRange rest hu]

theorem decodeOp_reserved {op : Nat} (unit : Nat) (ws : List PortWord)
    (h : op ∉ [0x10, 0x11, 0x12, 0x13, 0x20, 0x21, 0x22, 0x23, 0x30, 0x31, 0x40, 0x41, 0x42, 0x43, 0x44]) :
    decodeOp op unit ws = .refused .reservedOp := by
  unfold decodeOp
  split
  case h_16 => rfl
  all_goals exact absurd (by decide) h

theorem cfgOperands_reservedBits (f : Mode → Order → Word32 → Instr) {c : Word32} (freq : Word32)
    (rest : List PortWord) (h : c.extractLsb' 3 29 ≠ 0) :
    cfgOperands f (.opnd c :: .opnd freq :: rest) = .refused .reservedBits :=
  if_neg h

theorem byteOperand_reservedBits (f : Byte → Instr) {w : Word32} (rest : List PortWord)
    (h : w.extractLsb' 8 24 ≠ 0) : byteOperand f (.opnd w :: rest) = .refused .reservedBits :=
  if_neg h

/-- Whatever a header word is read as, it is for the handle beside it. -/
theorem decodeFrame_unit (cfg : Config) (h : Nat) (w : Word32) (rest : List PortWord) :
    ∃ i r, decodeFrame h w rest = .ok i r ∧ i.unitInRange cfg = unitOk h cfg.devs.length := by
  unfold decodeFrame
  split <;> exact ⟨_, _, rfl, rfl⟩

/-- Settles O4: the reason is that of the operand words where they have reserved bits, else that of the unit. -/
theorem reservedEncodingsRefused : Obligations.ReservedEncodingsRefused := by
  unfold Obligations.ReservedEncodingsRefused
  refine ⟨fun cfg w rest hop => ?_, fun cfg unit c freq rest hc => ?_, fun cfg op unit v rest hop hv => ?_,
    fun cfg op unit rest hunit => ?_, fun cfg op unit w1 w2 w3 rest hunit => ?_, fun cfg op unit v rest hunit => ?_,
    fun cfg unit mode order freq rest hunit => ?_, fun cfg h w rest hunit => ?_⟩
  · rw [decode, decodeOp_reserved _ _ hop]
    rfl
  · rw [decode_append]
    exact congrArg (checkUnit cfg) (cfgOperands_reservedBits _ freq rest hc)
  · rw [decode_append]
    simp only [List.mem_cons, List.not_mem_nil, or_false] at hop
    obtain rfl | rfl | rfl := hop <;> exact congrArg (checkUnit cfg) (byteOperand_reservedBits _ rest hv)
  · simp only [List.mem_cons, List.not_mem_nil, or_false] at hunit
    obtain ⟨rfl, hle⟩ | ⟨rfl | rfl, hle⟩ | ⟨rfl | rfl | rfl | rfl, hle⟩ := hunit <;>
      exact decode_append_unitRange rfl (unitOk_false (.inl hle))
  · simp only [List.mem_cons, List.not_mem_nil, or_false] at hunit
    obtain ⟨rfl, hle⟩ | ⟨rfl, hle⟩ | ⟨rfl | rfl, hle⟩ := hunit <;>
      exact decode_append_unitRange rfl (unitOk_false (.inl hle))
  · obtain ⟨rfl, hle⟩ | ⟨rfl, hle⟩ | ⟨rfl, hle⟩ := hunit <;>
      exact decode_append_unitRange (byteOperand_byteWord _ v rest) (unitOk_false (.inl hle))
  · exact decode_append_unitRange (cfgOperands_cfgWord _ mode order freq rest) (unitOk_false (.inl hunit))
  · obtain ⟨i, r, hd, hu⟩ := decodeFrame_unit cfg h w rest
    rw [decode, hd, checkUnit_unitRange r (hu.trans (unitOk_false hunit))]

/-- Settles O1: fixed words, so the decoder is run on each. -/
theorem specWordsDecode : Obligations.SpecWordsDecode := by
  unfold Obligations.SpecWordsDecode
  decide

end Sys2Proof
end

section
/-! PROOF. O44, O45: the bytes of a header word on the wire, sent as one wire word or with four `DXFER` (R94, R97). -/

namespace Sys2Proof.Machine

open State

/-! ### Bytes sent by operations -/

/-- The end of an operation is no part of the wire. -/
theorem SentBytes.finish {s t : State} {b : Nat} {vs rs : List Byte} (h : SentBytes s t b vs rs) (r : Result) :
    SentBytes s (t.finish r) b vs rs :=
  ⟨h.trace, h.slaves, h.pins, h.path⟩

/-- Bytes sent one after the other under the same session are sent together (R68). -/
theorem SentBytes.append {s t u : State} {b : Nat} {vs ws rs us : List Byte} (h : SentBytes s t b vs rs)
    (k : SentBytes t u b ws us) (hcfg : t.cfg = s.cfg) (hbuses : t.buses = s.buses) :
    SentBytes s u b (vs ++ ws) (rs ++ us) := by
  have hbus : t.bus b = s.bus b := by simp only [State.bus, hbuses]
  obtain ⟨es, htrace, hes⟩ := h.trace
  obtain ⟨fs, htrace', hfs⟩ := k.trace
  rw [hcfg, hbus] at hfs
  refine ⟨⟨es ++ fs, ?_, hes.append hfs⟩, ?_, fun p hp => ?_, k.path⟩
  · rw [htrace', htrace, List.append_assoc]
  · rw [k.slaves, h.slaves, hcfg, hbus, bytesHeard_append, hearAll_append]
  · rw [k.pins p (by rwa [hcfg]), h.pins p hp]

/-- Sending bytes leaves a transaction open (R183). -/
theorem DevReady.sent {s t : State} {h : Nat} {vs rs : List Byte} (d : DevReady s h)
    (k : Sent s t (s.cfg.busOf h) vs rs) : DevReady t h := by
  have hcs : t.cs h = s.cs h := by
    rw [State.cs, k.wire.cfg]
    exact congrArg Pin.lvl (k.bytes.pins _ fun _ _ _ hb => (Config.wf_cs_pins d.wf d.inRange hb).2.1)
  refine ⟨?_, ?_, ?_, ?_, ?_, k.bytes.path⟩
  · rw [k.wire.cfg]; exact d.wf
  · rw [k.wire.cfg]; exact d.inRange
  · rw [k.wire.cfg, k.wire.bus, k.wire.cur]; exact d.owner
  · rw [hcs, k.wire.cfg]; exact d.selected
  · rw [k.wire.cfg]; exact k.clock

theorem DevReady.finish {s : State} {h : Nat} (d : DevReady s h) (r : Result) : DevReady (s.finish r) h :=
  ⟨d.wf, d.inRange, d.owner, d.selected, d.clock, d.path⟩

theorem exec_dxfer {s : State} {h : Nat} (d : DevReady s h) (v : Byte) : exec (.dxfer h v) s =
    .next ((s.exchange (s.cfg.busOf h) v).2.finish (.byte (s.exchange (s.cfg.busOf h) v).1)) := by
  simp [exec, execDxfer, inRange, d.inRange, devFault_ready d]

/-- One `DXFER` inside a transaction sends its byte, and another can follow it (R183). -/
theorem exec_dxfer_sends {s : State} {h : Nat} (d : DevReady s h) (v : Byte) :
    ∃ r t, exec (.dxfer h v) s = .next t ∧ SentBytes s t (s.cfg.busOf h) [v] [r] ∧ DevReady t h ∧
      t.cfg = s.cfg ∧ t.buses = s.buses := by
  have k := sent_exchange s (s.cfg.busOf h) v d.wf d.clock
  exact ⟨_, _, exec_dxfer d v, k.bytes.finish _, (d.sent k).finish _, k.wire.cfg, k.wire.buses⟩

/-- Settles O44: the four bytes of a wire word (`wireBytes_eq`) are one block of exchanges. -/
theorem wireWordsSendFourBytes : Obligations.WireWordsSendFourBytes := by
  unfold Obligations.WireWordsSendFourBytes
  intro s h a d i opc hi
  have k := sent_exchangeAll (s.cfg.busOf h) (wireBytes opc a) s d.wf d.clock d.path
  refine ⟨_, _, exec_wire d a i opc hi, answered_finish k.wire .none,
    length_exchangeAll (s.cfg.busOf h) (wireBytes opc a) s, ?_, k.wire.buses, k.wire.strs, k.wire.bufs⟩
  rw [← wireBytes_eq]
  exact k.bytes.finish .none

/-- A header word with an opcode byte of no row of R96 is read as the four `DXFER` of its bytes (R97). -/
theorem decodeFrame_unnamed (h : Nat) {w : Word32} (more : List PortWord)
    (hopc : w.extractLsb' 24 8 ∉ [0x03#8, 0x02#8, 0x05#8, 0x01#8]) :
    decodeFrame h w more = .ok (.dxfer h (w.extractLsb' 24 8))
      (encode (.dxfer h (w.extractLsb' 16 8)) ++ encode (.dxfer h (w.extractLsb' 8 8)) ++
        encode (.dxfer h (w.extractLsb' 0 8)) ++ more) := by
  unfold decodeFrame
  split
  case h_5 => rfl
  all_goals
    rename_i hrow
    exact absurd (by simp [← BitVec.toNat_inj, hrow]) hopc

/-- Settles O45: each of the four `DXFER` sends its byte and leaves the transaction open for the next. -/
theorem unnamedOpcodeIsTransmitted : Obligations.UnnamedOpcodeIsTransmitted := by
  unfold Obligations.UnnamedOpcodeIsTransmitted
  intro s h w more d hh hopc
  have hu : unitOk h s.cfg.devs.length = true := by simp [unitOk, d.inRange, hh]
  refine ⟨decode_frame hu (decodeFrame_unnamed h more hopc), ?_⟩
  obtain ⟨r1, s1, hx1, hs1, d1, hc1, hb1⟩ := exec_dxfer_sends d (w.extractLsb' 24 8)
  obtain ⟨r2, s2, hx2, hs2, d2, hc2, hb2⟩ := exec_dxfer_sends d1 (w.extractLsb' 16 8)
  obtain ⟨r3, s3, hx3, hs3, d3, hc3, hb3⟩ := exec_dxfer_sends d2 (w.extractLsb' 8 8)
  obtain ⟨r4, t, hx4, hs4, -, -, -⟩ := exec_dxfer_sends d3 (w.extractLsb' 0 8)
  rw [hc3, hc2, hc1] at hs4
  rw [hc2, hc1] at hs3
  rw [hc1] at hs2
  exact ⟨[r1, r2, r3, r4], s1, s2, s3, t, hx1, hx2, hx3, hx4, rfl,
    hs1.append (hs2.append (hs3.append hs4 hc3 hb3) hc2 hb2) hc1 hb1⟩

end Sys2Proof.Machine
end

section
/-! PROOF. O17, O8, O19, O7: a caller that waits for a bus. While the bus is held it only waits, and once the bus is free
it takes the piece it would have taken at once (R122, R128, R256). -/

namespace Sys2Proof.Machine

open State

/-- A caller that waits for a held bus moves nothing: either another caller has taken the step, or the step has left every
caller's record and every bus as they were (R122). -/
theorem step_of_waiter_held {s t : State} (hi : Inv s) (h : step s = .next t) {c b : Nat}
    (hwait : s.waitsOn c b = true) (hheld : (s.bus b).held = true) :
    t.cur ≠ c ∨ t.callers = s.callers ∧ t.buses = s.buses := by
  obtain rfl | ⟨_, rest, -, rfl⟩ | ⟨c', rest, u, -, -, hu, hturn, ⟨rfl, rfl⟩ | ⟨i, -, e, hstart⟩⟩ :=
    step_effect hi h
  · exact .inr ⟨rfl, rfl⟩
  · exact .inr ⟨rfl, rfl⟩
  · exact .inr ⟨rfl, rfl⟩
  · refine .inl fun hc => ?_
    have hcur : c' = c := hturn.symm.trans ((piece_of_effect hu e).cur.symm.trans hc)
    obtain ⟨op, a, hst⟩ := waitsOn_iff.1 hwait
    rw [hcur] at hstart
    obtain ⟨b', a', -, hst', hfree⟩ | ⟨hnot, -⟩ := hstart
    · rw [hst] at hst'
      cases hst'
      rw [hheld] at hfree
      cases hfree
    · exact hnot b op a hst

/-- To be blocked on oneself is a matter of one's own record and of the bus alone. -/
theorem selfBlocked_congr {s t : State} {c b : Nat} (hcaller : t.caller c = s.caller c) (hbus : t.bus b = s.bus b)
    (h : s.selfBlocked c b) : t.selfBlocked c b := by
  simpa only [State.selfBlocked, State.waitsOn, hcaller, hbus] using h

/-- Settles O17: the blocked caller's own step is a hold step (`step_of_waiter_held`), and a step of another caller touches
neither its record (O13) nor a bus that it holds (O15). -/
theorem reentrantAcquireNeverEnds : Obligations.ReentrantAcquireNeverEnds := by
  unfold Obligations.ReentrantAcquireNeverEnds
  intro s t c b hi _ hblocked h
  obtain ⟨hwait, hheld, howner⟩ := hblocked
  have hsame : t.caller c = s.caller c ∧ t.bus b = s.bus b := by
    obtain hother | ⟨hcallers, hbuses⟩ := step_of_waiter_held hi h hwait hheld
    · obtain ⟨-, -, -, -, hcallers⟩ := stepAppendsOnly s t hi h
      obtain ⟨hbus, -⟩ := mutualExclusion s t b c hi h howner hother
      exact ⟨hcallers c hother.symm, hbus⟩
    · simp only [State.caller, State.bus, hcallers, hbuses, and_self]
  exact ⟨selfBlocked_congr hsame.1 hsame.2 ⟨hwait, hheld, howner⟩, hsame⟩

/-- Settles O8: the waiting caller's piece on a free bus is the grant piece (`step_waiting`), and so is what the operation
does when it reaches its acquire there (`exec_grant`). -/
theorem grantAfterWaitIsImmediateGrant : Obligations.GrantAfterWaitIsImmediateGrant := by
  unfold Obligations.GrantAfterWaitIsImmediateGrant
  rintro s c rest b op _ hsched hst hwf hb hfree hreach rfl
  obtain ⟨hunit, -⟩ := Bool.and_eq_true_iff.1 hwf
  have hresume : resume b op (operandAddr s op) (s.turn c rest) = grantPiece op (operandAddr s op) (s.turn c rest) := by
    have hfree' : ((s.turn c rest).bus b).held = false := hfree
    simp [resume, hfree']
  rw [step_waiting hsched hst, hresume]
  exact (exec_grant (s := s.turn c rest) hunit hreach hb hfree).symm

/-- Settles O19: on a held bus the operation ends in `wait` (`exec_wait`), which writes its caller's record alone. -/
theorem acquireOfHeldBusWaits : Obligations.AcquireOfHeldBusWaits := by
  unfold Obligations.AcquireOfHeldBusWaits
  intro s i b hunit hreach hb hheld
  have hwait : (s.wait b i (operandAddr s i)).waitsOn s.cur b = true :=
    waitsOn_iff.2 ⟨i, operandAddr s i, by simp [State.wait]⟩
  exact ⟨_, exec_wait hunit hreach hb hheld, rfl, fun howner => ⟨hwait, hheld, howner⟩⟩

/-- Settles O7: a waiting caller's piece on a held bus is empty, and so is the piece of a caller whose port is; with an empty
schedule no piece is taken. -/
theorem holdStepChangesNothing : Obligations.HoldStepChangesNothing := by
  unfold Obligations.HoldStepChangesNothing
  refine ⟨fun s c rest b op a hsched hst hheld => ?_, fun s c rest hsched hnot hport => ?_,
    fun s hwf hshape haccepted hsched => ?_⟩
  · rw [step_waiting hsched hst]
    exact congrArg Host.Outcome.next (if_pos hheld)
  · have hdecode : decode (s.turn c rest).cfg ((s.turn c rest).caller (s.turn c rest).cur).port = .empty :=
      congrArg (decode s.cfg) hport
    rw [step_notWaiting hsched hnot, fetchAndRun, hdecode]
    rfl
  · simp [step, hwf, hshape, runAccepted, haccepted, runScheduled, hsched]

end Sys2Proof.Machine
end

section
/-! PROOF. O21, O22, O23: how a session begins, on either backend, and how it ends (R121, R123, R126, R142, R145). -/

namespace Sys2Proof.Machine

open State

theorem exec_bacq {s : State} {b : Nat} (mode : Mode) (order : Order) (freq : Word32) (hlt : b < s.cfg.buses.length)
    (hfree : (s.bus b).held = false) :
    exec (.bacq b mode order freq) s = .next ((s.openBus b mode order freq).finish .none) := by
  simp [exec, execBacq, inRange, hlt, acquire, hfree, grantBacq]

theorem SessionOpened.answered {s t : State} {b : Nat} {mode : Mode} {order : Order} {freq : Word32}
    (o : SessionOpened s t b mode order freq) (r : Result) : Answered s (t.finish r) r :=
  answered_of_running r o.cfg o.faults o.lines o.sched o.cur o.callers

/-- `SCALE` of a software bus is the uninterpreted `SWSCALE` (R131, log 16). -/
theorem scaleOf_sw {cfg : Config} {b sck mosi miso : Nat} (hb : cfg.backend b = .sw sck mosi miso) (freq : Word32) :
    scaleOf cfg b freq = Config.swScale freq := by
  simp only [scaleOf, hb]

/-- `SCALE` of a hardware bus is the divisor selected from its set (R131, R142). -/
theorem scaleOf_hw {cfg : Config} {b sysclk : Nat} {divset : List Nat} (hb : cfg.backend b = .hw sysclk divset)
    (freq : Word32) : scaleOf cfg b freq = selectDivisor sysclk divset freq.toNat := by
  simp only [scaleOf, hb]

/-- A hardware bus has no pin to set up when its session begins (R145). -/
theorem openBus_hw {s : State} {b sysclk : Nat} {divset : List Nat} (hb : s.cfg.backend b = .hw sysclk divset)
    (mode : Mode) (order : Order) (freq : Word32) : s.openBus b mode order freq =
      (s.setBus b ⟨true, some s.cur, mode, order, scaleOf s.cfg b freq⟩).setStatus .running := by
  simp only [openBus, backendConfig, setBus_cfg, hb]

/-- Settles O21: what opening a session does (`openBus_spec`), read on a software bus. -/
theorem bacqOpensSoftwareSession : Obligations.BacqOpensSoftwareSession := by
  unfold Obligations.BacqOpensSoftwareSession
  intro s b sck mosi miso mode order freq hb hfree
  have o := openBus_spec s b mode order freq
  have hbus := o.bus
  have htrace := o.trace
  have hslaves := o.slaves
  simp only [hb, scaleOf_sw hb] at hbus htrace hslaves
  refine ⟨_, exec_bacq mode order freq (Config.backend_mem hb).1 hfree, o.answered .none, hbus,
    fun b' hne => o.otherBus hne, htrace, hslaves, pin_ext (o.dirs sck) (o.clock sck mosi miso hb), fun p hp => ?_,
    o.strs, o.bufs, o.path⟩
  refine o.pins p fun sck' mosi' miso' hb' => ?_
  rw [hb] at hb'
  cases hb'
  exact hp

/-- Settles O22: opening a session on a hardware bus touches no wire (`openBus_hw`), and the divisor it selects is the one
R142 and R143 ask for (`selectDivisor_spec`). -/
theorem bacqSelectsDivisor : Obligations.BacqSelectsDivisor := by
  unfold Obligations.BacqSelectsDivisor
  intro s b sysclk divset mode order freq hwf hlt hb hfree
  have o := openBus_spec s b mode order freq
  have hwire : SameWire s (s.openBus b mode order freq) := by
    rw [openBus_hw hb]
    exact ⟨rfl, rfl, rfl, rfl⟩
  obtain ⟨-, hdivset, -⟩ := Config.wf_hw hwf hlt hb
  obtain ⟨hmem, hleast, hlargest⟩ := selectDivisor_spec sysclk freq.toNat divset hdivset
  refine ⟨_, _, exec_bacq mode order freq hlt hfree, o.answered .none, ?_, fun b' hne => o.otherBus hne, hmem, hleast,
    hlargest, ⟨hwire.pins, hwire.path, hwire.trace, hwire.slaves⟩, o.strs, o.bufs⟩
  rw [← scaleOf_hw hb]
  exact o.bus

/-- No handle of a bus is selected when each of its selects is idle (R30). -/
theorem anySelected_of_idle {s : State} {b : Nat}
    (h : ∀ g, g < s.cfg.devs.length → s.cfg.busOf g = b → s.cs g = (s.cfg.dev g).csIdle) : s.anySelected b = false := by
  simp only [anySelected, List.any_eq_false, List.mem_range, Bool.and_eq_true, decide_eq_true_eq, not_and,
    Bool.not_eq_true, selected_eq_false]
  exact h

/-- Settles O23: the precondition of the release holds, and the release writes the bus and its caller's record. -/
theorem brelClosesSession : Obligations.BrelClosesSession := by
  unfold Obligations.BrelClosesSession
  intro s b hlt howner hidle
  have hfault : s.relFault b = none := by
    simp [relFault, (holds_iff s s.cur b).2 howner, anySelected_of_idle hidle]
  simp only [exec, execBrel, inRange, if_pos hlt, hfault]
  rfl

end Sys2Proof.Machine
end

section
/-! PROOF. O30, O31, O29: a block transfer as the loop of R125, as the bytes it sends and stores, and as a no-op. -/

namespace Sys2Proof.Machine

open State

/-- The state after the first `i` bytes of a block, their replies stored: where the loop of R125 stands after `i` rounds. -/
def blockAfter (s : State) (b : Nat) (d r : Option BufRef) (n : Word32) (i : Nat) : State :=
  (exchangeAll b ((s.blockOut d r n).take i) s).2.store d (exchangeAll b ((s.blockOut d r n).take i) s).1

theorem blockAfter_zero (s : State) (b : Nat) (d r : Option BufRef) (n : Word32) : blockAfter s b d r n 0 = s :=
  store_nil s d

section Block

variable {s : State} {d r : Option BufRef} {n : Word32} (hr : s.short r n = false) (h : d ≠ none ∨ r ≠ none)
include hr h

theorem blockAfter_all (b : Nat) : blockAfter s b d r n n.toNat = s.transferBlock b d r n := by
  rw [blockAfter, List.take_of_length_le (blockOut_length s d r n hr h).le]
  rfl

/-- The bytes of a block are the source bytes in order (R125). -/
theorem blockOut_eq_sourceBytes : s.blockOut d r n = (List.range n.toNat).map (s.sourceByte r) := by
  refine List.ext_getElem? fun i => ?_
  by_cases hi : i < n.toNat
  · rw [blockOut_get s d r n h hr i hi]
    simp [hi]
  · rw [List.getElem?_eq_none, List.getElem?_eq_none]
    · simpa using hi
    · simpa [blockOut_length s d r n hr h] using hi

/-- `k` rounds of the loop from index `i` on. -/
theorem blockLoop_blockAfter (b : Nat) (hd : s.short d n = false) (k i : Nat) (hk : i + k ≤ n.toNat) :
    blockLoop b d r k i (blockAfter s b d r n i) = blockAfter s b d r n (i + k) := by
  induction k generalizing i with
  | zero => rfl
  | succ k ih =>
    have hround : blockBody b d r i (blockAfter s b d r n i) = blockAfter s b d r n (i + 1) :=
      blockBody_step s b d r n hd hr h i (by omega)
    rw [blockLoop, hround, ih (i + 1) (by omega), Nat.add_right_comm i 1 k, Nat.add_assoc]

end Block

/-- Settles O30: the block is where the loop stands after all its rounds (`blockLoop_blockAfter`). -/
theorem blockIsTheByteLoop : Obligations.BlockIsTheByteLoop := by
  unfold Obligations.BlockIsTheByteLoop
  intro s b d r n hlt howner hd hr h
  have hloop := blockLoop_blockAfter hr h b hd n.toNat 0 (Nat.zero_add _).le
  rw [blockAfter_zero, Nat.zero_add, blockAfter_all hr h b] at hloop
  exact ⟨_, exec_bxblk hlt howner hd hr, by rw [hloop]⟩

/-- Where replies go does not matter to the wire. -/
theorem SentBytes.store {s t : State} {b : Nat} {vs rs : List Byte} (k : SentBytes s t b vs rs) (d : Option BufRef)
    (bs : List Byte) : SentBytes s (t.store d bs) b vs rs := by
  obtain ⟨bufs, he, -⟩ := store_fields t d bs
  rw [he]
  exact ⟨k.trace, k.slaves, k.pins, k.path⟩

/-- A buffer that replies are not stored in is as before. -/
theorem store_buf_ne (s : State) {d : Option BufRef} {k : BufRef} (bs : List Byte) (hk : d ≠ some k) :
    (s.store d bs).buf k = s.buf k := by
  cases d with
  | none => rfl
  | some dest => rw [store_buf, if_neg fun he => hk (congrArg some he.symm)]

/-- Storing replies changes buffers alone. -/
theorem answered_finish_store {s t : State} (k : WireOnly s t) (d : Option BufRef) (bs : List Byte) (r : Result) :
    Answered s ((t.store d bs).finish r) r := by
  obtain ⟨bufs, he, -⟩ := store_fields t d bs
  rw [he]
  exact answered_of_same r k.cfg k.faults k.lines k.sched k.cur k.callers

theorem store_buses_strs (s : State) (d : Option BufRef) (bs : List Byte) :
    (s.store d bs).buses = s.buses ∧ (s.store d bs).strs = s.strs := by
  obtain ⟨bufs, he, -⟩ := store_fields s d bs
  rw [he]
  exact ⟨rfl, rfl⟩

/-- Settles O31: the bytes go out as one list (`sent_exchangeAll`), and the replies to them are stored. -/
theorem blockTransfersBytes : Obligations.BlockTransfersBytes := by
  unfold Obligations.BlockTransfersBytes
  intro s b d r n ready hd hr h
  have hlen : (exchangeAll b (s.blockOut d r n) s).1.length = n.toNat := by
    rw [length_exchangeAll, blockOut_length s d r n hr h]
  have k := sent_exchangeAll b (s.blockOut d r n) s ready.wf ready.clock ready.path
  obtain ⟨hbuses, hstrs⟩ :=
    store_buses_strs (exchangeAll b (s.blockOut d r n) s).2 d (exchangeAll b (s.blockOut d r n) s).1
  refine ⟨_, _, exec_bxblk ready.inRange ready.owner hd hr, answered_finish_store k.wire d _ .none, hlen, ?_, ?_,
    fun q hq => (store_buf_ne _ _ hq).trans (k.wire.buf q), hbuses.trans k.wire.buses, hstrs.trans k.wire.strs⟩
  · rw [← blockOut_eq_sourceBytes hr h]
    exact (k.bytes.store d _).finish .none
  · rintro dest rfl
    refine (store_buf _ dest dest _).trans ?_
    rw [if_pos rfl, hlen, k.wire.buf]

/-- No buffer is too short for a block that transfers nothing (R244). -/
theorem short_of_empty (s : State) {d r : Option BufRef} {n : Word32} (h : n = 0 ∨ (d = none ∧ r = none)) :
    s.short d n = false ∧ s.short r n = false := by
  obtain rfl | ⟨rfl, rfl⟩ := h
  · exact ⟨short_zero s d, short_zero s r⟩
  · exact ⟨rfl, rfl⟩

/-- Settles O29: the checks pass, and there is nothing to transfer (`transferBlock_noop`). -/
theorem emptyBlockDoesNothing : Obligations.EmptyBlockDoesNothing := by
  unfold Obligations.EmptyBlockDoesNothing
  intro s d r n hempty
  obtain ⟨hd, hr⟩ := short_of_empty s hempty
  refine ⟨fun b hlt howner => ?_, fun g hlt howner hsel => ?_⟩
  · rw [exec_bxblk hlt howner hd hr, transferBlock_noop s b d r n hempty]
    rfl
  · rw [exec_dxblk hlt howner hsel hd hr, transferBlock_noop s _ d r n hempty]
    rfl

end Sys2Proof.Machine
end

section
/-! PROOF. O25, O28: a byte on a hardware bus (R79, R146), and that its wire is the software backend's (R147). -/

namespace Sys2Proof.Machine

open State

theorem exchange_hw {s : State} {b sysclk : Nat} {divset : List Nat} (hb : s.cfg.backend b = .hw sysclk divset)
    (v : Byte) : s.exchange b v = s.hwExchange b v := by
  simp only [exchange, hb]

/-- On a loop the samples are the bits sent, so the byte they make is the byte sent (R76, R167). -/
theorem inAfter_samples_loop {s : State} {b : Nat} (hl : s.line b = .loop) {mode : Mode} {order : Order} {v : Byte}
    {f : Nat → Level} (hf : ∀ k, k < 8 → f k = s.sampleAt b mode order v f k) : inAfter order 0 f 8 = v := by
  have hsent : ∀ k, k < 8 → f k = sentBit order v k :=
    fun k hk => (hf k hk).trans (sampleAt_loop hl mode order v f k)
  rw [inAfter_congr order 0 hsent, inAfter_sentBit]

/-- Settles O25: the byte is that of the wire (`hwWire_spec`), the chips hear it (`sent_exchange`), and nothing else
happens but the event `XCH`. -/
theorem bxferOnHardwareBus : Obligations.BxferOnHardwareBus := by
  unfold Obligations.BxferOnHardwareBus
  intro s b sysclk divset v ready hb
  obtain ⟨f, hsamples, hbyte, -⟩ := hwWire_spec s b v
  have sent := sent_exchange s b v ready.wf ready.clock
  have hexec := exec_bxfer v ready.inRange ready.owner
  rw [exchange_hw hb] at hexec sent
  refine ⟨f, _, _, hexec, answered_finish sent.wire _, hsamples, ?_, rfl, fun hl => ?_, sent.bytes.slaves,
    rfl, rfl, rfl, rfl, rfl⟩
  · exact (congrArg BitVec.toNat hbyte).trans (inAfter_eight (s.bus b).order f)
  · exact hbyte.trans (inAfter_samples_loop hl hsamples)

/-- Two machines with one session on bus `b` and one environment (handles, lines, trace, chips) exchange a byte alike,
whatever their backends: the answers of the environment are determined one after the other (`samples_unique`). -/
theorem exchange_sameEnv {s t : State} {b : Nat} (v : Byte) (hbus : t.bus b = s.bus b)
    (hd : t.cfg.devs = s.cfg.devs) (hl : t.lines = s.lines) (htr : t.trace = s.trace) (hx : t.slaves = s.slaves)
    (hs : ∀ sck mosi miso, s.cfg.backend b = .sw sck mosi miso → sck ≠ mosi ∧ s.lvl sck = (s.bus b).mode.cpol)
    (ht : ∀ sck mosi miso, t.cfg.backend b = .sw sck mosi miso → sck ≠ mosi ∧ t.lvl sck = (t.bus b).mode.cpol) :
    (t.exchange b v).1 = (s.exchange b v).1 ∧ (t.exchange b v).2.slaves = (s.exchange b v).2.slaves := by
  obtain ⟨f, hf, hbyte, hslaves⟩ := exchange_spec s b v hs
  obtain ⟨g, hg, hbyte', hslaves'⟩ := exchange_spec t b v ht
  rw [hbus] at hg hbyte' hslaves'
  have hgf : ∀ k, k < 8 → g k = f k :=
    samples_unique (fun k hk => (hg k hk).trans (sampleAt_cfg hd hl htr hx b _ _ v g k)) hf
  constructor
  · rw [hbyte, hbyte', inAfter_congr _ 0 hgf]
  · rw [hslaves, hslaves', hx, hearAll_cfg s.cfg t.cfg hd]
    exact hearAll_bitsEvents_congr _ _ _ _ _ _ _ _ _

theorem backend_set {cfg : Config} {b : Nat} (hlt : b < cfg.buses.length) (be : Backend) :
    Config.backend { cfg with buses := cfg.buses.set b be } b = be := by
  simp [Config.backend, hlt]

/-- Settles O28: the two machines share session and environment (`exchange_sameEnv`), and the software one has an idle
clock on a pin apart from its output line. -/
theorem backendsAreIndistinguishable : Obligations.BackendsAreIndistinguishable := by
  unfold Obligations.BackendsAreIndistinguishable
  intro s b sck mosi miso sysclk divset v hlt hb howner hne hclock s'
  have hb' : s'.cfg.backend b = .sw sck mosi miso := backend_set hlt _
  have hlt' : b < s'.cfg.buses.length := by simpa [s'] using hlt
  obtain ⟨hbyte, hslaves⟩ := exchange_sameEnv (s := s) (t := s') v rfl rfl rfl rfl rfl
    (fun _ _ _ h => by rw [hb] at h; cases h) (fun _ _ _ h => by rw [hb'] at h; cases h; exact ⟨hne, hclock⟩)
  have hresult := (answered_finish (wireOnly_exchange s b v) (.byte (s.exchange b v).1)).caller
  have hresult' := (answered_finish (wireOnly_exchange s' b v) (.byte (s'.exchange b v).1)).caller
  refine ⟨_, _, _, exec_bxfer v hlt howner, exec_bxfer v hlt' howner, congrArg Caller.result hresult, ?_, hslaves⟩
  rw [← hbyte]
  exact congrArg Caller.result hresult'

end Sys2Proof.Machine
end

section
/-! PROOF. O14, O24, O26: no step turns a pin around (R174), and a byte on a software bus: its 32 events, its samples and the
byte they make (R161 to R170), and that a loop returns it wherever the clock is (R167). -/

namespace Sys2Proof.Machine

open State

/-- Settles O14: a step is one piece of a caller (`step_piece`), and no piece changes a direction (`Piece.dirs`). -/
theorem stepKeepsDirections : Obligations.StepKeepsDirections := by
  unfold Obligations.StepKeepsDirections
  intro s t hi h p
  obtain ⟨_, _, _, -, piece⟩ := step_piece hi h
  exact piece.dirs p

theorem exchange_sw {s : State} {b sck mosi miso : Nat} (hb : s.cfg.backend b = .sw sck mosi miso) (v : Byte) :
    s.exchange b v = s.swExchange b sck mosi v := by
  simp only [exchange, hb]

/-- The last bit sent is the least significant one under `MSB`, the most significant one under `LSB` (R165, R170). -/
theorem sentBit_last (order : Order) (v : Byte) : sentBit order v 7 = match order with
    | .msb => v.getLsbD 0
    | .lsb => v.getLsbD 7 := by
  cases order <;> rfl

section ByteDone

variable {s t : State} {b mosi : Nat} {v r : Byte} {f : Nat → Level} (h : ByteDone s b mosi v f r t)
include h

theorem ByteDone.pin_mosi : t.pin mosi = ⟨(s.pin mosi).dir, sentBit (s.bus b).order v 7⟩ :=
  pin_ext (h.dir mosi) ((h.lvl mosi).trans (if_pos rfl))

theorem ByteDone.pin_other {p : Nat} (hp : p ≠ mosi) : t.pin p = s.pin p :=
  pin_ext (h.dir p) ((h.lvl p).trans (if_neg hp))

end ByteDone

/-- Settles O24: the exchange is that of the software backend (`swExchange_spec`), whose eight samples make the byte of R166
(`ByteDone.assembled`); the end of the operation touches its caller alone. -/
theorem bxferOnSoftwareBus : Obligations.BxferOnSoftwareBus := by
  unfold Obligations.BxferOnSoftwareBus
  intro s b sck mosi miso v ready hb
  have hclock := (clockIdle_iff s b).1 ready.clock sck mosi miso hb
  obtain ⟨f, byte⟩ := swExchange_spec s b sck mosi v (Config.wf_bus_pins ready.wf hb).1 hclock
  have hexec := exec_bxfer v ready.inRange ready.owner
  rw [exchange_sw hb] at hexec
  generalize s.swExchange b sck mosi v = z at byte hexec
  exact ⟨f, _, _, hexec, answered_finish byte.wire _, byte.samples, byte.trace, byte.assembled, byte.slaves,
    byte.pin_mosi.trans (congrArg (Pin.mk _) (sentBit_last _ v)), fun p hp => byte.pin_other hp, byte.path,
    byte.wire.buses, byte.wire.strs, byte.wire.bufs⟩

/-- Under `LOOP` a software bus receives the byte it sends, and the levels sampled and sent are its bits in time order,
wherever the clock line stands (R167). -/
theorem swExchange_loop {s : State} {b : Nat} (sck mosi : Nat) (v : Byte) (hl : s.line b = .loop) :
    (s.swExchange b sck mosi v).1 = v ∧ ∃ es, (s.swExchange b sck mosi v).2.trace = s.trace ++ es ∧
      levels es = ((List.range 8).map (sentBit (s.bus b).order v), (List.range 8).map (sentBit (s.bus b).order v)) := by
  obtain ⟨hpath, hevents⟩ := swBitTimes_loop s b sck mosi v hl 8 (le_refl 8)
  rw [swExchange_eq]
  generalize swBitTimes b sck mosi 8 (s.setPath (.sw b v 0 0)) = t at hpath hevents ⊢
  refine ⟨?_, hevents⟩
  simp only [received, hpath]
  exact inAfter_sentBit (s.bus b).order v

/-- Settles O26: the loop returns the byte and its bits (`swExchange_loop`), and the end of the operation gives the byte to
its caller and adds no event. -/
theorem loopbackReturnsTheByte : Obligations.LoopbackReturnsTheByte := by
  unfold Obligations.LoopbackReturnsTheByte
  intro s b sck mosi miso v hlt hb hl howner
  obtain ⟨hbyte, es, htrace, hlevels⟩ := swExchange_loop sck mosi v hl
  have hexec := exec_bxfer v hlt howner
  have hanswered := answered_finish (wireOnly_swExchange s b sck mosi v) (.byte v)
  rw [exchange_sw hb, hbyte] at hexec
  generalize (s.swExchange b sck mosi v).2 = t at htrace hexec hanswered
  exact ⟨_, es, hexec, congrArg Caller.result hanswered.caller, htrace, congrArg Prod.fst hlevels,
    congrArg Prod.snd hlevels⟩

end Sys2Proof.Machine
end

section
/-! PROOF. O32, O33, O34: the device handle. How a transaction begins and ends, and that the transfers inside it are those of
the handle's bus (R181 to R184, R187). -/

namespace Sys2Proof.Machine

open State

theorem TransactionOpened.answered {s t : State} {h : Nat} (o : TransactionOpened s t h) (r : Result) :
    Answered s (t.finish r) r :=
  answered_of_running r o.cfg o.faults o.lines o.sched o.cur o.callers

/-- The clock of a software bus stands at the idle level of the handle's mode (R126). -/
theorem TransactionOpened.clock_sw {s t : State} {h sck mosi miso : Nat} (o : TransactionOpened s t h)
    (hb : s.cfg.backend (s.cfg.busOf h) = .sw sck mosi miso) : t.lvl sck = (s.cfg.dev h).mode.cpol := by
  have hclock := (clockIdle_iff t (s.cfg.busOf h)).1 o.clock sck mosi miso (by rw [o.cfg, hb])
  rwa [o.bus] at hclock

/-- Settles O32: on a free bus the operation opens the transaction (`exec_dacq`), `openDev_spec` says all that this does, and
the end of the operation touches its caller alone. -/
theorem dacqOpensTransaction : Obligations.DacqOpensTransaction := by
  unfold Obligations.DacqOpensTransaction
  intro s h free
  have o := openDev_spec s h free.wf free.inRange ((selected_eq_false s h).2 free.idle)
  exact ⟨_, exec_dacq free, o.answered .none, o.bus, fun b hne => o.otherBus hne, o.trace, o.slaves, o.cs,
    fun _ _ _ hb => o.clock_sw hb, o.pins, o.dirs, o.path, o.strs, o.bufs⟩

/-- What `DREL h` has done to a handle whose select was active (R182). -/
structure TransactionClosed (s t : State) (h : Nat) : Prop where
  cs : t.cs h = (s.cfg.dev h).csIdle
  trace : t.trace = s.trace ++ [.cs h (s.cfg.dev h).csIdle]
  slaves : t.slaves = hearAll s.cfg [.cs h (s.cfg.dev h).csIdle] s.slaves
  bus : t.bus (s.cfg.busOf h) = { s.bus (s.cfg.busOf h) with held := false, owner := none }
  otherBus : ∀ b, b ≠ s.cfg.busOf h → t.bus b = s.bus b
  pins : ∀ p, p ≠ (s.cfg.dev h).csPin → t.pin p = s.pin p
  dirs : ∀ p, (t.pin p).dir = (s.pin p).dir

/-- An active select is toggled to its idle level, and then the bus is freed. -/
theorem closeDev_spec {s : State} {h : Nat} (hsel : s.cs h ≠ (s.cfg.dev h).csIdle) :
    TransactionClosed s (s.closeDev h) h := by
  have hlvl : (!s.cs h) = (s.cfg.dev h).csIdle := not_eq_of_ne hsel
  rw [closeDev_eq]
  constructor
  case cs => rw [setBus_cs, toggleCs_cs, hlvl]
  case trace => rw [setBus_trace, toggleCs_trace, hlvl]
  case slaves => rw [setBus_slaves, toggleCs_slaves, hlvl, hearAll_cons, hearAll_nil]
  case bus => exact bus_setBus_self _ _ _
  case otherBus => exact fun b hne => busOther _ hne
  case pins => exact fun p hp => toggleCs_pin_ne s hp
  case dirs => exact toggleCs_dir s h

/-- Settles O33: inside its transaction the operation closes it (`exec_drel`), `closeDev_spec` says what this does to wires
and buses, and the end of the operation touches its caller alone. -/
theorem drelClosesTransaction : Obligations.DrelClosesTransaction := by
  unfold Obligations.DrelClosesTransaction
  intro s h ready
  have c := closeDev_spec ready.selected
  exact ⟨_, exec_drel ready, answered_of_same .none rfl rfl rfl rfl rfl rfl, c.cs, c.trace, c.slaves, c.bus, c.otherBus,
    c.pins, c.dirs, rfl, rfl, rfl⟩

/-- Settles O34: the caller that holds the transaction holds the handle's bus, so both forms pass their checks, and then they
do the same exchange (`exec_dxfer`, `exec_bxfer`) or the same block (`exec_dxblk`, `exec_bxblk`). -/
theorem deviceTransfersDelegate : Obligations.DeviceTransfersDelegate := by
  unfold Obligations.DeviceTransfersDelegate
  intro s h ready
  have hbus : s.cfg.busOf h < s.cfg.buses.length := Config.wf_bus_lt ready.wf ready.inRange
  refine ⟨fun v => ?_, fun d r n hd hr => ?_⟩
  · exact ⟨_, exec_dxfer ready v, exec_bxfer v hbus ready.owner⟩
  · exact ⟨_, exec_dxblk ready.inRange ready.owner ready.selected hd hr, exec_bxblk hbus ready.owner hd hr⟩

end Sys2Proof.Machine
end

section
/-! PROOF. O36, O37, O38, O39, O35: the memory device. Its operations as one frame each (R203 to R205, R208), and as the
transaction a caller can run by hand (R181, R182). -/

namespace Sys2Proof.Machine

open State

/-! ### The header -/

/-- Settles O35: the last three bytes are slices of the address, and a header sees its low 24 bits alone (`header_congr`). -/
theorem headerLayout : Obligations.HeaderLayout := by
  unfold Obligations.HeaderLayout
  refine ⟨fun opc a => ?_, fun opc a a' h => header_congr opc h, by decide, by decide⟩
  simp [header, Nat.shiftRight_eq_div_pow]

/-! ### A memory operation is a frame -/

/-- What a memory operation has done when it ends after a whole transaction that sent `vs` and received `rs` (R208). -/
structure FrameEnded (s t : State) (h : Nat) (vs rs : List Byte) : Prop where
  answered : Answered s t .none
  framed : Framed s t h vs rs
  dirs : ∀ p, (t.pin p).dir = (s.pin p).dir
  path : t.path = .idle
  strs : t.strs = s.strs

/-- A frame is a whole transaction, and neither storing replies nor the end of the operation touches a wire. -/
theorem FrameDone.ended {s t : State} {h : Nat} {vs rs : List Byte} (k : FrameDone s t h vs rs) (d : Option BufRef)
    (bs : List Byte) : FrameEnded s ((t.store d bs).finish .none) h vs rs := by
  obtain ⟨bufs, he, -⟩ := store_fields t d bs
  rw [he]
  exact ⟨answered_of_running .none k.cfg k.faults k.lines k.sched k.cur k.callers,
    k.framed.congr rfl rfl rfl rfl, k.dirs, k.path, k.strs⟩

/-- `MREAD` with something to read: `FILL` bytes go out in a frame `z`, and their replies are stored (R203). -/
theorem exec_mread_present {s : State} {m : Nat} {d : BufRef} {n : Word32} (a : Word32) (hm : m < s.cfg.mems.length)
    (free : DevFree s (s.cfg.handleOf m)) (hn : n ≠ 0) (hlen : n.toNat ≤ (s.buf d).length) :
    ∃ z, (s.openDev (s.cfg.handleOf m)).frame (s.cfg.handleOf m) (header opRead a)
        (List.replicate n.toNat s.cfg.fill) = z ∧
      exec (.mread m (some d) a n) s = .next ((z.2.store (some d) z.1).finish .none) :=
  ⟨_, rfl, exec_mread hm free (not_short hlen) (not_circuit hn)⟩

/-- `MWRITE` with something to write: the source bytes go out in a frame `z` (R204). -/
theorem exec_mwrite_present {s : State} {m : Nat} {r : BufRef} {n : Word32} (a : Word32) (hm : m < s.cfg.mems.length)
    (free : DevFree s (s.cfg.handleOf m)) (hn : n ≠ 0) (hlen : n.toNat ≤ (s.buf r).length) :
    ∃ z, (s.openDev (s.cfg.handleOf m)).frame (s.cfg.handleOf m) (header opWrite a) ((s.buf r).take n.toNat) = z ∧
      exec (.mwrite m a (some r) n) s = .next (z.2.finish .none) :=
  ⟨_, rfl, exec_mwrite hm free (not_short hlen) (not_circuit hn)⟩

/-- Settles O36: the operation is a frame (`frame_at`), and the replies to its `FILL` bytes are stored (`store_buf`). -/
theorem mreadIsOneFrame : Obligations.MreadIsOneFrame := by
  unfold Obligations.MreadIsOneFrame
  intro s m d a n hm free hn hlen
  obtain ⟨z, hz, hexec⟩ := exec_mread_present a hm free hn hlen
  have k := frame_at free (header opRead a) (List.replicate n.toNat s.cfg.fill)
  have hreplies := length_frame (s.openDev (s.cfg.handleOf m)) (s.cfg.handleOf m) (header opRead a)
    (List.replicate n.toNat s.cfg.fill)
  rw [frameReplies, hz] at k
  rw [hz, List.length_replicate] at hreplies
  have e := k.ended (some d) z.1
  have hbuf : ∀ q, z.2.buf q = s.buf q := fun q => by simp only [State.buf, k.bufs]
  refine ⟨_, z.1, _, hexec, e.answered, ?_, hreplies, e.framed, ?_, fun q hq => ?_, e.dirs, e.path, e.strs⟩
  · exact length_exchangeAll _ (header opRead a) _
  · refine (store_buf z.2 d d z.1).trans ?_
    rw [if_pos rfl, hreplies, hbuf]
  · refine (store_buf z.2 d q z.1).trans ?_
    rw [if_neg hq, hbuf]

/-- Settles O37: the operation is a frame (`frame_at`) whose replies go nowhere. -/
theorem mwriteIsOneFrame : Obligations.MwriteIsOneFrame := by
  unfold Obligations.MwriteIsOneFrame
  intro s m r a n hm free hn hlen
  obtain ⟨z, hz, hexec⟩ := exec_mwrite_present a hm free hn hlen
  have k := frame_at free (header opWrite a) ((s.buf r).take n.toNat)
  have hreplies := length_frameReplies (s.openDev (s.cfg.handleOf m)) (s.cfg.handleOf m) (header opWrite a)
    ((s.buf r).take n.toNat)
  rw [hz] at k
  rw [List.length_take, Nat.min_eq_left hlen] at hreplies
  have e := k.ended none []
  exact ⟨_, _, hexec, e.answered, hreplies, e.framed, e.dirs, e.path, k.bufs, e.strs⟩

/-! ### Nothing to transfer -/

/-- With no count or no buffer a memory operation has no payload (R205). -/
theorem blockOut_nothing (s : State) {d : Option BufRef} {n : Word32} (h : n = 0 ∨ d = none) :
    s.blockOut d none n = [] ∧ s.blockOut none d n = [] := by
  obtain rfl | rfl := h
  · cases d <;> exact ⟨rfl, rfl⟩
  · exact ⟨rfl, rfl⟩

theorem shortCircuit_nothing {cfg : Config} {d : Option BufRef} {n : Word32} (h : n = 0 ∨ d = none) :
    shortCircuit cfg d n = decide (cfg.zcHeader = .skip) := by
  obtain rfl | rfl := h <;> simp [shortCircuit]

theorem frame_no_replies (s : State) (h : Nat) (hdr : List Byte) : (s.frame h hdr []).1 = [] := rfl

/-- Under `send` both operations still run their frame, which is the header alone (R205). -/
theorem exec_header_alone {s : State} {m : Nat} {d : Option BufRef} {n : Word32} (a : Word32)
    (hm : m < s.cfg.mems.length) (free : DevFree s (s.cfg.handleOf m)) (hnothing : n = 0 ∨ d = none)
    (hshort : s.short d n = false) (hcircuit : shortCircuit s.cfg d n = false) :
    exec (.mread m d a n) s = .next (((s.openDev (s.cfg.handleOf m)).frame (s.cfg.handleOf m)
      (header opRead a) []).2.finish .none) ∧
    exec (.mwrite m a d n) s = .next (((s.openDev (s.cfg.handleOf m)).frame (s.cfg.handleOf m)
      (header opWrite a) []).2.finish .none) := by
  obtain ⟨hread, hwrite⟩ := blockOut_nothing s hnothing
  rw [exec_mread hm free hshort hcircuit, exec_mwrite hm free hshort hcircuit, hread, hwrite, frame_no_replies, store_nil]
  exact ⟨rfl, rfl⟩

/-- A frame without payload sends the four bytes of its header. -/
theorem frame_header_alone {s : State} {h : Nat} (free : DevFree s h) (opc : Byte) (a : Word32) :
    ∃ rs, rs.length = 4 ∧ FrameDone s ((s.openDev h).frame h (header opc a) []).2 h (header opc a) rs := by
  have k := frame_at free (header opc a) []
  rw [List.append_nil] at k
  exact ⟨_, length_frameReplies _ h (header opc a) [], k⟩

/-- Settles O38: under `skip` both operations take the short circuit of R205, and under `send` both run the frame of a header
alone. -/
theorem memoryNoOpFollowsZcHeader : Obligations.MemoryNoOpFollowsZcHeader := by
  unfold Obligations.MemoryNoOpFollowsZcHeader
  intro s m d a n hm hnothing
  have hshort : s.short d n = false := (short_of_empty s (hnothing.imp_right fun hd => ⟨hd, hd⟩)).1
  have hcircuit := shortCircuit_nothing (cfg := s.cfg) hnothing
  refine ⟨fun hskip => ?_, fun hsend free => ?_⟩
  · rw [hskip] at hcircuit
    exact ⟨_, exec_mread_skip a hm hshort hcircuit, exec_mwrite_skip a hm hshort hcircuit, rfl⟩
  · rw [hsend] at hcircuit
    obtain ⟨hread, hwrite⟩ := exec_header_alone a hm free hnothing hshort hcircuit
    obtain ⟨rs, hrs, k⟩ := frame_header_alone free opRead a
    obtain ⟨ws, hws, l⟩ := frame_header_alone free opWrite a
    generalize ((s.openDev (s.cfg.handleOf m)).frame (s.cfg.handleOf m) (header opRead a) []).2 = t at hread k
    generalize ((s.openDev (s.cfg.handleOf m)).frame (s.cfg.handleOf m) (header opWrite a) []).2 = u at hwrite l
    have e := k.ended none []
    have f := l.ended none []
    exact ⟨⟨rs, _, hread, e.answered, hrs, e.framed, e.path, k.bufs, e.strs⟩,
      ⟨ws, _, hwrite, f.answered, hws, f.framed, f.path, l.bufs, f.strs⟩⟩

/-! ### The transaction by hand -/

/-- An operation that has ended leaves its mark in its caller's record alone, which no exchange reads. -/
theorem exchangeAll_finish (s : State) (r : Result) (b : Nat) (vs : List Byte) :
    exchangeAll b vs (s.finish r) = ((exchangeAll b vs s).1, (exchangeAll b vs s).2.finish r) := by
  have hwire := wireOnly_exchangeAll b vs s
  rw [State.finish, exchangeAll_setCaller, State.finish, hwire.cur, hwire.caller]

theorem store_finish (s : State) (r : Result) (d : Option BufRef) (bs : List Byte) :
    (s.finish r).store d bs = (s.store d bs).finish r := by
  rw [State.finish, store_setCaller, State.finish, store_cur, store_caller]

theorem finish_cfg (s : State) (r : Result) : (s.finish r).cfg = s.cfg := rfl

theorem closeDev_finish (s : State) (r : Result) (h : Nat) : (s.finish r).closeDev h = (s.closeDev h).finish r := rfl

/-- What a block transfer sends depends on the buffers and on `FILL` alone. -/
theorem blockOut_congr {s t : State} (hcfg : t.cfg = s.cfg) (hbufs : t.bufs = s.bufs) (d r : Option BufRef)
    (n : Word32) : t.blockOut d r n = s.blockOut d r n := by
  cases r with
  | some r => simp only [blockOut, State.buf, hbufs]
  | none => cases d <;> simp only [blockOut, hcfg]

theorem short_congr {s t : State} (hbufs : t.bufs = s.bufs) (d : Option BufRef) (n : Word32) :
    t.short d n = s.short d n := by
  cases d with
  | none => rfl
  | some d =>
    have hbuf : t.buf d = s.buf d := by simp only [State.buf, hbufs]
    exact congrArg (fun bytes : List Byte => decide (bytes.length < n.toNat)) hbuf

/-- Sending a header, transferring a block and closing the transaction is a frame whose replies are stored (R203). -/
theorem closeDev_transferBlock {s t : State} {h : Nat} {hdr : List Byte}
    (ht : (exchangeAll (s.cfg.busOf h) hdr s).2 = t) (d r : Option BufRef) (n : Word32) :
    (t.transferBlock (t.cfg.busOf h) d r n).closeDev h =
      (s.frame h hdr (s.blockOut d r n)).2.store d (s.frame h hdr (s.blockOut d r n)).1 := by
  have hwire := wireOnly_exchangeAll (s.cfg.busOf h) hdr s
  rw [ht] at hwire
  rw [hwire.cfg, transferBlock, closeDev_store, blockOut_congr hwire.cfg hwire.bufs, frame, ht]

theorem transferBlock_finish (s : State) (res : Result) (b : Nat) (d r : Option BufRef) (n : Word32) :
    (s.finish res).transferBlock b d r n = (s.transferBlock b d r n).finish res := by
  have hout : (s.finish res).blockOut d r n = s.blockOut d r n := blockOut_congr rfl rfl d r n
  rw [transferBlock, hout, exchangeAll_finish, store_finish]
  rfl

/-- The caller that has opened a transaction can use it (R183). -/
theorem TransactionOpened.devReady {s t : State} {h : Nat} (o : TransactionOpened s t h) (free : DevFree s h) :
    DevReady t h := by
  constructor
  case wf => rw [o.cfg]; exact free.wf
  case inRange => rw [o.cfg]; exact free.inRange
  case owner => rw [o.cfg, o.bus, o.cur]
  case selected => rw [o.cs, o.cfg]; exact Bool.not_ne_self _
  case clock => rw [o.cfg]; exact o.clock
  case path => rw [o.path, free.path]

theorem DevReady.store {s : State} {h : Nat} (ready : DevReady s h) (d : Option BufRef) (bs : List Byte) :
    DevReady (s.store d bs) h := by
  obtain ⟨bufs, he, -⟩ := store_fields s d bs
  rw [he]
  exact ⟨ready.wf, ready.inRange, ready.owner, ready.selected, ready.clock, ready.path⟩

theorem DevReady.sendAll {s : State} {h : Nat} (ready : DevReady s h) (vs : List Byte) :
    DevReady (exchangeAll (s.cfg.busOf h) vs s).2 h :=
  ready.sent (sent_exchangeAll (s.cfg.busOf h) vs s ready.wf ready.clock ready.path)

/-- `DACQ`, a wire word, `DXBLK` and `DREL` end where one frame ends, its replies stored (R203, R204). -/
theorem exec_transaction {s : State} {h : Nat} (free : DevFree s h) {i : Instr} {opc : Byte} (a : BitVec 24)
    (hi : i = .read h a ∧ opc = 0x03#8 ∨ i = .write h a ∧ opc = 0x02#8 ∨ i = .rdmr h a ∧ opc = 0x05#8 ∨
      i = .wrmr h a ∧ opc = 0x01#8)
    {d r : Option BufRef} {n : Word32} (hd : s.short d n = false) (hr : s.short r n = false) :
    ∃ s1 s2 s3, exec (.dacq h) s = .next s1 ∧ exec i s1 = .next s2 ∧ exec (.dxblk h d r n) s2 = .next s3 ∧
      exec (.drel h) s3 = .next ((((s.openDev h).frame h (wireBytes opc a) (s.blockOut d r n)).2.store d
        ((s.openDev h).frame h (wireBytes opc a) (s.blockOut d r n)).1).finish .none) := by
  have o := openDev_spec s h free.wf free.inRange ((selected_eq_false s h).2 free.idle)
  have hdacq := exec_dacq free
  rw [← blockOut_congr o.cfg o.bufs]
  rw [← short_congr o.bufs] at hd hr
  generalize s.openDev h = u at o hdacq hd hr ⊢
  have opened : DevReady u h := o.devReady free
  have sent : DevReady (exchangeAll (u.cfg.busOf h) (wireBytes opc a) u).2 h := opened.sendAll _
  rw [← short_congr (wireOnly_exchangeAll (u.cfg.busOf h) (wireBytes opc a) u).bufs] at hd hr
  generalize hv : (exchangeAll (u.cfg.busOf h) (wireBytes opc a) u).2 = v at sent hd hr
  have hword : exec i (u.finish .none) = .next (v.finish .none) := by
    rw [exec_wire (opened.finish .none) a i opc hi, finish_cfg, exchangeAll_finish, finish_finish, hv]
  have hblock : exec (.dxblk h d r n) (v.finish .none) =
      .next ((v.transferBlock (v.cfg.busOf h) d r n).finish .none) := by
    have ready := sent.finish .none
    rw [exec_dxblk ready.inRange ready.owner ready.selected hd hr, finish_cfg, transferBlock_finish, finish_finish]
  have transferred : DevReady (v.transferBlock (v.cfg.busOf h) d r n) h := (sent.sendAll _).store d _
  have hdrel := exec_drel (transferred.finish .none)
  rw [closeDev_finish, finish_finish, closeDev_transferBlock hv] at hdrel
  exact ⟨_, _, _, hdacq, hword, hblock, hdrel⟩

/-- Settles O39: the sequence ends where its frame ends (`exec_transaction`), and so does the operation (`exec_mread`,
`exec_mwrite`). -/
theorem memoryOperationsAreTransactions : Obligations.MemoryOperationsAreTransactions := by
  unfold Obligations.MemoryOperationsAreTransactions
  intro s m d a n hm free hshort hcircuit
  constructor
  · obtain ⟨s1, s2, s3, h1, h2, h3, h4⟩ :=
      exec_transaction free (a.extractLsb' 0 24) (.inl ⟨rfl, rfl⟩) (r := none) hshort rfl
    rw [wireBytes_low] at h4
    exact ⟨s1, s2, s3, _, h1, h2, h3, h4, exec_mread hm free hshort hcircuit⟩
  · obtain ⟨s1, s2, s3, h1, h2, h3, h4⟩ :=
      exec_transaction free (a.extractLsb' 0 24) (.inr (.inl ⟨rfl, rfl⟩)) (d := none) rfl hshort
    rw [wireBytes_low] at h4
    exact ⟨s1, s2, s3, _, h1, h2, h3, h4, exec_mwrite hm free hshort hcircuit⟩

end Sys2Proof.Machine
end

section
/-! PROOF. O41, O42, O43: the memory device over the reference chip (R80, R203, R204, R211). -/

namespace Sys2Proof.Machine

open State

/-- Settles O41: the operation is a write frame, and the chip has stored its payload (`chip_write`). -/
theorem mwriteStoresInChip : Obligations.MwriteStoresInChip := by
  unfold Obligations.MwriteStoresInChip
  intro s m r a n c hm free hchip hbits hn hlen hsize
  obtain ⟨z, hz, hexec⟩ := exec_mwrite_present a hm free hn hlen
  have hpayload : ((s.buf r).take n.toNat).length = n.toNat := by rw [List.length_take, Nat.min_eq_left hlen]
  obtain ⟨c', hchip', hbits', hwf, hstored, hkept⟩ := chip_write hchip free.wf free.inRange
    ((selected_eq_false _ _).2 free.idle) free.path hbits a ((s.buf r).take n.toNat) (hpayload.trans_le hsize)
  rw [hz] at hchip'
  rw [hpayload] at hstored hkept
  refine ⟨_, c', hexec, hasChip_congr hchip' rfl rfl rfl, hbits', hwf, fun i hi => ?_, hkept⟩
  rw [trunc_eq, hstored i hi, List.getElem?_take_of_lt hi, List.getD_eq_getElem _ _ (hi.trans_le hlen),
    List.getElem?_eq_getElem (hi.trans_le hlen)]

/-- Settles O42: the operation is a read frame whose replies are the chip's bytes (`chip_read`), and they stand at the front
of the buffer (`store_buf`). -/
theorem mreadReturnsChipBytes : Obligations.MreadReturnsChipBytes := by
  unfold Obligations.MreadReturnsChipBytes
  intro s m d a n c hm free hchip hbits hn hlen
  obtain ⟨z, hz, hexec⟩ := exec_mread_present a hm free hn hlen
  have k := frame_at free (header opRead a) (List.replicate n.toNat s.cfg.fill)
  obtain ⟨hreplies, c', hchip', hbits', hmem⟩ := chip_read hchip free.wf free.inRange
    ((selected_eq_false _ _).2 free.idle) free.path hbits a (List.replicate n.toNat s.cfg.fill)
  rw [hz] at k hreplies hchip'
  rw [List.length_replicate] at hreplies
  have hcount : z.1.length = n.toNat := by rw [hreplies, List.length_map, List.length_range]
  have hbuf : ((z.2.store (some d) z.1).finish .none).buf d = z.1 ++ (s.buf d).drop n.toNat := by
    refine (store_buf z.2 d d z.1).trans ?_
    rw [if_pos rfl, hcount, State.buf, k.bufs, State.buf]
  have hstored : HasChip ((z.2.store (some d) z.1).finish .none) (s.cfg.handleOf m) c' := by
    obtain ⟨bufs, he, -⟩ := store_fields z.2 (some d) z.1
    rw [he]
    exact hasChip_congr hchip' rfl rfl rfl
  refine ⟨_, c', hexec, hstored, hbits', hmem, fun i hi => ?_, fun i hi => ?_⟩
  · rw [hbuf, List.getElem?_append_left (hi.trans_eq hcount.symm), hreplies]
    simp [hi]
  · rw [hbuf, List.getElem?_append_right (hcount.trans_le hi), hcount, List.getElem?_drop, Nat.add_sub_of_le hi]

/-- After a write the handle is free for the next transaction, and the buffers are as before (R208). -/
theorem mwrite_leaves_free {s t : State} {m : Nat} {r : BufRef} {a n : Word32} (hm : m < s.cfg.mems.length)
    (free : DevFree s (s.cfg.handleOf m)) (hn : n ≠ 0) (hlen : n.toNat ≤ (s.buf r).length)
    (h : exec (.mwrite m a (some r) n) s = .next t) :
    DevFree t (s.cfg.handleOf m) ∧ t.cfg = s.cfg ∧ t.bufs = s.bufs := by
  obtain ⟨z, hz, hexec⟩ := exec_mwrite_present a hm free hn hlen
  have k := frame_at free (header opWrite a) ((s.buf r).take n.toNat)
  rw [hz] at k
  obtain rfl : t = z.2.finish .none := Host.Outcome.next.inj (h.symm.trans hexec)
  exact ⟨devFree_congr (devFree_after free k) rfl rfl rfl rfl, k.cfg, k.bufs⟩

/-- Settles O43: the second operation finds the handle free (`mwrite_leaves_free`) and reads the bytes (O42) that the first
one has stored in the chip (O41). -/
theorem roundTripThroughChip : Obligations.RoundTripThroughChip := by
  unfold Obligations.RoundTripThroughChip
  intro s m r d a n c other hm free hchip hbits hn hsrc hdest hsize
  obtain ⟨t, c', hwrite, hchip', hbits', -, hstored, -⟩ :=
    mwriteStoresInChip s m r a n c hm free hchip hbits hn hsrc hsize
  obtain ⟨free', hcfg, hbufs⟩ := mwrite_leaves_free hm free hn hsrc hwrite
  have hbuf : ({ t with cur := other } : State).buf d = s.buf d := by simp only [State.buf, hbufs]
  rw [← hcfg] at free' hchip' hm
  obtain ⟨u, -, hread, -, -, -, hbytes, -⟩ := mreadReturnsChipBytes { t with cur := other } m d a n c' hm
    (devFree_congr free' rfl rfl rfl rfl) (hasChip_congr hchip' rfl rfl rfl) (hbits'.trans_le hbits) hn
    (hbuf ▸ hdest)
  refine ⟨t, u, hwrite, hread, List.ext_getElem? fun i => ?_⟩
  by_cases hi : i < n.toNat
  · have hpeek : ∀ h, c'.peek h (a.toNat + i) = (s.buf r).getD i 0 := fun h => by
      rw [RefMem.peek, RefMem.trunc, hbits', hstored i hi, Option.getD_some]
    rw [List.getElem?_take_of_lt hi, List.getElem?_take_of_lt hi, hbytes i hi, hpeek,
      List.getD_eq_getElem _ _ (hi.trans_le hsrc), List.getElem?_eq_getElem (hi.trans_le hsrc)]
  · rw [List.getElem?_take_eq_none (by omega), List.getElem?_take_eq_none (by omega)]

end Sys2Proof.Machine
end

section
/-! PROOF. O47, O52, O55, O58: the stream operations that use no wire (R222, R227), and the address of an index (R225). -/

namespace Sys2Proof.Machine

open State

theorem exec_savail {s : State} {x : Nat} (hx : x < s.cfg.strs.length) :
    exec (.savail x) s = .next (s.finish (.count (s.str x).count)) := if_pos hx

theorem exec_sflush {s : State} {x : Nat} (hx : x < s.cfg.strs.length) :
    exec (.sflush x) s = .next ((s.setStr x Stream.empty).finish .none) := if_pos hx

/-- The current caller reads back what its operation has returned (R103). -/
theorem result_finish (s : State) (r : Result) : ((s.finish r).caller s.cur).result = r :=
  congrArg Caller.result (finish_caller r rfl rfl)

/-- Settles O47: the operation answers `COUNT` and only ends (`exec_savail`); the bound is R32's. -/
theorem savailReturnsCount : Obligations.SavailReturnsCount := by
  unfold Obligations.SavailReturnsCount
  intro s x hx
  exact ⟨_, exec_savail hx, result_finish s _, rfl, rfl, StrInv.count⟩

/-- Settles O52: the operation writes its stream and ends (`exec_sflush`). -/
theorem sflushResetsIndices : Obligations.SflushResetsIndices := by
  unfold Obligations.SflushResetsIndices
  exact fun s x hx => exec_sflush hx

/-- Settles O58: the count is the one the flush has left (`str_after_setStr`). -/
theorem flushEmptiesStream : Obligations.FlushEmptiesStream := by
  unfold Obligations.FlushEmptiesStream
  intro s x hx
  obtain ⟨hflushed, -⟩ := str_after_setStr s x Stream.empty .none
  have hcount := exec_savail (s := (s.setStr x Stream.empty).finish .none) hx
  rw [hflushed] at hcount
  exact ⟨_, _, exec_sflush hx, hcount, result_finish _ _⟩

/-- Settles O55: the sum is taken modulo `2^32` (`streamAddr_eq`), and the header has the low bytes of it (O35). -/
theorem streamAddressWraps : Obligations.StreamAddressWraps := by
  unfold Obligations.StreamAddressWraps
  intro cfg x i opc
  have haddr : (streamAddr cfg x i).toNat = ((cfg.stream x).base.toNat + i) % 2 ^ 32 := by
    rw [streamAddr_eq, BitVec.toNat_ofNat]
  refine ⟨haddr, ?_⟩
  rw [headerLayout.1, haddr]
  simp only [List.cons.injEq, true_and, and_true]
  omega

end Sys2Proof.Machine
end

section
/-! PROOF. O49, O50, O51: a stream operation that passes its check on a free bus is one frame of one byte (R221, R223,
R224), after which the indices move (R226). -/

namespace Sys2Proof.Machine

open State

/-- A put on a stream with room sends its byte in one write frame, which leaves `z`, and then moves the indices. -/
theorem exec_sput_frame {s : State} {x : Nat} (v : Byte) (hx : x < s.cfg.strs.length)
    (free : DevFree s (streamHandle s.cfg x)) (hroom : (s.str x).count ≠ (s.cfg.stream x).size) :
    ∃ rs z, rs.length = 5 ∧
      FrameDone s z (streamHandle s.cfg x) (header opWrite (streamAddr s.cfg x (s.str x).put) ++ [v]) rs ∧
      exec (.sput x v) s = .next ((afterPut z x).finish .accepted) :=
  ⟨_, _, length_frameReplies _ _ _ _, frame_at free _ _, exec_sput v hx free hroom⟩

/-- A peek and a get of a stream that holds a byte run the same read frame of one byte, which leaves `z` and brings `r`;
the get then moves the indices. -/
theorem exec_read_frame {s : State} {x : Nat} (hx : x < s.cfg.strs.length)
    (free : DevFree s (streamHandle s.cfg x)) (hbyte : (s.str x).count ≠ 0) :
    ∃ hr r z, hr.length = 4 ∧
      FrameDone s z (streamHandle s.cfg x) (header opRead (streamAddr s.cfg x (s.str x).get) ++ [s.cfg.fill])
        (hr ++ [r]) ∧
      exec (.speek x) s = .next (z.finish (.byte r)) ∧
      exec (.sget x) s = .next ((afterGet z x).finish (.byte r)) := by
  have hpeek := exec_speek hx free hbyte
  have hget := exec_sget hx free hbyte
  have k := frame_at free (header opRead (streamAddr s.cfg x (s.str x).get)) [s.cfg.fill]
  have hone := length_frame (s.openDev (streamHandle s.cfg x)) (streamHandle s.cfg x)
    (header opRead (streamAddr s.cfg x (s.str x).get)) [s.cfg.fill]
  obtain ⟨r, hr⟩ := List.length_eq_one_iff.1 hone
  rw [frameReplies, hr] at k
  rw [hr] at hpeek hget
  exact ⟨_, r, _, length_exchangeAll _ _ _, k, hpeek, hget⟩

/-- Settles O49: the operation is a write frame (`exec_sput_frame`), and `str_afterPut` says what becomes of the
streams. -/
theorem sputWritesOneByte : Obligations.SputWritesOneByte := by
  unfold Obligations.SputWritesOneByte
  intro s x v hx free hroom
  obtain ⟨rs, z, hlen, k, hexec⟩ := exec_sput_frame v hx free hroom
  have hstr := str_afterPut (t := (afterPut z x).finish .accepted) (afterPut_congr k.strs k.cfg x)
  rw [← streamAddr_eq]
  exact ⟨rs, _, hexec, answered_setStr k x _ .accepted, hlen, k.framed.congr rfl rfl rfl rfl,
    (hstr x).trans (if_pos rfl), fun y hy => (hstr y).trans (if_neg hy), k.bufs, k.path⟩

/-- Settles O50: the operation is a read frame (`exec_read_frame`) and nothing after it. -/
theorem speekReadsOneByte : Obligations.SpeekReadsOneByte := by
  unfold Obligations.SpeekReadsOneByte
  intro s x hx free hbyte
  obtain ⟨hr, r, z, hlen, k, hpeek, -⟩ := exec_read_frame hx free hbyte
  rw [← streamAddr_eq]
  exact ⟨hr, r, _, hpeek, k.answered _, hlen, k.framed.congr rfl rfl rfl rfl, k.strs, k.bufs, k.path⟩

/-- Settles O51: both operations run the same frame (`exec_read_frame`), and `str_afterGet` says what the get then does to
the streams. -/
theorem sgetConsumesOneByte : Obligations.SgetConsumesOneByte := by
  unfold Obligations.SgetConsumesOneByte
  intro s x hx free hbyte
  obtain ⟨hr, r, z, hlen, k, hpeek, hget⟩ := exec_read_frame hx free hbyte
  have hstr := str_afterGet (t := (afterGet z x).finish (.byte r)) hbyte (afterGet_congr hbyte k.strs k.cfg)
  rw [← streamAddr_eq]
  exact ⟨hr, r, _, _, hget, hpeek, answered_setStr k x _ _, congrArg Caller.result (k.answered _).caller, hlen,
    k.framed.congr rfl rfl rfl rfl, (hstr x).trans (if_pos rfl), fun y hy => (hstr y).trans (if_neg hy), k.bufs, k.path⟩

end Sys2Proof.Machine
end

section
/-! PROOF. O53, O54: what operations and grant pieces can do to the streams is said once (`StreamEffect`), and all of it
keeps R32; a step is at most one of these. -/

namespace Sys2Proof.Machine

open State

/-- R228: whatever an operation does to the streams keeps the invariant of each. -/
theorem strInv_of_effect {s t : State} {i : Instr} {x : Nat} (hi : StrInv s x) (e : StreamEffect s i t) :
    StrInv t x := by
  obtain ⟨hcfg, hdone⟩ := e
  cases hdone with
  | same _ h => exact strInv_congr hi hcfg (by simp only [State.str, h])
  | put y _ hroom h =>
    have hstr := str_afterPut h x
    split at hstr
    case isTrue hxy =>
      subst hxy
      exact strInv_put hi (by simpa [full] using hroom) hcfg hstr
    case isFalse => exact strInv_congr hi hcfg hstr
  | get y hbyte h =>
    have hcount : (s.str y).count ≠ 0 := by simpa [emptyStr] using hbyte
    have hstr := str_afterGet hcount h x
    split at hstr
    case isTrue hxy =>
      subst hxy
      exact strInv_get hi hcount hcfg hstr
    case isFalse => exact strInv_congr hi hcfg hstr
  | flush y h =>
    have hstr : t.str x = if x = y then Stream.empty else s.str x := by
      rw [← str_setStr]
      simp only [State.str, h]
    split at hstr
    case isTrue => exact strInv_of_empty hstr
    case isFalse => exact strInv_congr hi hcfg hstr

/-- Settles O53: every operation has a `StreamEffect`. -/
theorem operationsKeepStreamInvariant : Obligations.OperationsKeepStreamInvariant := by
  unfold Obligations.OperationsKeepStreamInvariant
  exact fun s t i x _ _ _ hi h => strInv_of_effect hi (streamEffect_of_exec h)

/-- The check before the wait reads buffers and streams, which a turn of the scheduler leaves. -/
theorem reachesWait_turn (s : State) (c : Nat) (rest : List Nat) (i : Instr) :
    reachesWait (s.turn c rest) i = reachesWait s i := by
  cases i <;> rfl

/-- Settles O54, by the cases of a step (`step_cases`): the piece of a waiting caller has a `StreamEffect` because the
check before its wait would still pass. -/
theorem stepKeepsStreamInvariant : Obligations.StepKeepsStreamInvariant := by
  unfold Obligations.StepKeepsStreamInvariant
  intro s t x _ _ hi hcheck h
  obtain ⟨-, -, rfl | ⟨_, _, -, rfl⟩ | ⟨c, rest, hsched, -, hpiece⟩⟩ := step_cases h
  · exact hi
  · exact strInv_congr hi rfl rfl
  · have hturn : StrInv (s.turn c rest) x := strInv_congr hi rfl rfl
    obtain rfl | ⟨b, op, a, hwaits, -, rfl⟩ | ⟨i, ws, -, -, hexec⟩ := hpiece
    · exact hturn
    · have hreaches := (reachesWait_turn s c rest op).trans (hcheck c rest b op a hsched hwaits)
      exact strInv_of_effect hturn (streamEffect_of_grant a hreaches)
    · have hissued : StrInv ((s.turn c rest).issue ws) x := strInv_congr hturn rfl rfl
      exact strInv_of_effect hissued (streamEffect_of_exec hexec)

end Sys2Proof.Machine
end
section
/-! PROOF. O57: `SIZE` puts fill an empty stream, by induction on the bytes put (R230). -/

namespace Sys2Proof.Machine

open State

theorem exec_sput_full {s : State} {x : Nat} (v : Byte) (hx : x < s.cfg.strs.length)
    (hfull : (s.str x).count = (s.cfg.stream x).size) : exec (.sput x v) s = .next (s.finish .rejected) := by
  simp [exec, execSput, inRange, hx, full, hfull]

/-- One round of a row of puts (R230): nothing comes after a put that was not accepted. -/
def putAccepted (x : Nat) (o : Option State) (v : Byte) : Option State :=
  o.bind fun z => match exec (.sput x v) z with
    | .next z' => if (z'.caller z'.cur).result = .accepted then some z' else none
    | _ => none

theorem putAccepted_some {x : Nat} {z z' : State} {v : Byte} (hexec : exec (.sput x v) z = .next z')
    (hresult : (z'.caller z'.cur).result = .accepted) : putAccepted x (some z) v = some z' := by
  simp only [putAccepted, Option.bind_some, hexec, hresult, if_true]

/-- Puts in a row, as many as there is room for, are all accepted and counted. -/
theorem foldl_putAccepted {x : Nat} (vs : List Byte) {s : State} (hx : x < s.cfg.strs.length)
    (free : DevFree s (streamHandle s.cfg x)) (hroom : (s.str x).count + vs.length ≤ (s.cfg.stream x).size) :
    ∃ t, vs.foldl (putAccepted x) (some s) = some t ∧ t.cfg = s.cfg ∧
      (t.str x).count = (s.str x).count + vs.length := by
  induction vs generalizing s with
  | nil => exact ⟨s, rfl, rfl, rfl⟩
  | cons v vs ih =>
    rw [List.length_cons] at hroom
    have hne : (s.str x).count ≠ (s.cfg.stream x).size := by omega
    obtain ⟨_, u, hexec, hanswered, -, -, hstr, -⟩ := sputWritesOneByte s x v hx free hne
    have free' := sput_devFree hx free hne hexec
    have hresult : (u.caller u.cur).result = .accepted := by rw [hanswered.cur, hanswered.caller]
    have hcount : (u.str x).count = (s.str x).count + 1 := congrArg Stream.count hstr
    rw [← hanswered.cfg] at hx free' hroom
    obtain ⟨t, hfold, hcfg, hcount'⟩ := ih hx free' (by omega)
    refine ⟨t, ?_, hcfg.trans hanswered.cfg, ?_⟩
    · rw [List.foldl_cons, putAccepted_some hexec hresult, hfold]
    · rw [hcount', hcount, List.length_cons]
      omega

/-- Settles O57: the row of puts fills the stream (`foldl_putAccepted`), so the next one is rejected (`exec_sput_full`) and
leaves `COUNT` at `SIZE`. -/
theorem backpressure : Obligations.Backpressure := by
  unfold Obligations.Backpressure
  intro s x vs v hx free hempty hlen
  obtain ⟨t, hfold, hcfg, hcount⟩ := foldl_putAccepted vs hx free (by omega)
  have hfull : (t.str x).count = (s.cfg.stream x).size := by omega
  rw [← hcfg] at hx
  have hsavail := exec_savail (s := t.finish .rejected) hx
  refine ⟨t, _, _, hfold, exec_sput_full v hx (by rw [hcfg]; exact hfull), result_finish t _, hsavail, ?_⟩
  rw [← hfull]
  exact result_finish (t.finish .rejected) _

end Sys2Proof.Machine
end

section
/-! PROOF. O56, O59, O60: the stream operations over the reference chip (R80). Each one leaves the stream over such a chip
again (`OverChip`), so they can follow one another; which bytes the stream then holds is R229. -/

namespace Sys2Proof.Machine

open State

/-! ### One operation over the chip -/

/-- Stream `x` stands over the reference chip `c`, and its transactions can be opened at once. -/
structure OverChip (s : State) (x : Nat) (c : RefMem) : Prop where
  inRange : x < s.cfg.strs.length
  free : DevFree s (streamHandle s.cfg x)
  chip : HasChip s (streamHandle s.cfg x) c
  bits : c.bits ≤ 24

theorem OverChip.after {s t : State} {x : Nat} {c c' : RefMem} (k : OverChip s x c) (hcfg : t.cfg = s.cfg)
    (free : DevFree t (streamHandle s.cfg x)) (chip : HasChip t (streamHandle s.cfg x) c') (hbits : c'.bits = c.bits) :
    OverChip t x c' :=
  ⟨by rw [hcfg]; exact k.inRange, by rw [hcfg]; exact free, by rw [hcfg]; exact chip, hbits.trans_le k.bits⟩

/-- The byte of the chip at the get index of stream `x` (R225). -/
def byteAtGet (s : State) (x : Nat) (c : RefMem) : Byte :=
  c.peek (streamHandle s.cfg x) (streamAddr s.cfg x (s.str x).get).toNat

/-- The array of the chip is all that a peek reads. -/
theorem peek_congr {c c' : RefMem} (hbits : c'.bits = c.bits) (hmem : c'.mem = c.mem) (h a : Nat) :
    c'.peek h a = c.peek h a := by
  simp only [RefMem.peek, RefMem.trunc, hbits, hmem]

/-- The chip's address space divides the one of the stream addresses (R80, R225). -/
theorem peek_streamAddr {c : RefMem} (hbits : c.bits ≤ 24) (cfg : Config) (h x i : Nat) :
    c.peek h (streamAddr cfg x i).toNat = c.peek h ((cfg.stream x).base.toNat + i) := by
  rw [← RefMem.peek_trunc, trunc_streamAddr hbits, trunc_eq, RefMem.peek_trunc]

/-- What a chip reads after a byte has been stored in it. -/
theorem peek_of_stored {c c' : RefMem} {k : Nat} {v : Byte} (hbits : c'.bits = c.bits)
    (hread : ∀ a, c'.mem.read a = if a = c.trunc k then some v else c.mem.read a) (h a : Nat) :
    c'.peek h a = if c.trunc a = c.trunc k then v else c.peek h a := by
  have htrunc : c'.trunc a = c.trunc a := by rw [RefMem.trunc, RefMem.trunc, hbits]
  rw [RefMem.peek, htrunc, hread]
  split <;> rfl

/-- What an operation on stream `x` over the chip `c` has done that answered `t` with the result `r` and left the chip
`c'` there. -/
structure ChipDone (s t : State) (x : Nat) (c c' : RefMem) (r : Result) : Prop where
  chip : OverChip t x c'
  bits : c'.bits = c.bits
  cfg : t.cfg = s.cfg
  cur : t.cur = s.cur
  result : (t.caller s.cur).result = r

/-- A put on a stream with room stores its byte at the put index of the chip. -/
theorem OverChip.put {s : State} {x : Nat} {c : RefMem} (k : OverChip s x c) (v : Byte)
    (hroom : (s.str x).count ≠ (s.cfg.stream x).size) :
    ∃ t c', exec (.sput x v) s = .next t ∧ ChipDone s t x c c' .accepted ∧ t.strs = (afterPut s x).strs ∧
      (c.mem.wf = true → c'.mem.wf = true) ∧
      ∀ a, c'.mem.read a = if a = c.trunc (streamAddr s.cfg x (s.str x).put).toNat then some v else c.mem.read a := by
  obtain ⟨t, c', hexec, hresult, hcfg, hstrs, free, chip, hbits, hwf, hread⟩ :=
    sput_chip v k.inRange k.free k.chip k.bits hroom
  obtain ⟨_, _, hexec', hanswered, -⟩ := sputWritesOneByte s x v k.inRange k.free hroom
  obtain rfl := Host.Outcome.next.inj (hexec.symm.trans hexec')
  exact ⟨t, c', hexec, ⟨k.after hcfg free chip hbits, hbits, hcfg, hanswered.cur, hresult⟩, hstrs, hwf, hread⟩

/-- A peek and a get of a stream that holds a byte return the byte at the get index and leave the chip's array. -/
theorem OverChip.read {s : State} {x : Nat} {c : RefMem} (k : OverChip s x c) (hbyte : (s.str x).count ≠ 0) :
    ∃ t u c', exec (.speek x) s = .next t ∧ exec (.sget x) s = .next u ∧ c'.mem = c.mem ∧
      ChipDone s t x c c' (.byte (byteAtGet s x c)) ∧ t.strs = s.strs ∧
      ChipDone s u x c c' (.byte (byteAtGet s x c)) ∧ u.strs = (afterGet s x).strs := by
  obtain ⟨t, u, c', hpeek, htres, htcfg, htstrs, tfree, tchip, hbits, hmem, hget, hures, hucfg, hustrs, ufree, uchip⟩ :=
    speek_chip k.inRange k.free k.chip k.bits hbyte
  obtain ⟨_, _, _, hpeek', htans, -⟩ := speekReadsOneByte s x k.inRange k.free hbyte
  obtain ⟨_, _, _, _, hget', -, huans, -⟩ := sgetConsumesOneByte s x k.inRange k.free hbyte
  obtain rfl := Host.Outcome.next.inj (hpeek.symm.trans hpeek')
  obtain rfl := Host.Outcome.next.inj (hget.symm.trans hget')
  exact ⟨t, u, c', hpeek, hget, hmem, ⟨k.after htcfg tfree tchip hbits, hbits, htcfg, htans.cur, htres⟩, htstrs,
    ⟨k.after hucfg ufree uchip hbits, hbits, hucfg, huans.cur, hures⟩, hustrs⟩

section

variable {s t : State} {x : Nat} {c c' : RefMem} {r : Result}

theorem ChipDone.free (d : ChipDone s t x c c' r) : DevFree t (streamHandle s.cfg x) := by
  rw [← d.cfg]
  exact d.chip.free

theorem ChipDone.hasChip (d : ChipDone s t x c c' r) : HasChip t (streamHandle s.cfg x) c' := by
  rw [← d.cfg]
  exact d.chip.chip

theorem str_of_strs (h : t.strs = s.strs) : t.str x = s.str x := by rw [State.str, h, State.str]

end

/-- Settles O56: the operations over the chip (`OverChip.put`, `OverChip.read`), with the addresses written out. -/
theorem streamOperationsOnChip : Obligations.StreamOperationsOnChip := by
  unfold Obligations.StreamOperationsOnChip
  intro s x c hx free chip hbits
  have k : OverChip s x c := ⟨hx, free, chip, hbits⟩
  refine ⟨fun v hroom => ?_, fun hbyte => ?_⟩
  · obtain ⟨t, c', hexec, d, -, hwf, hread⟩ := k.put v hroom
    simp only [trunc_streamAddr hbits] at hread
    exact ⟨t, c', hexec, d.hasChip, d.bits, hwf, (hread _).trans (if_pos rfl), fun a ha => (hread a).trans (if_neg ha)⟩
  · obtain ⟨t, u, c', hpeek, hget, hmem, dpeek, -, dget, -⟩ := k.read hbyte
    rw [← peek_streamAddr hbits]
    exact ⟨t, u, c', c', hpeek, hget, dpeek.result, dget.result, dpeek.hasChip, dpeek.bits, hmem, dget.hasChip,
      dget.bits, hmem⟩

/-- After a peek the same byte of the same stream comes next (R223). -/
theorem OverChip.peek {s : State} {x : Nat} {c : RefMem} (k : OverChip s x c) (hbyte : (s.str x).count ≠ 0) :
    ∃ t c', exec (.speek x) s = .next t ∧ OverChip t x c' ∧ t.cur = s.cur ∧ t.str x = s.str x ∧
      (t.caller s.cur).result = .byte (byteAtGet s x c) ∧ byteAtGet t x c' = byteAtGet s x c := by
  obtain ⟨t, -, c', hexec, -, hmem, d, hstrs, -⟩ := k.read hbyte
  have hstr : t.str x = s.str x := str_of_strs hstrs
  refine ⟨t, c', hexec, d.chip, d.cur, hstr, d.result, ?_⟩
  rw [byteAtGet, hstr, d.cfg, peek_congr d.bits hmem, byteAtGet]

/-- Settles O59: two peeks one after the other leave the next byte what it was (`OverChip.peek`), and the get
returns it. -/
theorem peekIsIdempotent : Obligations.PeekIsIdempotent := by
  unfold Obligations.PeekIsIdempotent
  intro s x c hx free chip hbits hbyte
  have k : OverChip s x c := ⟨hx, free, chip, hbits⟩
  obtain ⟨t, c1, hpeek1, k1, hcur1, hstr1, hresult1, hsame1⟩ := k.peek hbyte
  rw [← hstr1] at hbyte
  obtain ⟨u, c2, hpeek2, k2, hcur2, hstr2, hresult2, hsame2⟩ := k1.peek hbyte
  rw [← hstr2] at hbyte
  obtain ⟨-, w, c3, -, hget, -, -, -, d, hstrs⟩ := k2.read hbyte
  have hresult3 := d.result
  rw [hcur1, hsame1] at hresult2
  rw [hcur2, hcur1, hsame2, hsame1] at hresult3
  have hcount : (w.str x).count = (u.str x).count - 1 :=
    congrArg Stream.count ((str_afterGet hbyte hstrs x).trans (if_pos rfl))
  refine ⟨byteAtGet s x c, t, u, w, hpeek1, hpeek2, hget, hresult1, hresult2, hresult3, ?_, ?_, ?_⟩
  · rw [hstr1]
  · rw [hstr2, hstr1]
  · rw [hcount, ← hstr1, ← hstr2]
    omega

/-! ### The contents -/

section

variable {s t : State} {x h : Nat} {c c' : RefMem} {q : List Byte}

/-- Two places of a window are two indices. -/
theorem index_ne {g j k n : Nat} (hjk : j < k) (hkn : k < n) : (g + j) % n ≠ (g + k) % n := by
  intro he
  have hmod : j ≡ k [MOD n] := Nat.ModEq.add_left_cancel' g he
  rw [Nat.ModEq, Nat.mod_eq_of_lt (hjk.trans hkn), Nat.mod_eq_of_lt hkn] at hmod
  exact hjk.ne hmod

/-- A stream holds the same bytes while neither it nor the chip's array changes. -/
theorem Holds.congr (k : Holds s x h c q) (hcfg : t.cfg = s.cfg) (hstr : t.str x = s.str x)
    (hpeek : ∀ a, c'.peek h a = c.peek h a) : Holds t x h c' q := by
  refine ⟨strInv_congr k.inv hcfg hstr, by rw [hstr, k.count], fun j hj => ?_⟩
  rw [hpeek, hcfg, hstr, k.bytes j hj]

/-- The oldest byte is the one at the get index. -/
theorem Holds.oldest {v : Byte} (k : Holds s x (streamHandle s.cfg x) c (v :: q)) : byteAtGet s x c = v := by
  have hcount := k.count
  rw [List.length_cons] at hcount
  have hget : (s.str x).get < (s.cfg.stream x).size := by
    have := k.inv.count
    have := k.inv.get
    omega
  have hbyte := k.bytes 0 (Nat.zero_lt_succ _)
  rwa [Nat.add_zero, Nat.mod_eq_of_lt hget] at hbyte

/-- R229 of a get: the rest is what the stream holds from the next get index on. -/
theorem Holds.afterGet {v : Byte} (k : Holds s x h c (v :: q)) (hcfg : t.cfg = s.cfg)
    (hstr : t.str x = ⟨(s.str x).put, ((s.str x).get + 1) % (s.cfg.stream x).size, (s.str x).count - 1⟩)
    (hpeek : ∀ a, c'.peek h a = c.peek h a) : Holds t x h c' q := by
  have hcount := k.count
  rw [List.length_cons] at hcount
  refine ⟨strInv_get k.inv (by omega) hcfg hstr, by rw [hstr, hcount]; rfl, fun j hj => ?_⟩
  have hindex : ((s.str x).get + 1) % (s.cfg.stream x).size + j ≡ (s.str x).get + (j + 1)
      [MOD (s.cfg.stream x).size] := by
    rw [Nat.ModEq, Nat.mod_add_mod, Nat.add_right_comm, Nat.add_assoc]
  rw [hpeek, hcfg, hstr, hindex, k.bytes (j + 1) (Nat.succ_lt_succ hj), List.getD_cons_succ]

/-- R229 of a put: the byte stored at the put index comes last, and it is stored over none of the others, whose addresses
are other ones because the window fits in the chip. -/
theorem Holds.afterPut {v : Byte} (k : Holds s x h c q) (hbits : c.bits ≤ 24)
    (hfits : (s.cfg.stream x).size ≤ 2 ^ c.bits) (hroom : q.length < (s.cfg.stream x).size) (hcfg : t.cfg = s.cfg)
    (hstr : t.str x = ⟨((s.str x).put + 1) % (s.cfg.stream x).size, (s.str x).get, (s.str x).count + 1⟩)
    (hpeek : ∀ a, c'.peek h a =
      if c.trunc a = c.trunc (streamAddr s.cfg x (s.str x).put).toNat then v else c.peek h a) :
    Holds t x h c' (q ++ [v]) := by
  have hpos : 0 < (s.cfg.stream x).size := Nat.zero_lt_of_lt hroom
  have hput := k.inv.put_eq hpos
  rw [k.count] at hput
  refine ⟨strInv_put k.inv (by rw [k.count]; exact hroom.ne) hcfg hstr, by simp [hstr, k.count], fun j hj => ?_⟩
  rw [hpeek, hcfg, hstr, hput]
  rw [List.length_append, List.length_singleton] at hj
  obtain hlast | hlt := Nat.eq_or_lt_of_le (Nat.le_of_lt_succ hj)
  · subst hlast
    rw [if_pos rfl, List.getD_append_right _ _ _ _ le_rfl, Nat.sub_self]
    rfl
  · have hother : c.trunc (streamAddr s.cfg x (((s.str x).get + j) % (s.cfg.stream x).size)).toNat ≠
        c.trunc (streamAddr s.cfg x (((s.str x).get + q.length) % (s.cfg.stream x).size)).toNat := fun he =>
      index_ne hlt hroom (streamAddr_inj hbits s.cfg x _ _ hfits (Nat.mod_lt _ hpos) (Nat.mod_lt _ hpos) he)
    rw [if_neg hother, k.bytes j hlt, List.getD_append _ _ _ _ hlt]

end

/-- Settles O60: what each operation does to chip and indices (`OverChip.put`, `OverChip.read`), read as a change of the
contents (`Holds.afterPut`, `Holds.afterGet`, `Holds.congr`). -/
theorem streamIsFifo : Obligations.StreamIsFifo := by
  unfold Obligations.StreamIsFifo
  intro s x c q hx free chip hbits hfits holds
  have k : OverChip s x c := ⟨hx, free, chip, hbits⟩
  refine ⟨fun v hroom => ?_, fun v q' hq => ?_⟩
  · obtain ⟨t, c', hexec, d, hstrs, -, hread⟩ := k.put v (by rw [holds.count]; exact hroom.ne)
    have hstr := (str_afterPut hstrs x).trans (if_pos rfl)
    exact ⟨t, c', hexec, d.result, d.free, d.hasChip, d.bits,
      holds.afterPut hbits hfits hroom d.cfg hstr (peek_of_stored d.bits hread _)⟩
  · subst hq
    have hbyte : (s.str x).count ≠ 0 := by rw [holds.count]; exact Nat.succ_ne_zero _
    obtain ⟨t, u, c', hpeek, hget, hmem, dpeek, hstrs, dget, hstrs'⟩ := k.read hbyte
    have hsame := peek_congr dpeek.bits hmem (streamHandle s.cfg x)
    have hstr := (str_afterGet hbyte hstrs' x).trans (if_pos rfl)
    rw [holds.oldest] at dpeek dget
    exact ⟨⟨u, c', hget, dget.result, dget.free, dget.hasChip, dget.bits, holds.afterGet dget.cfg hstr hsame⟩,
      t, c', hpeek, dpeek.result, dpeek.free, dpeek.hasChip, dpeek.bits,
      holds.congr dpeek.cfg (str_of_strs hstrs) hsame⟩

end Sys2Proof.Machine
end

section
/-! PROOF. O6, O48, O20: what a step runs, and the operations that end at their checks: a sentinel (R242, R243) or a broken
precondition (R245, R246). -/

namespace Sys2Proof.Machine

open State

/-- Settles O6: a caller that is not inside a wait takes the next record of its port (`step_notWaiting`). -/
theorem stepRunsDecoded : Obligations.StepRunsDecoded := by
  unfold Obligations.StepRunsDecoded
  intro s c rest i ws hsched hnot hdecode
  have hport : decode (s.turn c rest).cfg ((s.turn c rest).caller (s.turn c rest).cur).port = .ok i ws := hdecode
  rw [step_notWaiting hsched hnot, fetchAndRun, hport]
  rfl

/-! ### Sentinels -/

theorem exec_speek_empty {s : State} {x : Nat} (hx : x < s.cfg.strs.length) (hempty : (s.str x).count = 0) :
    exec (.speek x) s = .next (s.finish .empty) := by
  simp [exec, execSpeek, inRange, hx, emptyStr, hempty]

theorem exec_sget_empty {s : State} {x : Nat} (hx : x < s.cfg.strs.length) (hempty : (s.str x).count = 0) :
    exec (.sget x) s = .next (s.finish .empty) := by
  simp [exec, execSget, inRange, hx, emptyStr, hempty]

/-- Settles O48: the check on the stream comes before the acquire, so the operation only ends (`exec_speek_empty`,
`exec_sget_empty`, `exec_sput_full`). -/
theorem streamSentinels : Obligations.StreamSentinels := by
  unfold Obligations.StreamSentinels
  intro s x hx
  refine ⟨fun hempty => ?_, fun hfull v => ?_⟩
  · refine ⟨_, exec_speek_empty hx hempty, exec_sget_empty hx hempty, rfl, ?_⟩
    rw [result_finish]
    rfl
  · refine ⟨_, exec_sput_full v hx hfull, rfl, ?_⟩
    rw [result_finish]
    rfl

/-! ### Broken preconditions -/

/-- What a fault writes: the set of faults and its caller's record (R246). -/
theorem failWith_eq (s : State) (code : FaultCode) (i : Instr) : s.failWith code i = { s with
    faults := if ⟨code, s.cur, i⟩ ∈ s.faults then s.faults else s.faults ++ [⟨code, s.cur, i⟩]
    callers := setEntry Caller.idle s.callers s.cur ⟨.idle, (s.caller s.cur).port, .none⟩ } := by
  unfold failWith raise
  dsimp only
  split <;> rfl

section Verdicts

variable {s : State} {b h : Nat}

theorem holds_eq_false (hnot : (s.bus b).owner ≠ some s.cur) : s.holds s.cur b = false :=
  Bool.eq_false_iff.2 fun hh => hnot ((holds_iff s s.cur b).1 hh)

theorem xferFault_notHolder (hnot : (s.bus b).owner ≠ some s.cur) : s.xferFault b = some .xferNotHolder := by
  simp [xferFault, holds_eq_false hnot]

theorem relFault_notHolder (hnot : (s.bus b).owner ≠ some s.cur) : s.relFault b = some .relNotHolder := by
  simp [relFault, holds_eq_false hnot]

theorem devFault_notHolder (hnot : (s.bus (s.cfg.busOf h)).owner ≠ some s.cur) :
    s.devFault h = some .xferNotHolder := by
  simp [devFault, holds_eq_false hnot]

theorem drelFault_notHolder (hnot : (s.bus (s.cfg.busOf h)).owner ≠ some s.cur) :
    s.drelFault h = some .relNotHolder := by
  simp [drelFault, holds_eq_false hnot]

theorem relFault_selected (howner : (s.bus b).owner = some s.cur) (hh : h < s.cfg.devs.length)
    (hb : s.cfg.busOf h = b) (hsel : s.cs h ≠ (s.cfg.dev h).csIdle) : s.relFault b = some .selectMismatch := by
  have hany : s.anySelected b = true := by
    rw [anySelected, List.any_eq_true]
    exact ⟨h, List.mem_range.2 hh, by simp [hb, (selected_iff s h).2 hsel]⟩
  simp [relFault, (holds_iff s s.cur b).2 howner, hany]

theorem devFault_unselected (howner : (s.bus (s.cfg.busOf h)).owner = some s.cur)
    (hidle : s.cs h = (s.cfg.dev h).csIdle) : s.devFault h = some .selectMismatch := by
  simp [devFault, (holds_iff s _ _).2 howner, (selected_eq_false s h).2 hidle]

theorem drelFault_unselected (howner : (s.bus (s.cfg.busOf h)).owner = some s.cur)
    (hidle : s.cs h = (s.cfg.dev h).csIdle) : s.drelFault h = some .selectMismatch := by
  simp [drelFault, (holds_iff s _ _).2 howner, (selected_eq_false s h).2 hidle]

theorem devFault_selected (howner : (s.bus (s.cfg.busOf h)).owner = some s.cur)
    (hsel : s.cs h ≠ (s.cfg.dev h).csIdle) : s.devFault h = none := by
  simp [devFault, (holds_iff s _ _).2 howner, (selected_iff s h).2 hsel]

theorem orShort_short {d r : Option BufRef} {n : Word32} (hshort : s.short d n = true ∨ s.short r n = true) :
    s.orShort none d r n = some .bufferShort := by
  simp [orShort, hshort]

end Verdicts

/-- The fault that an operation meets on entry, before it could wait (R246, R249). -/
def entryFault (s : State) : Instr → Option FaultCode
  | .brel b => s.relFault b
  | .bxfer b _ => s.xferFault b
  | .bxblk b d r n => s.orShort (s.xferFault b) d r n
  | .drel h => s.drelFault h
  | .dxfer h _ => s.devFault h
  | .dxblk h d r n => s.orShort (s.devFault h) d r n
  | .mread _ d _ n | .mwrite _ _ d n => if s.short d n then some .bufferShort else none
  | .read h _ | .write h _ | .rdmr h _ | .wrmr h _ => s.devFault h
  | .bacq _ _ _ _ | .dacq _ | .sput _ _ | .savail _ | .speek _ | .sget _ | .sflush _ => none

/-- An operation that meets a fault on entry records it and ends. -/
theorem exec_entryFault {s : State} {i : Instr} {code : FaultCode} (hu : i.unitInRange s.cfg = true)
    (hf : entryFault s i = some code) : exec i s = .next (s.failWith code i) := by
  cases i <;> simp only [entryFault, Option.ite_none_right_eq_some, Option.some.injEq, reduceCtorEq] at hf <;>
    simp only [Instr.unitInRange, unitOk, Bool.and_eq_true, decide_eq_true_eq] at hu <;>
    simp [exec, execBrel, execBxfer, execBxblk, execDrel, execDxfer, execDxblk, execMread, execMwrite, execRead,
      execWrite, execRdmr, execWrmr, sendHeader, inRange, hu.1, hf]

/-- The handle whose transaction an operation opens itself (R181, R203, R204, R221 to R224). -/
def openedHandle (cfg : Config) : Instr → Option Nat
  | .dacq h => some h
  | .mread m _ _ _ | .mwrite m _ _ _ => some (cfg.handleOf m)
  | .sput x _ | .speek x | .sget x => some (streamHandle cfg x)
  | .bacq _ _ _ _ | .brel _ | .bxfer _ _ | .bxblk _ _ _ _ | .drel _ | .dxfer _ _ | .dxblk _ _ _ _ => none
  | .savail _ | .sflush _ | .read _ _ | .write _ _ | .rdmr _ _ | .wrmr _ _ => none

/-- An operation that opens a transaction waits for the bus of the transaction's handle. -/
theorem waitBus_of_openedHandle {cfg : Config} {i : Instr} {h : Nat} (hh : openedHandle cfg i = some h) :
    waitBus cfg i = some (cfg.busOf h) := by
  cases i <;> simp only [openedHandle, Option.some.injEq, reduceCtorEq] at hh <;> subst hh <;> rfl

/-- The `DACQ` inside such an operation that finds the select active ends it with `F3`, under the operation's own name
(R181, R246). -/
theorem grantPiece_selected {s : State} {i : Instr} {h : Nat} (hh : openedHandle s.cfg i = some h)
    (hsel : s.selected h = true) : grantPiece i (operandAddr s i) s = s.failWith .selectMismatch i := by
  cases i <;> simp only [openedHandle, Option.some.injEq, reduceCtorEq] at hh <;> subst hh <;>
    simp [grantPiece, operandAddr, grantDacq, grantMread, grantMwrite, grantSput, grantSpeek, grantSget, grantDev, hsel]

/-- An operation that opens a transaction and finds its bus free but its select active records `F3` and ends. -/
theorem exec_strayedSelect {s : State} {i : Instr} {h : Nat} (hu : i.unitInRange s.cfg = true)
    (hh : openedHandle s.cfg i = some h) (hreach : reachesWait s i = true)
    (hfree : (s.bus (s.cfg.busOf h)).held = false) (hsel : s.cs h ≠ (s.cfg.dev h).csIdle) :
    exec i s = .next (s.failWith .selectMismatch i) := by
  rw [exec_grant hu hreach (waitBus_of_openedHandle hh) hfree, grantPiece_selected hh ((selected_iff s h).2 hsel)]

/-- The fault a wire word meets on entry is that of its handle (log 10). -/
theorem entryFault_wire {s : State} {i : Instr} {h : Nat} {a : BitVec 24}
    (hi : i ∈ [Instr.read h a, .write h a, .rdmr h a, .wrmr h a]) : entryFault s i = s.devFault h := by
  simp only [List.mem_cons, List.not_mem_nil, or_false] at hi
  obtain rfl | rfl | rfl | rfl := hi <;> rfl

/-- Every way to break a precondition is a fault met on entry, or that of a select found active on a free bus. -/
theorem misuse_cases {s : State} {i : Instr} {code : FaultCode} (hm : Misuse s i code) :
    entryFault s i = some code ∨ code = .selectMismatch ∧ ∃ h, openedHandle s.cfg i = some h ∧
      reachesWait s i = true ∧ (s.bus (s.cfg.busOf h)).held = false ∧ s.cs h ≠ (s.cfg.dev h).csIdle := by
  cases hm with
  | bxfer b v hnot => exact .inl (xferFault_notHolder hnot)
  | bxblk b d r n hnot => exact .inl (congrArg (s.orShort · d r n) (xferFault_notHolder hnot))
  | dxfer h v hnot => exact .inl (devFault_notHolder hnot)
  | dxblk h d r n hnot => exact .inl (congrArg (s.orShort · d r n) (devFault_notHolder hnot))
  | brel b hnot => exact .inl (relFault_notHolder hnot)
  | drel h hnot => exact .inl (drelFault_notHolder hnot)
  | brelSelected b h howner hh hb hsel => exact .inl (relFault_selected howner hh hb hsel)
  | dxferUnselected h v howner hidle => exact .inl (devFault_unselected howner hidle)
  | dxblkUnselected h d r n howner hidle =>
    exact .inl (congrArg (s.orShort · d r n) (devFault_unselected howner hidle))
  | drelUnselected h howner hidle => exact .inl (drelFault_unselected howner hidle)
  | bxblkShort b d r n howner hshort =>
    exact .inl ((congrArg (s.orShort · d r n) (xferFault_holder howner)).trans (orShort_short hshort))
  | dxblkShort h d r n howner hsel hshort =>
    exact .inl ((congrArg (s.orShort · d r n) (devFault_selected howner hsel)).trans (orShort_short hshort))
  | mreadShort m d a n hshort => exact .inl (if_pos hshort)
  | mwriteShort m a r n hshort => exact .inl (if_pos hshort)
  | wireNotHolder i h a hi hnot => exact .inl ((entryFault_wire hi).trans (devFault_notHolder hnot))
  | wireUnselected i h a hi howner hidle =>
    exact .inl ((entryFault_wire hi).trans (devFault_unselected howner hidle))
  | dacqSelected h hfree hsel => exact .inr ⟨rfl, h, rfl, rfl, hfree, hsel⟩
  | mreadSelected m d a n hshort hcircuit hfree hsel =>
    exact .inr ⟨rfl, _, rfl, by simp [reachesWait, hshort, hcircuit], hfree, hsel⟩
  | mwriteSelected m a r n hshort hcircuit hfree hsel =>
    exact .inr ⟨rfl, _, rfl, by simp [reachesWait, hshort, hcircuit], hfree, hsel⟩
  | sputSelected x v hroom hfree hsel => exact .inr ⟨rfl, _, rfl, by simp [reachesWait, hroom], hfree, hsel⟩
  | speekSelected x hbyte hfree hsel => exact .inr ⟨rfl, _, rfl, by simp [reachesWait, hbyte], hfree, hsel⟩
  | sgetSelected x hbyte hfree hsel => exact .inr ⟨rfl, _, rfl, by simp [reachesWait, hbyte], hfree, hsel⟩

/-- Settles O20, by the two kinds of fault (`misuse_cases`): either way the operation ends in `failWith`. -/
theorem misuseRecordsFault : Obligations.MisuseRecordsFault := by
  unfold Obligations.MisuseRecordsFault
  intro s i code hu hm
  rw [← failWith_eq]
  obtain hf | ⟨rfl, h, hh, hreach, hfree, hsel⟩ := misuse_cases hm
  · exact exec_entryFault hu hf
  · exact exec_strayedSelect hu hh hreach hfree hsel

end Sys2Proof.Machine
end

section
/-! PROOF. O5: a step and `boot` are refused for the reason of a refused record, and only then (R248). -/

namespace Sys2Proof.Machine

open State

/-- Where a port holds a refused record, the machine names the reason of some refused record. -/
theorem exists_programError {s : State} {c : Nat} {e : DecodeError} (hc : c < s.callers.length)
    (h : RefusedIn s.cfg (s.caller c).port e) :
    ∃ c' e', c' < s.callers.length ∧ RefusedIn s.cfg (s.caller c').port e' ∧ s.programError = some e' := by
  cases hp : s.programError with
  | none => exact absurd h ((accepted_iff s).1 hp c hc e)
  | some e' =>
    obtain ⟨c', hc', h'⟩ := refused_of_programError hp
    exact ⟨c', e', hc', h', rfl⟩

theorem callers_length {s : State} (hshape : s.shapeOk = true) : s.callers.length = s.cfg.ncaller := by
  obtain ⟨-, -, hcallers, -⟩ := (shapeOk_iff s).1 hshape
  exact hcallers

/-! ### The step -/

theorem step_of_programError {s : State} {e : DecodeError} (hwf : s.cfg.wf = true) (hshape : s.shapeOk = true)
    (h : s.programError = some e) : step s = .refused (refusalOf e) := by
  simp [step, hwf, hshape, runAccepted, h]

theorem step_of_illFormed {s : State} (hwf : s.cfg.wf = false) : step s = .refused .illFormedConfig := by
  simp [step, hwf]

/-- A caller whose next record is not refused takes its next piece. -/
theorem fetchAndRun_next {s : State} (h : ∀ e, decode s.cfg (s.caller s.cur).port ≠ .refused e) :
    ∃ t, fetchAndRun s = .next t := by
  unfold fetchAndRun
  cases hd : decode s.cfg (s.caller s.cur).port with
  | empty => exact ⟨s, rfl⟩
  | refused e => exact absurd hd (h e)
  | ok i rest =>
    obtain ⟨hunit, -⟩ := Bool.and_eq_true_iff.1 (wf_of_decode hd)
    exact exec_next (s := s.issue rest) hunit

/-- A machine without refused records takes a step, whatever the schedule says. -/
theorem step_of_accepted {s : State} (hwf : s.cfg.wf = true) (hshape : s.shapeOk = true)
    (haccepted : s.programError = none) : ∃ t, step s = .next t := by
  have hstep : step s = runScheduled s := by simp [step, hwf, hshape, runAccepted, haccepted]
  cases hs : s.sched with
  | nil => exact ⟨s, by rw [hstep, runScheduled, hs]⟩
  | cons c rest =>
    by_cases hc : c < s.cfg.ncaller
    · have hsched : Scheduled s c rest := ⟨hwf, hshape, hs, hc, haccepted⟩
      by_cases hwait : NotWaiting s c
      · have hport := (accepted_iff s).1 haccepted c (by rwa [callers_length hshape])
        rw [step_notWaiting hsched hwait]
        exact fetchAndRun_next fun e hd => hport e (.here hd)
      · simp only [NotWaiting, not_forall, not_not] at hwait
        obtain ⟨b, op, a, hst⟩ := hwait
        exact ⟨_, step_waiting hsched hst⟩
    · exact ⟨_, by rw [hstep, runScheduled, hs]; exact if_neg hc⟩

/-- No step refuses what an earlier one has accepted (R248). -/
theorem accepted_step {s : State} (hi : Inv s) (haccepted : s.programError = none) :
    ∃ t, step s = .next t ∧ Inv t ∧ t.programError = none := by
  obtain ⟨t, ht⟩ := step_of_accepted hi.base.cfgWf hi.base.shape haccepted
  have hinv : Inv t := stepKeepsInvariant s t hi ht
  obtain ⟨hcfg, -⟩ := stepAppendsOnly s t hi ht
  refine ⟨t, ht, hinv, accepted_after_step hi ht hcfg ?_⟩
  rw [callers_length hinv.base.shape, hcfg, callers_length hi.base.shape]

/-! ### The load of programs -/

theorem loaded_callers_length (cfg : Config) (programs : List (List PortWord)) :
    (State.loaded cfg programs).callers.length = cfg.ncaller := by
  simp [State.loaded]

theorem loaded_caller {cfg : Config} {c : Nat} (hc : c < cfg.ncaller) (programs : List (List PortWord)) :
    (State.loaded cfg programs).caller c = ⟨.idle, programs.getD c [], .none⟩ := by
  simp [State.loaded, State.caller, entry, hc, Caller.idle]

theorem boot_of_programError {cfg : Config} {programs : List (List PortWord)} {e : DecodeError} (hwf : cfg.wf = true)
    (h : (State.loaded cfg programs).programError = some e) : boot cfg programs = .refused (refusalOf e) := by
  simp [boot, hwf, h]

theorem boot_of_accepted {cfg : Config} {programs : List (List PortWord)} (hwf : cfg.wf = true)
    (h : (State.loaded cfg programs).programError = none) :
    boot cfg programs = .next (State.loaded cfg programs) := by
  simp [boot, hwf, h]

theorem boot_of_illFormed {cfg : Config} (hwf : cfg.wf = false) (programs : List (List PortWord)) :
    boot cfg programs = .refused .illFormedConfig := by
  simp [boot, hwf]

/-- What makes the load of programs be refused is a refused record in one of them. -/
theorem loaded_refusedIn {cfg : Config} {c : Nat} (hc : c < cfg.ncaller) (programs : List (List PortWord))
    (e : DecodeError) : RefusedIn (State.loaded cfg programs).cfg ((State.loaded cfg programs).caller c).port e ↔
      RefusedIn cfg (programs.getD c []) e := by
  rw [loaded_caller hc]
  rfl

/-- A refusal that names the reason of one of the refused records names the one reason where they agree. -/
theorem refusal_named {P : Nat → DecodeError → Prop} {o : Host.Outcome State Fault Refusal} {e : DecodeError}
    {n : Nat} (h : ∃ c' e', c' < n ∧ P c' e' ∧ o = .refused (refusalOf e')) :
    (∃ c' e', c' < n ∧ P c' e' ∧ o = .refused (refusalOf e')) ∧
      ((∀ c' e', c' < n → P c' e' → refusalOf e' = refusalOf e) → o = .refused (refusalOf e)) := by
  refine ⟨h, fun hagree => ?_⟩
  obtain ⟨c', e', hc', hp, ho⟩ := h
  rw [ho, hagree c' e' hc' hp]

/-- Settles O5: the check of all programs finds a refused record exactly where there is one (`exists_programError`,
`accepted_iff`), and no meaning of an accepted record is refused (`accepted_step`). -/
theorem refusalsStop : Obligations.RefusalsStop := by
  unfold Obligations.RefusalsStop
  intro reason
  have hreason : reason = refusalOf := by
    funext e
    cases e <;> rfl
  rw [hreason]
  refine ⟨fun s c e hwf hshape hc he => refusal_named (P := fun c' => RefusedIn s.cfg (s.caller c').port) ?_,
    fun s hi haccepted => ?_, fun cfg programs hwf => boot_of_illFormed hwf programs,
    fun s hwf => step_of_illFormed hwf,
    fun cfg programs c e hwf hc he => refusal_named (P := fun c' => RefusedIn cfg (programs.getD c' [])) ?_,
    fun cfg programs hwf haccepted => ?_, fun s i hunit => exec_unitRefused hunit⟩
  · rw [← callers_length hshape] at hc ⊢
    obtain ⟨c', e', hc', he', herror⟩ := exists_programError hc he
    exact ⟨c', e', hc', he', step_of_programError hwf hshape herror⟩
  · have hnone : s.programError = none := (accepted_iff s).2 fun c hc e =>
      haccepted c e (by rwa [← callers_length hi.base.shape])
    obtain ⟨t, ht, hinv, hnone'⟩ := accepted_step hi hnone
    refine ⟨t, ht, fun c e hc => (accepted_iff t).1 hnone' c ?_ e⟩
    rwa [callers_length hinv.base.shape]
  · obtain ⟨c', e', hc', he', herror⟩ := exists_programError (s := State.loaded cfg programs)
      (by rwa [loaded_callers_length]) ((loaded_refusedIn hc programs e).2 he)
    rw [loaded_callers_length] at hc'
    exact ⟨c', e', hc', (loaded_refusedIn hc' programs e').1 he', boot_of_programError hwf herror⟩
  · have hnone : (State.loaded cfg programs).programError = none := by
      rw [accepted_iff, loaded_callers_length]
      exact fun c hc e he => haccepted c e hc ((loaded_refusedIn hc programs e).1 he)
    exact ⟨_, boot_of_accepted hwf hnone, fun c hc => loaded_caller hc programs, rfl⟩

end Sys2Proof.Machine
end

section
/-! PROOF. O9: a stream operation that has waited runs its frame at the address it has kept (R256). -/

namespace Sys2Proof.Machine

open State

/-- Once its bus is free, a waiting caller takes the grant piece of its operation (R122). -/
theorem step_granted {s : State} {c : Nat} {rest : List Nat} {b : Nat} {op : Instr} {a : Word32}
    (hsched : Scheduled s c rest) (hst : (s.caller c).status = .waiting b op a) (hfree : (s.bus b).held = false) :
    step s = .next (grantPiece op a (s.turn c rest)) := by
  have hfree' : ((s.turn c rest).bus b).held = false := hfree
  rw [step_waiting hsched hst, resume, hfree']
  rfl

section Frames

variable {s : State} {x : Nat} (free : DevFree s (streamHandle s.cfg x)) (a : Word32)
include free

/-- The grant piece of a put sends its byte to the address it is given, in one write frame, which leaves `z`, and then
moves the indices. -/
theorem grantSput_frame (v : Byte) : ∃ rs z, rs.length = 5 ∧
    FrameDone s z (streamHandle s.cfg x) (header opWrite a ++ [v]) rs ∧
    grantSput x v a s = (afterPut z x).finish .accepted :=
  ⟨_, _, length_frameReplies _ _ _ _, frame_at free _ _, grantSput_eq v a ((selected_eq_false _ _).2 free.idle)⟩

/-- The grant pieces of a peek and of a get run the same read frame at the address they are given, which leaves `z` and
brings `r`; the get then moves the indices. -/
theorem grantRead_frame : ∃ hr r z, hr.length = 4 ∧
    FrameDone s z (streamHandle s.cfg x) (header opRead a ++ [s.cfg.fill]) (hr ++ [r]) ∧
    grantSpeek x a s = z.finish (.byte r) ∧ grantSget x a s = (afterGet z x).finish (.byte r) := by
  have hpeek := grantSpeek_eq a ((selected_eq_false _ _).2 free.idle)
  have hget := grantSget_eq a ((selected_eq_false _ _).2 free.idle)
  have k := frame_at free (header opRead a) [s.cfg.fill]
  have hone := length_frame (s.openDev (streamHandle s.cfg x)) (streamHandle s.cfg x) (header opRead a) [s.cfg.fill]
  obtain ⟨r, hr⟩ := List.length_eq_one_iff.1 hone
  rw [frameReplies, hr] at k
  rw [hr] at hpeek hget
  exact ⟨_, r, _, length_exchangeAll _ _ _, k, hpeek, hget⟩

end Frames

/-- A frame does not depend on whose turn it is. -/
theorem Framed.of_turn {s t : State} {c : Nat} {rest : List Nat} {h : Nat} {vs rs : List Byte}
    (k : Framed (s.turn c rest) t h vs rs) : Framed s t h vs rs :=
  ⟨k.trace, k.slaves, k.pins, k.clock, k.bus, k.otherBuses⟩

/-- `COUNT` after a get, at 0 too (log 30). -/
theorem countDown_eq (s : State) (x : Nat) : countDown s x =
    if (s.str x).count = 0 then Config.countBelowZero x s.trace else (s.str x).count - 1 := by
  unfold countDown
  split
  case h_1 h => rw [if_pos h]
  case h_2 n h => rw [h, if_neg (Nat.succ_ne_zero n), Nat.succ_sub_one]

/-- What a get after a frame does to the streams, whatever `COUNT` is. -/
theorem str_afterGet_frame {s z : State} {h : Nat} {vs rs : List Byte} (k : FrameDone s z h vs rs) (x : Nat)
    (r : Result) :
    ((afterGet z x).finish r).str x = ⟨(s.str x).put, ((s.str x).get + 1) % (s.cfg.stream x).size,
      if (s.str x).count = 0 then Config.countBelowZero x z.trace else (s.str x).count - 1⟩ ∧
    ∀ y, y ≠ x → ((afterGet z x).finish r).str y = s.str y := by
  obtain ⟨hself, hother⟩ := str_after_setStr z x
    { z.str x with count := countDown z x, get := nextIndex z.cfg x (z.str x).get } r
  refine ⟨hself.trans ?_, fun y hy => (hother y hy).trans (k.str y)⟩
  rw [countDown_eq, nextIndex, k.str, k.cfg]

/-- Settles O9: the step is the grant piece at the kept address (`step_granted`), which is one frame there
(`grantSput_frame`, `grantRead_frame`); the indices it then moves are those of the state it finds. -/
theorem waitedStreamOperationsKeepAddress : Obligations.WaitedStreamOperationsKeepAddress := by
  unfold Obligations.WaitedStreamOperationsKeepAddress
  rintro s c rest _ x a hsched - rfl free
  have free' : DevFree (s.turn c rest) (streamHandle s.cfg x) := devFree_congr free rfl rfl rfl rfl
  refine ⟨fun v hst => ?_, fun hst => ?_, fun hst => ?_⟩
  · obtain ⟨rs, z, hlen, k, hgrant⟩ := grantSput_frame free' a v
    have hstr := str_afterPut (t := (afterPut z x).finish .accepted) (afterPut_congr k.strs k.cfg x)
    have hanswered : Answered (s.turn c rest) ((afterPut z x).finish .accepted) .accepted := answered_setStr k x _ _
    exact ⟨rs, _, (step_granted hsched hst free.free).trans (congrArg _ hgrant), hlen,
      Framed.of_turn (k.framed.congr rfl rfl rfl rfl), hanswered.caller, (hstr x).trans (if_pos rfl),
      fun y hy => (hstr y).trans (if_neg hy), k.bufs, hanswered.others⟩
  · obtain ⟨hr, r, z, hlen, k, hgrant, -⟩ := grantRead_frame free' a
    have hanswered := k.answered (.byte r)
    exact ⟨hr, r, _, (step_granted hsched hst free.free).trans (congrArg _ hgrant), hlen,
      Framed.of_turn (k.framed.congr rfl rfl rfl rfl), hanswered.caller, k.strs, k.bufs, hanswered.others⟩
  · obtain ⟨hr, r, z, hlen, k, -, hgrant⟩ := grantRead_frame free' a
    obtain ⟨hself, hother⟩ := str_afterGet_frame k x (.byte r)
    have hanswered : Answered (s.turn c rest) ((afterGet z x).finish (.byte r)) (.byte r) := answered_setStr k x _ _
    exact ⟨hr, r, _, (step_granted hsched hst free.free).trans (congrArg _ hgrant), hlen,
      Framed.of_turn (k.framed.congr rfl rfl rfl rfl), hanswered.caller, hself, hother, k.bufs, hanswered.others⟩

end Sys2Proof.Machine
end

section
/-! PROOF. O18: along a weakly fair run a free bus that is waited for is granted, and a run on which a waiter starves (R258,
R127). -/

namespace Sys2Proof.Machine

open State

/-! ### One step of a run -/

section ChosenStep

variable {s t : State} {c : Nat} (hi : Inv s) (h : step { s with sched := [c] } = .next t)
include hi h

/-- The step is the chosen caller's, or, where the choice names no caller, nobody's. -/
theorem chosen_moves : t.cur = c ∨ t.callers = s.callers ∧ t.buses = s.buses := by
  obtain rfl | ⟨_, rest, -, rfl⟩ | ⟨c', rest, u, hsched, -, hu, hturn, ⟨rfl, -⟩ | ⟨i, -, e, -⟩⟩ :=
    step_effect (inv_sched hi [c]) h
  · exact .inr ⟨rfl, rfl⟩
  · exact .inr ⟨rfl, rfl⟩
  · cases hsched
    exact .inl hturn
  · cases hsched
    exact .inl ((piece_of_effect hu e).cur.trans hturn)

theorem chosen_others {k : Nat} (hk : k ≠ c) : t.caller k = s.caller k := by
  obtain hcur | ⟨hcallers, -⟩ := chosen_moves hi h
  · obtain ⟨-, -, -, -, hothers⟩ := stepAppendsOnly _ t (inv_sched hi [c]) h
    exact hothers k (by rwa [hcur])
  · simp only [State.caller, hcallers]

/-- A free bus that is held after the step has been granted to the chosen caller. -/
theorem chosen_takes {b : Nat} (hb : b < s.cfg.buses.length) (hfree : (s.bus b).held = false)
    (htaken : (t.bus b).held = true) : (t.bus b).owner = some c := by
  have hinv : Inv t := stepKeepsInvariant _ t (inv_sched hi [c]) h
  obtain ⟨hcfg, -⟩ := stepAppendsOnly _ t (inv_sched hi [c]) h
  obtain hcur | ⟨-, hbuses⟩ := chosen_moves hi h
  · obtain ⟨-, htake⟩ := onlyTheHolderReleases _ t b (inv_sched hi [c]) hb h
    obtain hnone | howner := htake ((hi.bus.owner b hb).2 hfree)
    · rw [(hinv.bus.owner b (by rwa [hcfg])).1 hnone] at htaken
      cases htaken
    · rw [howner, hcur]
  · have hsame : t.bus b = s.bus b := bus_of_buses hbuses b
    rw [hsame, hfree] at htaken
    cases htaken

/-- A chosen waiter whose bus is free gets through its operation (R122). -/
theorem chosen_waiter_granted {b : Nat} (hc : c < s.cfg.ncaller) (hwait : s.waitsOn c b = true)
    (hfree : (s.bus b).held = false) : (t.caller c).status = .idle := by
  obtain ⟨op, a, hst⟩ := waitsOn_iff.1 hwait
  obtain ⟨hunit, hb, -⟩ := waiting_ok hi hc hst
  have hsched : Scheduled { s with sched := [c] } c [] :=
    ⟨hi.base.cfgWf, hi.base.shape, rfl, hc, accepted_of_step h⟩
  obtain rfl := Host.Outcome.next.inj (h.symm.trans (step_granted hsched hst hfree))
  have e : Effect (s.turn c []) op (grantPiece op a (s.turn c [])) :=
    effect_of_grant a hi.base.cfgWf hunit hb hfree
  obtain ⟨-, hidle | ⟨b', -, hb', hheld, -⟩⟩ := effect_caller (inv_turn hi c []) e
  · exact hidle
  · obtain rfl := Option.some.inj (hb.symm.trans hb')
    rw [show (s.turn c []).bus b = s.bus b from rfl, hfree] at hheld
    cases hheld

end ChosenStep

/-! ### A run -/

section Runs

variable {states : Nat → State} {choice : Nat → Nat} {words : Nat → Nat → List PortWord}
  (hinv : Inv (states 0)) (hrun : Run states choice words)
include hinv hrun

theorem run_inv (n : Nat) : Inv (states n) := by
  induction n with
  | zero => exact hinv
  | succ n ih =>
    obtain ⟨t, hstep, hnext⟩ := hrun n
    rw [hnext]
    exact inv_arrive (stepKeepsInvariant _ t (inv_sched ih _) hstep) (words n)

theorem run_cfg_succ (n : Nat) : (states (n + 1)).cfg = (states n).cfg := by
  obtain ⟨t, hstep, hnext⟩ := hrun n
  obtain ⟨hcfg, -⟩ := stepAppendsOnly _ t (inv_sched (run_inv hinv hrun n) _) hstep
  rw [hnext]
  exact hcfg

theorem run_cfg {n m : Nat} (hnm : n ≤ m) : (states m).cfg = (states n).cfg := by
  induction m, hnm using Nat.le_induction with
  | base => rfl
  | succ m _ ih => exact (run_cfg_succ hinv hrun m).trans ih

/-- Only the chosen caller's wait can end in a step. -/
theorem run_waits_succ {n c b : Nat} (hc : c ≠ choice n) (hwait : (states n).waitsOn c b = true) :
    (states (n + 1)).waitsOn c b = true := by
  obtain ⟨t, hstep, hnext⟩ := hrun n
  rw [hnext, arrive_waitsOn, State.waitsOn, chosen_others (run_inv hinv hrun n) hstep hc]
  exact hwait

/-- Caller `c` waits on for a free bus as long as it is not chosen and nobody takes the bus. -/
theorem run_waits_free {n m c b : Nat} (hwait : (states n).waitsOn c b = true) (hfree : ((states n).bus b).held = false)
    (hnm : n ≤ m)
    (hnot : ∀ k, n ≤ k → k < m → ¬ (choice k = c ∨ ((states (k + 1)).bus b).held = true)) :
    (states m).waitsOn c b = true ∧ ((states m).bus b).held = false := by
  induction m, hnm using Nat.le_induction with
  | base => exact ⟨hwait, hfree⟩
  | succ m hnm ih =>
    obtain ⟨hwait', -⟩ := ih fun k hk hkm => hnot k hk (hkm.trans (Nat.lt_succ_self m))
    obtain ⟨hchoice, hheld⟩ := not_or.1 (hnot m hnm (Nat.lt_succ_self m))
    exact ⟨run_waits_succ hinv hrun (Ne.symm hchoice) hwait', Bool.eq_false_iff.2 hheld⟩

/-- On a weakly fair run a waiter for a free bus is chosen at last, or somebody takes the bus. -/
theorem run_chosen_or_taken (hfair : WeaklyFair states choice) {n c b : Nat} (hc : c < (states n).cfg.ncaller)
    (hwait : (states n).waitsOn c b = true) (hfree : ((states n).bus b).held = false) :
    ∃ m, n ≤ m ∧ (choice m = c ∨ ((states (m + 1)).bus b).held = true) := by
  by_contra hnever
  simp only [not_exists, not_and] at hnever
  have henabled : ∀ m, n ≤ m → (states m).enabled c = true := fun m hm => by
    obtain ⟨hwait', hfree'⟩ := run_waits_free hinv hrun hwait hfree hm fun k hk _ => hnever k hk
    obtain ⟨op, a, hst⟩ := waitsOn_iff.1 hwait'
    simp only [State.enabled, hst, hfree', Bool.not_false]
  obtain ⟨m, hm, hchosen⟩ := hfair n c hc henabled
  exact hnever m hm (.inl hchosen)

/-- R258: the first step in which the waiter is chosen or the bus taken is a grant of the bus. -/
theorem run_grants (hfair : WeaklyFair states choice) {n c b : Nat} (hc : c < (states n).cfg.ncaller)
    (hwait : (states n).waitsOn c b = true) (hfree : ((states n).bus b).held = false) :
    ∃ m, n ≤ m ∧ (∀ k, n ≤ k → k ≤ m → ((states k).bus b).held = false) ∧
      (((states m).waitsOn (choice m) b = true ∧ ((states (m + 1)).caller (choice m)).status = .idle) ∨
        ((states (m + 1)).bus b).owner = some (choice m)) := by
  classical
  have hex := run_chosen_or_taken hinv hrun hfair hc hwait hfree
  obtain ⟨hnm, hfirst⟩ := Nat.find_spec hex
  have hbefore : ∀ k, n ≤ k → k < Nat.find hex → ¬ (choice k = c ∨ ((states (k + 1)).bus b).held = true) :=
    fun k hk hkm hp => Nat.find_min hex hkm ⟨hk, hp⟩
  generalize Nat.find hex = m at hnm hfirst hbefore
  have hwaits : ∀ k, n ≤ k → k ≤ m → (states k).waitsOn c b = true ∧ ((states k).bus b).held = false :=
    fun k hk hkm => run_waits_free hinv hrun hwait hfree hk fun j hj hjk => hbefore j hj (hjk.trans_le hkm)
  obtain ⟨hwait', hfree'⟩ := hwaits m hnm le_rfl
  have hinv' : Inv (states m) := run_inv hinv hrun m
  have hc' : c < (states m).cfg.ncaller := by rwa [run_cfg hinv hrun hnm]
  obtain ⟨t, hstep, hnext⟩ := hrun m
  rw [hnext, arrive_bus] at hfirst
  refine ⟨m, hnm, fun k hk hkm => (hwaits k hk hkm).2, ?_⟩
  rw [hnext, arrive_bus, arrive_status]
  obtain rfl | htaken := hfirst
  · exact .inl ⟨hwait', chosen_waiter_granted hinv' hstep hc' hwait' hfree'⟩
  · obtain ⟨op, a, hst⟩ := waitsOn_iff.1 hwait'
    obtain ⟨-, -, hb⟩ := waiting_ok hinv' hc' hst
    exact .inr (chosen_takes hinv' hstep hb hfree' htaken)

end Runs

/-! ### A waiter that starves -/

/-- The acquisition that both callers of the starving run ask for. -/
def rivalAcquire : Instr := .bacq 1 .mode0 .msb 1000000

/-- Under `CFG-T`: caller 0 waits for bus 1, which caller 1 has used and has or has not now, with `ws` in its port. -/
def starved (held : Bool) (owner : Option Nat) (ws : List PortWord) : State :=
  { State.reset with
    buses := [Bus.free, ⟨held, owner, .mode0, .msb, 16⟩]
    callers := [⟨.waiting 1 rivalAcquire 0, [], .none⟩, ⟨.idle, ws, .none⟩]
    cur := 1 }

/-- Caller 1 is about to acquire the bus once more. -/
def starvedFree : State := starved false none (encode rivalAcquire)

/-- Caller 1 holds the bus and is about to release it. -/
def starvedHeld : State := starved true (some 1) (encode (.brel 1))

/-- Caller 1 acquires and releases in turn. -/
def starvedRun (n : Nat) : State := if n % 2 = 0 then starvedFree else starvedHeld

/-- After each of its operations the next one arrives at the port of caller 1. -/
def starvedWords (n c : Nat) : List PortWord :=
  if c = 1 then (if n % 2 = 0 then encode (.brel 1) else encode rivalAcquire) else []

theorem starvedFree_inv : Inv starvedFree :=
  ⟨⟨by decide +kernel, by decide +kernel, by decide +kernel⟩,
    ⟨by decide +kernel, by decide +kernel, by decide +kernel⟩,
    ⟨by decide +kernel, by decide +kernel, by decide +kernel⟩,
    ⟨by decide +kernel, by decide +kernel, by decide +kernel, by decide +kernel⟩⟩

/-- Caller 1 is next, and runs the one operation in its port (O6, O2). -/
theorem starved_step {held : Bool} {owner : Option Nat} {i : Instr} (hwf : i.wf Config.reference = true)
    (haccepted : (starved held owner (encode i)).programError = none) :
    step { starved held owner (encode i) with sched := [1] } =
      exec i { starved held owner [] with
        callers := [⟨.waiting 1 rivalAcquire 0, [], .none⟩, ⟨.running, [], .none⟩] } := by
  have hcfg : Config.reference.wf = true := by decide
  have hcaller : 1 < Config.reference.ncaller := by decide
  have hdecode : decode Config.reference (encode i) = .ok i [] := by
    simpa using decodeOfEncode Config.reference i [] hwf
  exact stepRunsDecoded _ 1 [] i [] ⟨hcfg, rfl, rfl, hcaller, haccepted⟩ (fun _ _ _ h => by cases h) hdecode

theorem starvedFree_step : ∃ t, step { starvedFree with sched := [1] } = .next t ∧
    starvedHeld = t.arrive (starvedWords 0) :=
  ⟨_, (starved_step (by decide) (by decide +kernel)).trans (exec_bacq .mode0 .msb 1000000 (by decide) rfl),
    by decide +kernel⟩

theorem starvedHeld_step : ∃ t, step { starvedHeld with sched := [1] } = .next t ∧
    starvedFree = t.arrive (starvedWords 1) :=
  ⟨_, (starved_step (by decide) (by decide +kernel)).trans (brelClosesSession _ 1 (by decide) rfl (by decide +kernel)),
    by decide +kernel⟩

theorem starvedRun_even {n : Nat} (h : n % 2 = 0) : starvedRun n = starvedFree ∧ starvedRun (n + 1) = starvedHeld :=
  ⟨if_pos h, if_neg (by omega)⟩

theorem starvedRun_odd {n : Nat} (h : n % 2 = 1) : starvedRun n = starvedHeld ∧ starvedRun (n + 1) = starvedFree :=
  ⟨if_neg (by omega), if_pos (by omega)⟩

/-- The words depend on the parity alone. -/
theorem starvedWords_mod (n : Nat) : starvedWords (n % 2) = starvedWords n := by
  funext c
  simp [starvedWords]

theorem starvedRun_run : Run starvedRun (fun _ => 1) starvedWords := by
  intro n
  rw [← starvedWords_mod n]
  obtain hn | hn := Nat.mod_two_eq_zero_or_one n
  · obtain ⟨hnow, hnext⟩ := starvedRun_even hn
    rw [hnow, hnext, hn]
    exact starvedFree_step
  · obtain ⟨hnow, hnext⟩ := starvedRun_odd hn
    rw [hnow, hnext, hn]
    exact starvedHeld_step

theorem starvedRun_eq (n : Nat) : ∃ held owner ws, starvedRun n = starved held owner ws := by
  unfold starvedRun
  split
  · exact ⟨_, _, _, rfl⟩
  · exact ⟨_, _, _, rfl⟩

/-- Whatever the bus does, caller 0 waits for it. -/
theorem starvedRun_waits (n : Nat) : (starvedRun n).waitsOn 0 1 = true := by
  obtain ⟨_, _, _, hstate⟩ := starvedRun_eq n
  rw [hstate]
  rfl

/-- The run is weakly fair: caller 1 is always chosen, and caller 0 is disabled whenever the bus is held. -/
theorem starvedRun_fair : WeaklyFair starvedRun (fun _ => 1) := by
  intro n c hc henabled
  obtain ⟨_, _, _, hstate⟩ := starvedRun_eq n
  have hcallers : (starvedRun n).cfg.ncaller = 2 := by
    rw [hstate]
    rfl
  rw [hcallers] at hc
  obtain rfl | rfl : c = 0 ∨ c = 1 := by omega
  · have hheld := henabled (2 * n + 1) (by omega)
    rw [(starvedRun_odd (by omega)).1] at hheld
    cases hheld
  · exact ⟨n, le_rfl, rfl⟩

/-- Settles O18: the first step in which the waiter is chosen or its bus taken grants the bus (`run_grants`), and the waiters
not chosen wait on (`run_waits_succ`); on the fair run `starvedRun` caller 0 waits for ever. -/
theorem eventuallyOneGrant : Obligations.EventuallyOneGrant := by
  unfold Obligations.EventuallyOneGrant
  constructor
  · intro states choice words hinv hrun hfair n c b hc hwait hfree
    obtain ⟨m, hnm, hstays, hgrant⟩ := run_grants hinv hrun hfair hc hwait hfree
    exact ⟨m, hnm, hstays, hgrant, fun _ hne hwait' => run_waits_succ hinv hrun hne hwait'⟩
  · refine ⟨starvedRun, fun _ => 1, starvedWords, 0, 1, starvedFree_inv, starvedRun_run, starvedRun_fair, by decide,
      starvedRun_waits, fun n => ⟨2 * n, by omega, ?_⟩⟩
    obtain ⟨hnow, hnext⟩ := starvedRun_even (n := 2 * n) (by omega)
    rw [hnow, hnext]
    exact ⟨rfl, rfl⟩

end Sys2Proof.Machine
end

section
/-! PROOF. O46: the reference chip under a wire word (R80, R81). -/

namespace Sys2Proof.Machine

open State

/-- The four bytes of a wire word take a freshly selected chip to its data phase, the array as it was (R80). -/
theorem RefMem.wireBytes_steps (c : RefMem) (opc : Byte) (a : BitVec 24) (hphase : c.phase = .op) (hbits : c.bits ≤ 24) :
    (wireBytes opc a).foldl RefMem.step c = ⟨c.bits, .data, opc, a.toNat % 2 ^ c.bits, c.mem⟩ := by
  have hfresh : { c with phase := .op } = c := by rw [← hphase]
  have hsteps := RefMem.header_steps c opc (a.setWidth 32) hbits
  rw [hfresh, BitVec.toNat_setWidth_of_le (by decide)] at hsteps
  exact hsteps

/-- In its data phase the chip ignores every byte under an opcode other than READ and WRITE (R81). -/
theorem RefMem.step_of_data_other {c : RefMem} (v : Byte) (hphase : c.phase = .data) (hread : c.op ≠ opRead)
    (hwrite : c.op ≠ opWrite) : c.step v = c := by
  simp [RefMem.step, hphase, hread, hwrite]

/-- Settles O46: the one selected slave hears the four bytes whole (`exchangeAll_selected`), and its chip takes them as its
header (`RefMem.wireBytes_steps`). -/
theorem chipTakesWireWords : Obligations.ChipTakesWireWords := by
  unfold Obligations.ChipTakesWireWords
  refine ⟨fun s h a pre x post c hready hsel hx halone hchip hphase hbits i opc hi => ?_,
    fun c v hphase hread hwrite => RefMem.step_of_data_other v hphase hread hwrite⟩
  obtain ⟨-, pre', post', hsel', -⟩ := exchangeAll_selected hsel (by rwa [hx]) (wireBytes opc a)
  have hmem : IsMem x c := ⟨hchip, fun hdata => by simp [hphase] at hdata⟩
  refine ⟨_, pre', _, post', exec_wire hready a i opc hi, hsel'.congr rfl rfl rfl rfl rfl,
    (afterBytes_h x _).trans hx, ?_⟩
  rw [(hmem.afterBytes _).chip, RefMem.wireBytes_steps c opc a hphase hbits]

end Sys2Proof.Machine
end
